-- ==== Sys2Proof/Word.lean ====
section
/-! DEFINITION. The word, address and node types of the SEAforth 40C18 (spec rules R2, R7, R10, R35, R100). -/

namespace Sys2Proof

/-- The 18-bit word of data, instruction and memory (R7). -/
abbrev Word := BitVec 18

/-- A 9-bit address of a core's one address space (R60). -/
abbrev Addr := BitVec 9

/-- A 10-bit value of the program counter P: bit 9 is P9, bits 8 to 0 the address (R35, R36). -/
abbrev PAddr := BitVec 10

/-- The 40 nodes, numbered 00 to 39: the tens digit is the row, the units digit the column (R2). -/
abbrev Node := Fin 40

/-- The four opcode slots of an instruction word (R100). -/
inductive Slot where
  | s0
  | s1
  | s2
  | s3
deriving DecidableEq, Repr

/-- The slot after a slot; slot 3 has none in its word (R37, R108). -/
def Slot.next? : Slot → Option Slot
  | .s0 => some .s1
  | .s1 => some .s2
  | .s2 => some .s3
  | .s3 => none

/-- Four labelled directions of the ports of a node (R271). -/
inductive Dir where
  | right
  | down
  | left
  | up
deriving DecidableEq, Repr

/-- The four IOCS pin positions: bits 17, 5, 3 and 1 (R312, R313). -/
inductive Pin where
  | p17
  | p5
  | p3
  | p1
deriving DecidableEq, Repr

end Sys2Proof
end

