-- ==== Sys2Proof/Config.lean ====
section
/-! DEFINITION. What the spec leaves to an instance of the chip (its parameters, R8) and the free values: opaque
constants without a body, so that no proof can lean on one of their values. The parameters to which the spec gives
a value of its own are plain definitions with that value. -/

namespace Sys2Proof.Config

/-! ### Parameters without a value in the spec -/

/-- `ROM[n][0..63]`, the firmware of node n (R8, R41; decision D8: open). -/
opaque rom : Node → BitVec 6 → Word

/-- Bits 8 to 0 of `RESET_P[n]` for the nodes whose start address the spec does not give (R8, R44; D7: open). -/
opaque resetAddr : Node → Addr

/-- `PIN_OF_BIT[n][b]`: the package pin read at IOCS bit b of node n (R8, R348; D30: open).
No rule depends on it. -/
opaque pinOfBit : Node → Nat → Nat

/-! ### Parameters to which the spec gives a value -/

/-- `ADDR_FIELD_XOR`: whether an address field is stored complemented with $15555 (R111; D1: no). -/
def addrFieldXor : Bool := false

/-- The two readings of the wake polarity that the spec names (R326, conflict C1, D14). -/
inductive PinWakeRule where
  /-- wake iff the wake input differs from IOCSW[11] (the resolution of C1). -/
  | level
  /-- the literal sentence of the data sheet's section 6.3.3: bit 11 equals the bit read at bit 17. -/
  | sameAsRead
deriving DecidableEq, Repr

/-- `PIN_WAKE_RULE`: the resolution of conflict C1 (R326, D14). -/
def pinWakeRule : PinWakeRule := .level

/-- `BUS_PIN_XOR`: the pattern between a bus latch and its pins (R333; D35: none). -/
def busPinXor : Word := 0

/-! ### Free values -/

/-- What a RAM word that nothing has written since reset number `epoch` reads as (R44, U7). -/
opaque ramUnwritten : (epoch : Nat) → Node → BitVec 6 → Word

/-- The registers that a reset of the running chip leaves unspecified (R386, U7): word number k of node n. -/
opaque regAfterReset : (epoch : Nat) → Node → Nat → Word

/-- Which agent moves next where the state's agenda names none (R250, D20). -/
opaque freeNode : Nat → Node

/-- Bits 18 to 9 of the sum of an unsettled `+` or `+*` (R408, U2). -/
opaque unsettledHigh : Nat → BitVec 10

/-- The IOCS read bits that are reserved, or whose pin floats (R311, U8). -/
opaque iocsFree : Nat → Word

/-- Whether a floating wake input is at its wake level when looked at (R326, R417). -/
opaque floatingWake : Nat → Bool

/-- Whether a wake input that floats has left its wake level (R402, R417). -/
opaque floatingRearms : Nat → Bool

/-- The word a read takes when a plain pin completes it (R327, U9). -/
opaque pinReadData : Nat → Word

/-- The bus latch after a write made in input mode (R333, U11). -/
opaque busAfterInputWrite : Nat → Word

/-- The levels captured from the bus pins of a node that nothing outside drives (R333, R417). -/
opaque floatingBus : Nat → Node → Word

/-- The bit that enters bit 0 of a serdes register on a clock while it sends: the spec does not say (R341). -/
opaque serdesSendFill : Nat → Bool

/-- Which of a neighbour and a wake pin came first, where both are there when the access is looked at (R289). -/
opaque neighbourFirst : Nat → Bool

end Sys2Proof.Config
end

