-- ==== Sys2Proof/Syntax.lean ====
section
/-! DEFINITION. The 32 opcodes of the C18 core. A constructor with its slot (or its address field, whose kind says the
slot) is one row of spec/opcode_table.json: mnemonic and format (R101, R105, R107, R115). -/

namespace Sys2Proof

/-- The address field of a branch opcode, by the slot the opcode stands in (R107). The reserved bits 12:10 of a
slot-0 branch word are no operand: the decoder ignores them (R110). -/
inductive AddrField where
  | slot0 (addr : BitVec 10)
  | slot1 (addr : BitVec 8)
  | slot2 (addr : BitVec 3)
deriving DecidableEq, Repr

/-- The slot of the opcode that an address field belongs to (R107). -/
def AddrField.slot : AddrField → Slot
  | .slot0 _ => .s0
  | .slot1 _ => .s1
  | .slot2 _ => .s2

/-- One opcode standing in one slot. -/
inductive Instr where
  /-- `;` (R142) -/
  | ret (sl : Slot)
  /-- `;:` (R144) -/
  | coroutine (sl : Slot)
  /-- `jump` (R143) -/
  | jump (f : AddrField)
  /-- `call` (R141) -/
  | call (f : AddrField)
  /-- `unext` (R149) -/
  | unext (sl : Slot)
  /-- `next` (R147) -/
  | next (f : AddrField)
  /-- `if` (R145) -/
  | ifZero (f : AddrField)
  /-- `-if` (R146) -/
  | minusIf (f : AddrField)
  /-- `@p+` (R168) -/
  | fetchPInc (sl : Slot)
  /-- `@a+` (R163) -/
  | fetchAInc (sl : Slot)
  /-- `@b` (R165) -/
  | fetchB (sl : Slot)
  /-- `@a` (R161) -/
  | fetchA (sl : Slot)
  /-- `!p+` (R167) -/
  | storePInc (sl : Slot)
  /-- `!a+` (R164) -/
  | storeAInc (sl : Slot)
  /-- `!b` (R166) -/
  | storeB (sl : Slot)
  /-- `!a` (R162) -/
  | storeA (sl : Slot)
  /-- `+*` (R213) -/
  | plusStar (sl : Slot)
  /-- `2*` (R211) -/
  | twoStar (sl : Slot)
  /-- `2/` (R210); the opcode table's mnemonic is `2` -/
  | twoSlash (sl : Slot)
  /-- `not` (R200) -/
  | bitNot (sl : Slot)
  /-- `+` (R212) -/
  | plus (sl : Slot)
  /-- `and` (R201) -/
  | bitAnd (sl : Slot)
  /-- `xor` (R202) -/
  | bitXor (sl : Slot)
  /-- `drop` (R184) -/
  | drop (sl : Slot)
  /-- `dup` (R183) -/
  | dup (sl : Slot)
  /-- `pop` (R182) -/
  | pop (sl : Slot)
  /-- `over` (R185) -/
  | over (sl : Slot)
  /-- `a@` (R191) -/
  | aFetch (sl : Slot)
  /-- `.`, the no-op (R180) -/
  | nop (sl : Slot)
  /-- `push` (R181) -/
  | push (sl : Slot)
  /-- `b!` (R192) -/
  | bStore (sl : Slot)
  /-- `a!` (R190) -/
  | aStore (sl : Slot)
deriving DecidableEq, Repr

/-- The address field, for the five opcodes that have one (R107). -/
def Instr.field? : Instr → Option AddrField
  | .jump f => some f
  | .call f => some f
  | .next f => some f
  | .ifZero f => some f
  | .minusIf f => some f
  | _ => none

/-- The slot an instruction stands in. -/
def Instr.slot : Instr → Slot
  | .ret sl | .coroutine sl | .unext sl | .fetchPInc sl | .fetchAInc sl | .fetchB sl | .fetchA sl
  | .storePInc sl | .storeAInc sl | .storeB sl | .storeA sl | .plusStar sl | .twoStar sl | .twoSlash sl
  | .bitNot sl | .plus sl | .bitAnd sl | .bitXor sl | .drop sl | .dup sl | .pop sl | .over sl | .aFetch sl
  | .nop sl | .push sl | .bStore sl | .aStore sl => sl
  | .jump f | .call f | .next f | .ifZero f | .minusIf f => f.slot

end Sys2Proof
end

