-- ==== Sys2Proof/WellFormed.lean ====
section
/-! DEFINITION. Which opcode may stand in which slot (R106, R115). -/

namespace Sys2Proof

/-- Slots 0, 1 and 2: every opcode may stand there (R115). -/
def Slot.notLast : Slot → Bool
  | .s3 => false
  | _ => true

/-- Slot 3 holds three bits, so only the eight opcodes whose canonical value is a multiple of 4 can stand in it
(R102, R106); the five branch opcodes with an address field stand in slots 0 to 2 by the type of the field (R107). -/
def Instr.wellFormed : Instr → Bool
  | .ret _ => true
  | .coroutine sl => sl.notLast
  | .jump _ => true
  | .call _ => true
  | .unext _ => true
  | .next _ => true
  | .ifZero _ => true
  | .minusIf _ => true
  | .fetchPInc _ => true
  | .fetchAInc sl => sl.notLast
  | .fetchB sl => sl.notLast
  | .fetchA sl => sl.notLast
  | .storePInc _ => true
  | .storeAInc sl => sl.notLast
  | .storeB sl => sl.notLast
  | .storeA sl => sl.notLast
  | .plusStar _ => true
  | .twoStar sl => sl.notLast
  | .twoSlash sl => sl.notLast
  | .bitNot sl => sl.notLast
  | .plus _ => true
  | .bitAnd sl => sl.notLast
  | .bitXor sl => sl.notLast
  | .drop sl => sl.notLast
  | .dup _ => true
  | .pop sl => sl.notLast
  | .over sl => sl.notLast
  | .aFetch sl => sl.notLast
  | .nop _ => true
  | .push sl => sl.notLast
  | .bStore sl => sl.notLast
  | .aStore sl => sl.notLast

end Sys2Proof
end

