-- ==== Sys2Proof/Decode.lean ====
section
/-! DEFINITION. The instruction word: the stored and the canonical form of a slot (R103), the opcode map (R105, R106),
the branch address field (R107, R110, R111), the decoder, the encoder (R116) and the host's reading of a row of
spec/opcode_table.json. Every 18-bit word decodes in every slot: there is no illegal instruction word (R113), so the
decoder is total and rejects nothing. -/

namespace Sys2Proof

/-! ### Bit fields -/

/-- `x` with the field of the width of `v` that begins at bit `lo` replaced by `v` (the notation of R10). -/
def setField {w n : Nat} (x : BitVec w) (lo : Nat) (v : BitVec n) : BitVec w :=
  (x &&& ~~~((BitVec.allOnes n).setWidth w <<< lo)) ||| (v.setWidth w <<< lo)

/-! ### Stored and canonical form -/

/-- The opcode value that slot `sl` of the stored word `w` delivers to the decoder (R102, R103). -/
def canon (w : Word) (sl : Slot) : BitVec 5 :=
  match sl with
  | .s0 => w.extractLsb' 13 5 ^^^ 0x0A#5
  | .s1 => w.extractLsb' 8 5 ^^^ 0x15#5
  | .s2 => w.extractLsb' 3 5 ^^^ 0x0A#5
  | .s3 => (w.extractLsb' 0 3 ^^^ 0x5#3).setWidth 5 <<< 2

/-- The word that address fields are read from: the stored word itself, as `ADDR_FIELD_XOR` is false (R111). -/
def fieldWord (w : Word) : Word := if Config.addrFieldXor then w ^^^ 0x15555#18 else w

/-- The address field of a branch opcode in slot `sl` (R107). No branch opcode with a field stands in slot 3
(R106), so its line is never used. -/
def addrField (w : Word) (sl : Slot) : AddrField :=
  match sl with
  | .s0 => .slot0 ((fieldWord w).extractLsb' 0 10)
  | .s1 => .slot1 ((fieldWord w).extractLsb' 0 8)
  | .s2 | .s3 => .slot2 ((fieldWord w).extractLsb' 0 3)

/-! ### The opcode map -/

/-- The opcode of a canonical value, standing in slot `sl`, with the address field `f` where it has one (R105). -/
def decodeOpcode (c : BitVec 5) (sl : Slot) (f : AddrField) : Instr :=
  match c with
  | 0x00#5 => .ret sl
  | 0x01#5 => .coroutine sl
  | 0x02#5 => .jump f
  | 0x03#5 => .call f
  | 0x04#5 => .unext sl
  | 0x05#5 => .next f
  | 0x06#5 => .ifZero f
  | 0x07#5 => .minusIf f
  | 0x08#5 => .fetchPInc sl
  | 0x09#5 => .fetchAInc sl
  | 0x0A#5 => .fetchB sl
  | 0x0B#5 => .fetchA sl
  | 0x0C#5 => .storePInc sl
  | 0x0D#5 => .storeAInc sl
  | 0x0E#5 => .storeB sl
  | 0x0F#5 => .storeA sl
  | 0x10#5 => .plusStar sl
  | 0x11#5 => .twoStar sl
  | 0x12#5 => .twoSlash sl
  | 0x13#5 => .bitNot sl
  | 0x14#5 => .plus sl
  | 0x15#5 => .bitAnd sl
  | 0x16#5 => .bitXor sl
  | 0x17#5 => .drop sl
  | 0x18#5 => .dup sl
  | 0x19#5 => .pop sl
  | 0x1A#5 => .over sl
  | 0x1B#5 => .aFetch sl
  | 0x1C#5 => .nop sl
  | 0x1D#5 => .push sl
  | 0x1E#5 => .bStore sl
  | _ => .aStore sl

/-- The canonical value of an instruction's opcode (R105). -/
def Instr.opcode : Instr → BitVec 5
  | .ret _ => 0x00#5
  | .coroutine _ => 0x01#5
  | .jump _ => 0x02#5
  | .call _ => 0x03#5
  | .unext _ => 0x04#5
  | .next _ => 0x05#5
  | .ifZero _ => 0x06#5
  | .minusIf _ => 0x07#5
  | .fetchPInc _ => 0x08#5
  | .fetchAInc _ => 0x09#5
  | .fetchB _ => 0x0A#5
  | .fetchA _ => 0x0B#5
  | .storePInc _ => 0x0C#5
  | .storeAInc _ => 0x0D#5
  | .storeB _ => 0x0E#5
  | .storeA _ => 0x0F#5
  | .plusStar _ => 0x10#5
  | .twoStar _ => 0x11#5
  | .twoSlash _ => 0x12#5
  | .bitNot _ => 0x13#5
  | .plus _ => 0x14#5
  | .bitAnd _ => 0x15#5
  | .bitXor _ => 0x16#5
  | .drop _ => 0x17#5
  | .dup _ => 0x18#5
  | .pop _ => 0x19#5
  | .over _ => 0x1A#5
  | .aFetch _ => 0x1B#5
  | .nop _ => 0x1C#5
  | .push _ => 0x1D#5
  | .bStore _ => 0x1E#5
  | .aStore _ => 0x1F#5

/-- The instruction in slot `sl` of the stored word `w`: total, as every word is legal (R113). -/
def decode (w : Word) (sl : Slot) : Instr := decodeOpcode (canon w sl) sl (addrField w sl)

/-! ### The encoder -/

/-- `w` with the stored bits of the opcode value `c` in slot `sl` (R103, R116); slot 3 keeps the upper three bits
of `c`. -/
def putOpcode (w : Word) (sl : Slot) (c : BitVec 5) : Word :=
  match sl with
  | .s0 => setField w 13 (c ^^^ 0x0A#5)
  | .s1 => setField w 8 (c ^^^ 0x15#5)
  | .s2 => setField w 3 (c ^^^ 0x0A#5)
  | .s3 => setField w 0 (c.extractLsb' 2 3 ^^^ 0x5#3)

/-- `w` with an address field in its low bits (R107, R116); bits 12:10 of a slot-0 branch word stay (R110). -/
def putField (w : Word) (f : AddrField) : Word :=
  match f with
  | .slot0 a => setField w 0 ((fieldWord 0#18).extractLsb' 0 10 ^^^ a)
  | .slot1 a => setField w 0 ((fieldWord 0#18).extractLsb' 0 8 ^^^ a)
  | .slot2 a => setField w 0 ((fieldWord 0#18).extractLsb' 0 3 ^^^ a)

/-- `w` with the instruction `i` in its slot; every bit that `i` does not own stays (R116). -/
def encodeInto (w : Word) (i : Instr) : Word :=
  match i.field? with
  | none => putOpcode w i.slot i.opcode
  | some f => putField (putOpcode w i.slot i.opcode) f

/-- The word of an instruction alone: the other slots hold no-ops, and the reserved bits of a slot-0 branch word are
written 0 (R110, R116). -/
def encode (i : Instr) : Word :=
  match i.field? with
  | some (.slot0 _) => encodeInto 0#18 i
  | _ => encodeInto 0x2C9B2#18 i

/-! ### The host's reading of a row of the opcode table -/

/-- Whether the stored bits of slot `sl` of a word are all 0. -/
def slotBitsZero (w : Word) (sl : Slot) : Bool :=
  match sl with
  | .s0 => w.extractLsb' 13 5 == 0#5
  | .s1 => w.extractLsb' 8 5 == 0#5
  | .s2 => w.extractLsb' 3 5 == 0#5
  | .s3 => w.extractLsb' 0 3 == 0#3

/-- The slot that a word of the opcode table is about. A row of the table is an opcode in ONE slot and gives the other
slots no bits; so the slot is the first one whose bits are not all 0, beginning at the first slot that lies whole
within the row's `nbits` bits (a reading of the table's words, not of the hardware's: the log's entry 3). -/
def tableSlot (nbits w : Nat) : Slot :=
  let first : Slot := if nbits ≤ 8 then .s2 else if nbits ≤ 16 then .s1 else .s0
  let v := BitVec.ofNat 18 w
  match first with
  | .s0 =>
    if !slotBitsZero v .s0 then .s0 else if !slotBitsZero v .s1 then .s1
    else if !slotBitsZero v .s2 then .s2 else if !slotBitsZero v .s3 then .s3 else .s0
  | .s1 =>
    if !slotBitsZero v .s1 then .s1 else if !slotBitsZero v .s2 then .s2
    else if !slotBitsZero v .s3 then .s3 else .s1
  | _ => if !slotBitsZero v .s2 then .s2 else if !slotBitsZero v .s3 then .s3 else .s2

/-- The instruction the decoder reads from a word of the opcode table, in the slot the row is about; none where the
bits do not fit in the machine's 18-bit word. -/
def decodeTableWord (nbits w : Nat) : Option Instr :=
  if w < 2 ^ 18 then some (decode (BitVec.ofNat 18 w) (tableSlot nbits w)) else none

end Sys2Proof
end

