-- ==== Sys2Proof/Machine/State.lean ====
section
/-! DEFINITION. The state of the chip as plain data: 40 nodes (R3, R20, R250), what the outside world puts on their
pins and links, and which agent moves next. INVENTORY.md lists every field with the rule that names it. -/

namespace Sys2Proof.Machine

/-! ### Why a step can stop -/

/-- The hardware raises no exception and has no fault mechanism (R240, R241), so there is no fault: nothing raises
one. Safe: the type is empty. -/
inductive Fault where
deriving DecidableEq, Repr

/-- Why the model refuses a run. -/
inductive Refusal where
  /-- Raised only by an arm of `exec` whose instruction has no meaning yet (no arm does now). Safe: the run stops. -/
  | notModelled (mnemonic : String)
  /-- Raised by a store to a ROM address (R68, U3: the spec gives the store no meaning and says refuse).
  Safe: the run stops, and the ROM word does not change. -/
  | storeToRom
  /-- Raised by a read, a store or an instruction fetch at an undefined I/O address (R69, U4: indeterminate, the
  spec says refuse). Safe: the run stops. -/
  | undefinedIo
  /-- Raised by a port read with two writers pending on the selected ports, or a port write with two readers (R286,
  R287, U6: no outcome is given, the spec says refuse). Safe: the run stops. -/
  | portCollision
deriving DecidableEq, Repr

/-! ### One node -/

/-- The nine users of the address bus: the eight memory opcodes (R160) and the instruction fetch (R73). -/
inductive MemOp where
  | fetchA
  | storeA
  | fetchAInc
  | storeAInc
  | fetchB
  | storeB
  | fetchPInc
  | storePInc
  | instr
deriving DecidableEq, Repr

/-- A cell of RAM: a RAM word number below 64 and the word written there. The word of 18 bits is the smallest
addressable unit of this hardware; no byte exists (R65). -/
abbrev Cell := Nat × Word

/-- The RAM of a node: the words written since reset, in one canonical form (`Ram.wf` in Machine/Ops.lean). -/
abbrev Ram := List Cell

/-- What the environment puts on a node's pins (R313, R333): per IOCS pin the level the outside forces, or none where
nothing outside drives the pin; and the levels at the 18 bus pins of nodes 03 and 05. -/
structure Ext where
  p17 : Option Bool
  p5 : Option Bool
  p3 : Option Bool
  p1 : Option Bool
  bus : Option Word
deriving DecidableEq, Repr

/-- One node: a C18 core (R20) with its I/O state (R42). -/
structure NodeState where
  /-- T, the top of the data stack (R21). -/
  t : Word
  /-- S, the second of the data stack (R21). -/
  s : Word
  /-- `DS[0..7]`, the ring below S (R22, R23). -/
  ds : Vector Word 8
  /-- `dp`, the register below S (R23). -/
  dp : Fin 8
  /-- R, the top of the return stack (R29). -/
  r : Word
  /-- `RS[0..7]`, the ring below R (R29). -/
  rs : Vector Word 8
  /-- `rp`, the register below R (R29). -/
  rp : Fin 8
  /-- A (R33). -/
  a : Word
  /-- B, 9 bits, write-only (R34). -/
  b : Addr
  /-- P, the program counter; bit 9 is P9 (R35, R36). -/
  p : PAddr
  /-- I, the instruction register, in stored form (R37). -/
  i : Word
  /-- The slot pointer (R37). -/
  slot : Slot
  /-- The carry latch C (R38). -/
  carry : Bool
  /-- `IOCSW`, the IOCS output latch (R40). -/
  iocsw : Word
  /-- RAM (R41). -/
  ram : Ram
  /-- The ALU settle flag (R42, R395). -/
  settled : Bool
  /-- The pin-wake detector (R42, R402): the port address whose completed pin-wake access disarmed it, none while it
  is armed. -/
  disarmedBy : Option Addr
  /-- The node's device register, behind DATA and UP: the bus latch `BUS[n]` on nodes 03 and 05 (R330), the counter
  `ADC[n]` on 36, 37 and 39 (R338), the serdes register `SR[n]` on 01 and 31 (R341). Other nodes have no device and
  never reach it. -/
  dev : Word
  /-- Nodes 01 and 31: the serdes has a received word available, or has sent the previous word (R342, R343); what sets
  and clears it is log entry 25. -/
  linkReady : Bool
  /-- The model's own: the core's next step is an instruction fetch (R14: a fetch is a step of its own). -/
  fetching : Bool
  /-- The port access this core sleeps in (R276); the node's port requests `req[n][d]` (R273) follow from it. -/
  blocked : Option MemOp
  /-- The environment of the node's pins. -/
  ext : Ext
deriving DecidableEq, Repr

/-! ### The chip -/

/-- What the environment can do between two steps of cores (R242, R254, R313, R333, R338, R341, R380). -/
inductive Event where
  /-- The reset line (R380, R386). -/
  | reset
  /-- The outside forces a level on an IOCS pin of a node, or lets go of it (R313). -/
  | pin (n : Node) (q : Pin) (level : Option Bool)
  /-- The outside sets the levels at the bus pins of node 03 or 05, or lets go of them (R333). -/
  | busPins (n : Node) (levels : Option Word)
  /-- The VCO of an analog node counts (R338). -/
  | vco (n : Node) (counts : Nat)
  /-- One clock of a serdes link; `bit` is the level of the data pad (R341). -/
  | serdesClock (n : Node) (bit : Bool)
  /-- A whole word has arrived over a serdes link (R341, R343). -/
  | serdesWord (n : Node) (w : Word)
  /-- The serdes has sent its word (R342). -/
  | serdesSent (n : Node)
deriving DecidableEq, Repr

/-- Who moves: a core makes one step (R14), or the environment acts. -/
inductive Turn where
  | node (n : Node)
  | event (e : Event)
deriving DecidableEq, Repr

/-- The chip. -/
structure State where
  /-- The 40 nodes (R3, R250). -/
  nodes : Vector NodeState 40
  /-- The model's own: the node whose core is running; `exec` and the named operations act on it. -/
  cur : Node
  /-- The model's own: who moves next, in order; where it is empty a free value names a node (R250, D20). -/
  agenda : List Turn
  /-- The model's own: a counter every step advances; the free values are taken at it. -/
  tick : Nat
  /-- The model's own: the tick of the last reset, at which the free values of unwritten RAM are taken (R386). -/
  epoch : Nat
deriving DecidableEq, Repr

/-! ### Reset -/

/-- `RESET_P[n]`: $0AA on nodes 01 and 31, elsewhere a parameter with bit 9 clear (R44, D7). -/
def resetP (n : Node) : PAddr :=
  if n = 1 ∨ n = 31 then 0x0AA#10 else (Config.resetAddr n).setWidth 10

/-- Nothing outside drives a pin. -/
def Ext.undriven : Ext := { p17 := none, p5 := none, p3 := none, p1 := none, bus := none }

/-- Node n right after reset (R44, R383), in the environment `ext`; `w` gives the words of the registers to which
the spec states no value. -/
def NodeState.atReset (n : Node) (w : Nat → Word) (ext : Ext) : NodeState :=
  { t := w 0
    s := w 1
    ds := Vector.ofFn fun k => w (8 + k.val)
    dp := Fin.ofNat 8 (w 2).toNat
    r := w 3
    rs := Vector.ofFn fun k => w (16 + k.val)
    rp := Fin.ofNat 8 (w 4).toNat
    a := w 5
    b := (w 6).extractLsb' 0 9
    p := resetP n
    i := w 7
    slot := .s0
    carry := (w 24).getLsbD 0
    iocsw := 0x15555#18
    ram := []
    settled := false
    disarmedBy := none
    dev := if n = 3 ∨ n = 5 then 0x2AAAA#18 else w 25
    linkReady := false
    fetching := true
    blocked := none
    ext := ext }

/-- The chip right after reset (R44, R383, R386): every core is about to fetch at its reset address. The registers
without a reset value hold 0 (DESIGN CHOICE, log entry 1); the model's own fields are the log's entry 2. -/
def State.reset : State :=
  { nodes := Vector.ofFn fun n => NodeState.atReset n (fun _ => 0#18) Ext.undriven
    cur := 0
    agenda := []
    tick := 0
    epoch := 0 }

end Sys2Proof.Machine
end

