-- ==== Sys2Proof/Machine/Ops.lean ====
section
/-! DEFINITION. The named operations over the registers, the stacks and RAM, and the ways a core goes on after an
opcode. The hardware takes no exception and returns from none (R240, R244), so no operation for it stands here. -/

namespace Sys2Proof.Machine

/-! ### Nodes -/

/-- Node n. -/
def State.node (s : State) (n : Node) : NodeState := s.nodes[n]

/-- The state with node n replaced. -/
def State.setNode (s : State) (n : Node) (c : NodeState) : State := { s with nodes := s.nodes.set n.val c }

/-- The running core. -/
def State.core (s : State) : NodeState := s.node s.cur

/-- The state with the running core replaced. -/
def State.setCore (s : State) (c : NodeState) : State := s.setNode s.cur c

/-- An opcode that touches the running core alone. -/
def State.onCore (s : State) (f : NodeState → NodeState) : Host.Outcome State Fault Refusal :=
  .next (s.setCore (f s.core))

/-! ### The data stack -/

/-- `dpush(v)` (R24). -/
def NodeState.dpush (c : NodeState) (v : Word) : NodeState :=
  { c with dp := c.dp + 1, ds := c.ds.set (c.dp + 1).val c.s, s := c.t, t := v }

/-- `dpop()` (R25); the value it returns is T of before. -/
def NodeState.dpop (c : NodeState) : NodeState :=
  { c with t := c.s, s := c.ds[c.dp], dp := c.dp - 1 }

/-! ### The return stack -/

/-- `rpush(v)` (R30). -/
def NodeState.rpush (c : NodeState) (v : Word) : NodeState :=
  { c with rp := c.rp + 1, rs := c.rs.set (c.rp + 1).val c.r, r := v }

/-- `rpop()` (R30); the value it returns is R of before. -/
def NodeState.rpop (c : NodeState) : NodeState :=
  { c with r := c.rs[c.rp], rp := c.rp - 1 }

/-- R with its low 10 bits replaced, bits 17:10 kept (R31, R141, R144). -/
def withLow10 (r : Word) (p : PAddr) : Word := setField r 0 p

/-! ### The address incrementer -/

/-- `incr` on a value of at least 9 bits (R71): in RAM and ROM one more within the low 7 bits, in I/O unchanged. -/
def incr {w : Nat} (p : BitVec w) : BitVec w :=
  if p.getLsbD 8 then p
  else (p &&& ~~~(BitVec.ofNat w 0x7F)) ||| ((p + 1) &&& BitVec.ofNat w 0x7F)

/-! ### How a core goes on -/

/-- After an opcode in slot `sl` that leaves control alone: the next slot, and after slot 3 the fetch of the next
word (R108, R415). -/
def NodeState.advance (c : NodeState) (sl : Slot) : NodeState :=
  match sl.next? with
  | some next => { c with slot := next }
  | none => { c with fetching := true }

/-- `pc <- target` (R140): P takes the target, and the core's next step is the fetch, which loads the incremented
address (R14, R73). Every transfer helps a following add (R396, R400), but for one that changes P9 (R401). -/
def NodeState.transfer (c : NodeState) (t : PAddr) : NodeState :=
  { c with p := t, fetching := true, settled := t.getLsbD 9 == c.p.getLsbD 9 }

/-- A conditional branch that is not taken: the next word is fetched from the unchanged P (R108, R145). -/
def NodeState.fallThrough (c : NodeState) : NodeState := { c with fetching := true, settled := true }

/-- P9, the Extended mode bit (R36, R222). -/
def NodeState.extended (c : NodeState) : Bool := c.p.getLsbD 9

/-! ### RAM -/

/-- The word written at a RAM word number since reset; none where nothing has been written. -/
def Ram.read (m : Ram) (k : Nat) : Option Word :=
  match m with
  | [] => none
  | (j, v) :: rest => if j = k then some v else Ram.read rest k

/-- A store to a RAM word. -/
def Ram.write (m : Ram) (k : Nat) (v : Word) : Ram :=
  match m with
  | [] => [(k, v)]
  | (j, u) :: rest =>
    if k < j then (k, v) :: (j, u) :: rest
    else if k = j then (k, v) :: rest
    else (j, u) :: Ram.write rest k v

/-- RAM word numbers strictly rising from `lo` on, all below 64. -/
def Ram.wfFrom (lo : Nat) : Ram → Bool
  | [] => true
  | (j, _) :: rest => decide (lo ≤ j) && decide (j < 64) && Ram.wfFrom (j + 1) rest

/-- The canonical form: word numbers strictly rising, each below 64. A word that nothing has written has no entry and
no value, so no entry can equal what an unlisted word reads as, and equal memories are equal data. -/
def Ram.wf (m : Ram) : Bool := Ram.wfFrom 0 m

/-- The RAM word number of an address of RAM or ROM: bit 6 is not decoded (R61). -/
def wordIndex (a : Addr) : BitVec 6 := a.extractLsb' 0 6

/-- The word that RAM word `k` of node n holds: the word last written there since reset, else a free value (R44,
U7; log entry 4). -/
def State.readRam (s : State) (n : Node) (k : BitVec 6) : Word :=
  match (s.node n).ram.read k.toNat with
  | some v => v
  | none => Config.ramUnwritten s.epoch n k

/-- A store to RAM word `k` of the running core. -/
def State.writeRam (s : State) (k : BitVec 6) (v : Word) : State :=
  s.setCore { s.core with ram := s.core.ram.write k.toNat v }

/-- The word of RAM or ROM that address `a` of node n names: a read of them has no side effect (R66, R76). For an
I/O address, which is no storage, it says nothing. -/
def State.peek (s : State) (n : Node) (a : Addr) : Word :=
  if a.getLsbD 7 then Config.rom n (wordIndex a) else s.readRam n (wordIndex a)

end Sys2Proof.Machine
end

