-- ==== Sys2Proof/Machine/Flags.lean ====
section
/-! DEFINITION. The adder, the carry latch and the settling of the adder (R212, R213, R395 to R401, R408). The core has
no other flag (R39). -/

namespace Sys2Proof.Machine

/-- The carry into the adder: C in Extended mode, 0 in Standard mode (R212, R213). -/
def NodeState.carryIn (c : NodeState) : BitVec 19 := if c.extended && c.carry then 1#19 else 0#19

/-- The 19-bit unsigned sum of `+`: bit 18 is the carry out of T17 (R212). -/
def NodeState.plusSum (c : NodeState) : BitVec 19 := c.s.zeroExtend 19 + c.t.zeroExtend 19 + c.carryIn

/-- The 19-bit signed sum of `+*`: T with S added where A0 is 1 (R213). -/
def NodeState.plusStarSum (c : NodeState) : BitVec 19 :=
  if c.a.getLsbD 0 then c.t.signExtend 19 + c.s.signExtend 19 + c.carryIn else c.t.signExtend 19

/-- The opcodes of the data sheet's Table 3.9: the eight data memory opcodes and `unext` (R414). -/
def affectsPrefetch : Instr → Bool
  | .unext _ | .fetchPInc _ | .fetchAInc _ | .fetchB _ | .fetchA _
  | .storePInc _ | .storeAInc _ | .storeB _ | .storeA _ => true
  | _ => false

/-- Slot 3 is stretched long enough for an add: the word has an opcode of Table 3.9 in slot 1 or slot 2 (R397, R399,
R413). -/
def NodeState.slot3Stretched (c : NodeState) : Bool :=
  affectsPrefetch (decode c.i .s1) || affectsPrefetch (decode c.i .s2)

/-- Whether an add in slot `sl` is settled (R395, R399). -/
def NodeState.addSettled (c : NodeState) (sl : Slot) : Bool :=
  c.settled || (decide (sl = .s3) && c.slot3Stretched)

/-- What an add delivers of its sum: all of it where it is settled; else bits 8:0, and bits 18:9 free (R408, U2). -/
def addResult (isSettled : Bool) (tick : Nat) (sum : BitVec 19) : BitVec 19 :=
  if isSettled then sum else setField sum 9 (Config.unsettledHigh tick)

/-- An opcode that helps a following add has completed (R396). -/
def NodeState.helps (c : NodeState) : NodeState := { c with settled := true }

/-- An opcode that does not help a following add has completed (R396). -/
def NodeState.unsettles (c : NodeState) : NodeState := { c with settled := false }

end Sys2Proof.Machine
end

