-- ==== Sys2Proof/Machine/Bitwise.lean ====
section
/-! DEFINITION. The meanings of the bit-wise opcodes (R200 to R202). -/

namespace Sys2Proof.Machine

/-- `not` (R200). -/
def execBitNot (sl : Slot) (s : State) : Host.Outcome State Fault Refusal :=
  s.onCore fun c => { c with t := c.t ^^^ 0x3FFFF#18 }.unsettles.advance sl

/-- `and` (R201). -/
def execBitAnd (sl : Slot) (s : State) : Host.Outcome State Fault Refusal :=
  s.onCore fun c => { c.dpop with t := c.s &&& c.t }.unsettles.advance sl

/-- `xor` (R202). -/
def execBitXor (sl : Slot) (s : State) : Host.Outcome State Fault Refusal :=
  s.onCore fun c => { c.dpop with t := c.s ^^^ c.t }.unsettles.advance sl

end Sys2Proof.Machine
end

