-- ==== Sys2Proof/Machine/Operands.lean ====
section
/-! DEFINITION. Where operands are: branch targets (R107), the pointers of the memory opcodes (R160), the decoding of an
address (R61, R62, R69), the selected ports (R272), the neighbours and the node tables (R345 to R347). -/

namespace Sys2Proof.Machine

/-! ### Branch targets -/

/-- `target(I, P, slot)` (R107): in slots 1 and 2, P with bit 8 cleared and the field in its low bits. -/
def branchTarget (p : PAddr) (f : AddrField) : PAddr :=
  match f with
  | .slot0 a => a
  | .slot1 a => setField (setField p 8 0#1) 0 a
  | .slot2 a => setField (setField p 8 0#1) 0 a

/-! ### The pointers -/

/-- The effective address of a bus access (R64, R160): the low 9 bits of its pointer. -/
def MemOp.addr (op : MemOp) (c : NodeState) : Addr :=
  match op with
  | .fetchA | .storeA | .fetchAInc | .storeAInc => c.a.extractLsb' 0 9
  | .fetchB | .storeB => c.b
  | .fetchPInc | .storePInc | .instr => c.p.extractLsb' 0 9

/-- Whether the access is a store. -/
def MemOp.isStore : MemOp → Bool
  | .storeA | .storeAInc | .storeB | .storePInc => true
  | .fetchA | .fetchAInc | .fetchB | .fetchPInc | .instr => false

/-! ### The nodes -/

/-- The row of a node. -/
def row (n : Node) : Nat := n.val / 10

/-- The column of a node. -/
def column (n : Node) : Nat := n.val % 10

/-- The node in direction d, where there is one (R346). -/
def neighbour (n : Node) (d : Dir) : Option Node :=
  match d with
  | .right => if column n % 2 = 0 then some (n + 1) else some (n - 1)
  | .left =>
    if column n = 0 ∨ column n = 9 then none
    else if column n % 2 = 0 then some (n - 1) else some (n + 1)
  | .down => if row n % 2 = 0 then some (n + 10) else some (n - 10)
  | .up =>
    if row n = 0 ∨ row n = 3 then none
    else if row n % 2 = 0 then some (n - 10) else some (n + 10)

/-- The four directions. -/
def allDirs : List Dir := [.right, .down, .left, .up]

/-- The device behind UP and DATA (R345, R347). -/
inductive Device where
  | none
  | bus
  | adc
  | serdes
deriving DecidableEq, Repr

/-- The device of a node (R347). -/
def deviceOf (n : Node) : Device :=
  if n = 3 ∨ n = 5 then .bus
  else if n = 36 ∨ n = 37 ∨ n = 39 then .adc
  else if n = 1 ∨ n = 31 then .serdes
  else .none

/-- The side nodes, which wake on a high level only (R314, R326). -/
def sideNode (n : Node) : Bool := n = 10 ∨ n = 19 ∨ n = 20 ∨ n = 29

/-- Whether an access towards direction d, where node n has no neighbour, waits for a pin or a device (R325). -/
def wakesFrom (n : Node) (d : Dir) : Bool :=
  match d with
  | .left => n = 10 ∨ n = 19 ∨ n = 20 ∨ n = 29 ∨ n = 39
  | .up => n = 1 ∨ n = 3 ∨ n = 4 ∨ n = 5 ∨ n = 31 ∨ n = 32 ∨ n = 33 ∨ n = 36 ∨ n = 37 ∨ n = 38 ∨ n = 39
  | .right | .down => false

/-- Whether a pin level is read at the IOCS bit of q on node n (R347). On nodes 03 and 05 bit 17 is the wake line
(R334), no pin. -/
def pinRead (n : Node) (q : Pin) : Bool :=
  match q with
  | .p17 => n = 1 ∨ n = 4 ∨ n = 10 ∨ n = 19 ∨ n = 20 ∨ n = 29 ∨ n = 31 ∨ n = 32 ∨ n = 33 ∨ n = 36 ∨ n = 37
      ∨ n = 38 ∨ n = 39
  | .p5 | .p3 => n = 4 ∨ n = 32
  | .p1 => n = 4 ∨ n = 10 ∨ n = 19 ∨ n = 20 ∨ n = 29 ∨ n = 32 ∨ n = 33

/-- Whether the pin has a pair of control bits CX, DX (R312, R347). Bit 17 of nodes 01, 31, 36, 37 and 39 is a device
pin and has none. -/
def pinDriven (n : Node) (q : Pin) : Bool :=
  match q with
  | .p17 => n = 4 ∨ n = 10 ∨ n = 19 ∨ n = 20 ∨ n = 29 ∨ n = 32 ∨ n = 33 ∨ n = 38
  | .p5 | .p3 | .p1 => pinRead n q

/-! ### Addresses -/

/-- `d ∈ Sel(a)` (R272): a port address has bit 8 set and low nibble 5; flipping a bit of $155 selects its port. -/
def selects (a : Addr) (d : Dir) : Bool :=
  a.getLsbD 8 && a.extractLsb' 0 4 == 5#4 &&
    match d with
    | .right => a.getLsbD 7
    | .down => !a.getLsbD 6
    | .left => a.getLsbD 5
    | .up => !a.getLsbD 4

/-- What an address of node n names. -/
inductive Place where
  | ram (k : BitVec 6)
  | rom (k : BitVec 6)
  | iocs
  | data
  | port
  | undefined
deriving DecidableEq, Repr

/-- Whether a selection of ports is defined on node n (R69, R274, D6): at least one port; and a single direction has a
neighbour, a wake pin or a device. -/
def portDefined (n : Node) (a : Addr) : Bool :=
  match allDirs.filter (selects a) with
  | [] => false
  | [d] => (neighbour n d).isSome || wakesFrom n d
  | _ => true

/-- The decoding of an address on node n (R61, R62, R69). -/
def place (n : Node) (a : Addr) : Place :=
  if !a.getLsbD 8 then (if a.getLsbD 7 then .rom (wordIndex a) else .ram (wordIndex a))
  else if a = 0x15D#9 then .iocs
  else if a = 0x141#9 then (if deviceOf n = .none then .undefined else .data)
  else if portDefined n a then .port
  else .undefined

/-! ### Port requests -/

/-- What one end of a link asks for (R273). -/
inductive Req where
  | idle
  | reading
  | writing (v : Word)
deriving DecidableEq, Repr

/-- `req[n][d]` (R273): set by the port access that node n sleeps in, on every selected port with a neighbour. -/
def State.req (s : State) (n : Node) (d : Dir) : Req :=
  match (s.node n).blocked with
  | none => .idle
  | some op =>
    if selects (op.addr (s.node n)) d && (neighbour n d).isSome then
      (if op.isStore then .writing (s.node n).t else .reading)
    else .idle

end Sys2Proof.Machine
end

