-- ==== Sys2Proof/Machine/Branch.lean ====
section
/-! DEFINITION. The meanings of the branch opcodes (R140 to R149). Each ends with the fetch of the next word, which is the core's
next step (R14, R73). -/

namespace Sys2Proof.Machine

/-- `;` (R142): control goes to R[9:0] and the return stack is popped. -/
def execRet (_sl : Slot) (s : State) : Host.Outcome State Fault Refusal :=
  s.onCore fun c => c.rpop.transfer (c.r.extractLsb' 0 10)

/-- `;:` (R144): P and R[9:0] are exchanged, R[17:10] and the ring stay. -/
def execCoroutine (_sl : Slot) (s : State) : Host.Outcome State Fault Refusal :=
  s.onCore fun c => { c with r := withLow10 c.r c.p }.transfer (c.r.extractLsb' 0 10)

/-- `jump` (R143). -/
def execJump (f : AddrField) (s : State) : Host.Outcome State Fault Refusal :=
  s.onCore fun c => c.transfer (branchTarget c.p f)

/-- `call` (R141): a copy of R goes below, and P into the low 10 bits of R. -/
def execCall (f : AddrField) (s : State) : Host.Outcome State Fault Refusal :=
  s.onCore fun c => (c.rpush (withLow10 c.r c.p)).transfer (branchTarget c.p f)

/-- `unext` (R149): back to slot 0 of the word in I while R is not 0; no fetch, P unchanged. -/
def execUnext (sl : Slot) (s : State) : Host.Outcome State Fault Refusal :=
  s.onCore fun c =>
    if c.r = 0#18 then c.rpop.helps.advance sl
    else { c with r := c.r - 1#18, slot := .s0 }.helps

/-- `next` (R147). -/
def execNext (f : AddrField) (s : State) : Host.Outcome State Fault Refusal :=
  s.onCore fun c =>
    if c.r = 0#18 then c.rpop.fallThrough
    else { c with r := c.r - 1#18 }.transfer (branchTarget c.p f)

/-- `if` (R145): taken when all of T is 0; T stays. -/
def execIfZero (f : AddrField) (s : State) : Host.Outcome State Fault Refusal :=
  s.onCore fun c => if c.t = 0#18 then c.transfer (branchTarget c.p f) else c.fallThrough

/-- `-if` (R146): taken when T17 is 0; T stays. -/
def execMinusIf (f : AddrField) (s : State) : Host.Outcome State Fault Refusal :=
  s.onCore fun c => if c.t.getLsbD 17 then c.fallThrough else c.transfer (branchTarget c.p f)

end Sys2Proof.Machine
end

