-- ==== Sys2Proof/Machine/Math.lean ====
section
/-! DEFINITION. The meanings of the mathematical opcodes (R210 to R213); unsettled adds are R408. -/

namespace Sys2Proof.Machine

/-- `2/` (R210): arithmetic shift right by one. -/
def execTwoSlash (sl : Slot) (s : State) : Host.Outcome State Fault Refusal :=
  s.onCore fun c => { c with t := c.t.sshiftRight 1 }.unsettles.advance sl

/-- `2*` (R211): shift left by one. -/
def execTwoStar (sl : Slot) (s : State) : Host.Outcome State Fault Refusal :=
  s.onCore fun c => { c with t := c.t <<< 1 }.unsettles.advance sl

/-- `+` (R212): in Extended mode with the carry, which takes the carry out of T17; unsettled, R408. -/
def execPlus (sl : Slot) (s : State) : Host.Outcome State Fault Refusal :=
  s.onCore fun c =>
    let sum := addResult (c.addSettled sl) s.tick c.plusSum
    { c.dpop with
      t := sum.extractLsb' 0 18
      carry := if c.extended then sum.getLsbD 18 else c.carry }.unsettles.advance sl

/-- `+*` (R213): the 37-bit value sum : A shifted right by one place; unsettled, R408. -/
def execPlusStar (sl : Slot) (s : State) : Host.Outcome State Fault Refusal :=
  s.onCore fun c =>
    let sum := addResult (c.addSettled sl) s.tick c.plusStarSum
    { c with
      t := sum.extractLsb' 1 18
      a := setField (c.a >>> 1) 17 (sum.extractLsb' 0 1) }.unsettles.advance sl

end Sys2Proof.Machine
end

