-- ==== Sys2Proof/Machine/Pins.lean ====
section
/-! DEFINITION. IOCS, the pins, pin wake-up and what the nodes put out on their pins (R310 to R334, R338 to R341, R350,
R402). -/

namespace Sys2Proof.Machine

/-! ### Pins -/

/-- The states of a pin driver (R312, Table 6.2). -/
inductive PinDrive where
  | input
  | weakPullDown
  | output (level : Bool)
deriving DecidableEq, Repr

/-- The IOCS bit at which a pin is read, and at which its control bit CX is written; DX is one below (R312). -/
def pinBitNumber : Pin → Nat
  | .p17 => 17
  | .p5 => 5
  | .p3 => 3
  | .p1 => 1

/-- What an IOCS word makes of the driver of a pin (R312). -/
def driverOf (iocsw : Word) (q : Pin) : PinDrive :=
  match iocsw.getLsbD (pinBitNumber q), iocsw.getLsbD (pinBitNumber q - 1) with
  | false, false => .input
  | false, true => .weakPullDown
  | true, d => .output d

/-- The level the outside forces on a pin. -/
def Ext.at (e : Ext) : Pin → Option Bool
  | .p17 => e.p17
  | .p5 => e.p5
  | .p3 => e.p3
  | .p1 => e.p1

/-- The level at a pin (R313): what the outside forces; else what the node drives; a pulled-down pin is low; none
where the pin floats. The pin at bit 17 of nodes 01 and 31 is a serdes pin (R347), but the spec does not say how its
level follows the link: it is an input of the environment of its own, which no clock, no word and no sending moves
(DESIGN CHOICE, log entry 25). -/
def State.pinLevel (s : State) (n : Node) (q : Pin) : Option Bool :=
  match (s.node n).ext.at q with
  | some level => some level
  | none =>
    if pinDriven n q then
      match driverOf (s.node n).iocsw q with
      | .input => none
      | .weakPullDown => some false
      | .output level => some level
    else none

/-! ### The wake condition -/

/-- The line that node 04 drives to node 03 (IOCS bit 9) and to node 05 (bit 7) (R319, R334). -/
def State.wakeLine (s : State) (n : Node) : Bool :=
  if n = 3 then (s.node 4).iocsw.getLsbD 9 else (s.node 4).iocsw.getLsbD 7

/-- The level of a node's wake input, none where it floats (R326). -/
def State.wakeLevel (s : State) (n : Node) : Option Bool :=
  if deviceOf n = .bus then some (s.wakeLine n) else s.pinLevel n .p17

/-- The wake condition at level `w` (R326, C1). -/
def wakeCondition (n : Node) (iocsw : Word) (w : Bool) : Bool :=
  if sideNode n then w
  else match Config.pinWakeRule with
    | .level => w != iocsw.getLsbD 11
    | .sameAsRead => iocsw.getLsbD 11 == (if deviceOf n = .bus then !w else w)

/-- Whether node n has the detector of R402: every pin node but the analog ones. -/
def hasDetector (n : Node) : Bool := deviceOf n ≠ .adc

/-- The serdes is on, sending (R318): IOCS bit 17. -/
def NodeState.serdesSending (c : NodeState) : Bool := c.iocsw.getLsbD 17

/-- The serdes of node n is on: its pads are outputs (R341), so its pin 17 is no wake input. -/
def State.padsDriven (s : State) (n : Node) : Bool := decide (deviceOf n = .serdes) && (s.node n).serdesSending

/-- Whether the wake pin or the device completes an access to address `a` (R326, R402), none where only a wake input
that floats decides it. On the serdes nodes a ready link does (R342, R343); the wake pin, which R325 gives them too,
does only while they receive. R341 leaves what completes UP there open: DESIGN CHOICE, log entry 25. -/
def State.wakeState (s : State) (n : Node) (a : Addr) : Option Bool :=
  if deviceOf n = .serdes ∧ (s.node n).linkReady then some true
  else if s.padsDriven n then some false
  else (s.wakeLevel n).map fun w =>
    wakeCondition n (s.node n).iocsw w && (!hasDetector n || (s.node n).disarmedBy != some a)

/-- The same, with a free value for an input that floats (R417, log entry 28). -/
def State.pinWakes (s : State) (n : Node) (a : Addr) : Bool := (s.wakeState n a).getD (Config.floatingWake s.tick)

/-- Whether the wake input of node n has left its wake level (R402). The spec does not say whether an input that floats
has, and R417 lets its level be read as any value: a free value, log entry 28. -/
def State.leftWakeLevel (s : State) (n : Node) : Bool :=
  match s.wakeLevel n with
  | some w => !wakeCondition n (s.node n).iocsw w
  | none => Config.floatingRearms s.tick

/-- The detector is armed again when the wake line has left its wake level (R402). -/
def State.rearm (s : State) (n : Node) : State :=
  if s.leftWakeLevel n then s.setNode n { s.node n with disarmedBy := none } else s

/-- Any use of the address bus at another address arms the detector (R402). -/
def NodeState.touchBus (c : NodeState) (a : Addr) : NodeState :=
  if c.disarmedBy = some a then c else { c with disarmedBy := none }

/-! ### Reading IOCS -/

/-- The bit that says whether the neighbour in direction d is blocked reading, active low; without a neighbour the
inverse of the written bit (R311, R350). -/
def State.readPending (s : State) (n : Node) (d : Dir) (bit : Nat) : Bool :=
  match neighbour n d with
  | some m => s.req m d != .reading
  | none => !(s.node n).iocsw.getLsbD bit

/-- The bit that says whether the neighbour in direction d is blocked writing, active high; without a neighbour the
inverse of the written bit (R311, R350). -/
def State.writePending (s : State) (n : Node) (d : Dir) (bit : Nat) : Bool :=
  match neighbour n d with
  | some m => match s.req m d with
    | .writing _ => true
    | _ => false
  | none => !(s.node n).iocsw.getLsbD bit

/-- The level read at a pin's IOCS bit; none on a node without that pin and where the pin floats. -/
def State.pinBit (s : State) (n : Node) (q : Pin) : Option Bool := if pinRead n q then s.pinLevel n q else none

/-- The bits of an IOCS read that the spec defines (R311, R334, R350); none for the reserved ones (U8). -/
def State.iocsBit (s : State) (n : Node) (bit : Nat) : Option Bool :=
  match bit with
  | 17 => if deviceOf n = .bus then some (!s.wakeLine n) else s.pinBit n .p17
  | 16 => some (s.readPending n .right 16)
  | 15 => some (s.writePending n .right 15)
  | 14 => some (s.readPending n .down 14)
  | 13 => some (s.writePending n .down 13)
  | 12 => some (s.readPending n .left 12)
  | 11 => some (s.writePending n .left 11)
  | 10 => some (s.readPending n .up 10)
  | 9 => some (s.writePending n .up 9)
  | 5 => s.pinBit n .p5
  | 3 => s.pinBit n .p3
  | 1 => s.pinBit n .p1
  | _ => none

/-- The word an IOCS read returns (R311): the defined bits, and free bits elsewhere. -/
def State.readIocs (s : State) (n : Node) : Word :=
  BitVec.ofBoolListLE
    ((List.range 18).map fun bit => (s.iocsBit n bit).getD ((Config.iocsFree s.tick).getLsbD bit))

/-! ### The bus of nodes 03 and 05 -/

/-- The bus is in output mode: bd, IOCS bit 12, is 1 (R315, R333). -/
def NodeState.busOutput (c : NodeState) : Bool := c.iocsw.getLsbD 12

/-- The word captured from the bus pins (R333). -/
def State.capturedBus (s : State) (n : Node) : Word :=
  match (s.node n).ext.bus with
  | some levels => levels ^^^ Config.busPinXor
  | none => Config.floatingBus s.tick n

/-- The bus latch as an access sees it: the latch in output mode, the pins in input mode (R332, R333). -/
def State.busNow (s : State) (n : Node) : Word :=
  if (s.node n).busOutput then (s.node n).dev else s.capturedBus n

/-- The bus latch after a write of `v`: `v` in output mode; in input mode the pads override it and the latch holds a
free value until the next capture (R331, R333, U11). -/
def State.busWritten (s : State) (n : Node) (v : Word) : Word :=
  if (s.node n).busOutput then v else Config.busAfterInputWrite s.tick

/-! ### Writing IOCS -/

/-- The latch and the device after a write of IOCS: all 18 bits are stored (R310, R320); a bus turned to input is set
from its pins (R333). A serdes turned on or off has neither sent the word in its register nor received one (R342,
R343), so its link is not ready; that this is what the switch does is a DESIGN CHOICE, log entry 25. -/
def State.latchIocs (s : State) (n : Node) (v : Word) : State :=
  let turnsToInput := decide (deviceOf n = .bus) && (s.node n).busOutput && !v.getLsbD 12
  let turnsSerdes := decide (deviceOf n = .serdes) && (v.getLsbD 17 != (s.node n).serdesSending)
  s.setNode n { s.node n with
    iocsw := v
    dev := if turnsToInput then s.capturedBus n else (s.node n).dev
    linkReady := !turnsSerdes && (s.node n).linkReady }

/-! ### What the chip puts out -/

/-- The state of a pin driver of node n, none where node n has no such pin (R312). -/
def State.pinOutput (s : State) (n : Node) (q : Pin) : Option PinDrive :=
  if pinDriven n q then some (driverOf (s.node n).iocsw q) else none

/-- The levels driven on the bus pins of node 03 or 05, none in input mode (R333). -/
def State.busOutputLevels (s : State) (n : Node) : Option Word :=
  if deviceOf n = .bus ∧ (s.node n).busOutput then some ((s.node n).dev ^^^ Config.busPinXor) else none

/-- What feeds the VCO of an analog node (R316, Table 5.2). -/
inductive VcoInput where
  | pin
  | vdd
  | off
  | vss
deriving DecidableEq, Repr

/-- The VCO selection in an IOCS word (R316). -/
def vcoInput (iocsw : Word) : VcoInput :=
  match iocsw.getLsbD 14, iocsw.getLsbD 13 with
  | false, false => .pin
  | false, true => .vdd
  | true, false => .off
  | true, true => .vss

/-- The DAC input of an analog node (R317, R340). -/
def dacInput (iocsw : Word) : BitVec 9 := iocsw.extractLsb' 0 9 ^^^ 0x155#9

/-- The level on the serdes data pad, none while it receives (R341). -/
def State.serdesPad (s : State) (n : Node) : Option Bool :=
  if deviceOf n = .serdes ∧ (s.node n).serdesSending then some ((s.node n).dev.getLsbD 17) else none

end Sys2Proof.Machine
end

