-- ==== Sys2Proof/Machine/Ports.lean ====
section
/-! DEFINITION. One access over the address bus, from its address to its completion: RAM, ROM, IOCS, DATA, and the
ports with their blocking rendezvous and the wake-up by pins and devices (R66, R67, R160, R276 to R289, R325 to R334).
The eight memory opcodes and the
instruction fetch all go through `State.access`. -/

namespace Sys2Proof.Machine

/-! ### Completion -/

/-- A memory opcode in slot `sl` has completed: it does not help a following add, but for `@p+` and `!p+` in slot 3
(R396, R398); what it does for an add in slot 3 of its own word is `NodeState.slot3Stretched` (R397, R399). -/
def NodeState.afterMemory (c : NodeState) (sl : Slot) (throughP : Bool) : NodeState :=
  { c with settled := throughP && decide (sl = Slot.s3) }.advance sl

/-- All register effects of a bus access in slot `sl`, which happen together when it completes (R160, R161 to R168,
R73); `v` is the word read, and means nothing for a store. -/
def MemOp.finish (op : MemOp) (sl : Slot) (v : Word) (c : NodeState) : NodeState :=
  let awake := { c with blocked := none }
  match op with
  | .fetchA => (awake.dpush v).afterMemory sl false
  | .storeA => awake.dpop.afterMemory sl false
  | .fetchAInc => { awake.dpush v with a := incr c.a }.afterMemory sl false
  | .storeAInc => { awake.dpop with a := incr c.a }.afterMemory sl false
  | .fetchB => (awake.dpush v).afterMemory sl false
  | .storeB => awake.dpop.afterMemory sl false
  | .fetchPInc => { awake.dpush v with p := incr c.p }.afterMemory sl true
  | .storePInc => { awake.dpop with p := incr c.p }.afterMemory sl true
  | .instr => { awake with i := v, p := incr c.p, slot := .s0, fetching := false }

/-- The running core's access completes with the word `v`. -/
def State.complete (s : State) (op : MemOp) (sl : Slot) (v : Word) : State :=
  s.setCore (op.finish sl v s.core)

/-! ### Wake-up -/

/-- Whether the access to `a` waits for a pin or a device of node n as well (R289, R325). -/
def waitsForPin (n : Node) (a : Addr) : Bool := allDirs.any fun d => selects a d && wakesFrom n d

/-- Whether a selected wake pin or device completes an access of node n to `a` now (R289). -/
def State.pinReady (s : State) (n : Node) (a : Addr) : Bool := waitsForPin n a && s.pinWakes n a

/-- The word an access of node n that its pin or device completes delivers (R327): the bus (R332), the serdes register
(R343), else a free value (U9). -/
def State.pinWord (s : State) (n : Node) : Word :=
  match deviceOf n with
  | .bus => s.busNow n
  | .serdes => (s.node n).dev
  | _ => Config.pinReadData s.tick

/-- The device register after such an access (R328, R332, R342): a read captures the bus, a store has its word in the
bus latch since it began, a store to the serdes arrives now; elsewhere the word goes nowhere. A read of UP leaves the
word it delivers in the serdes register, and T has no part in it: R343 does not explain why the marker $3FFFE stays in T,
so that the read does not load the register again from there is a DESIGN CHOICE, log entry 25. -/
def State.pinDevice (s : State) (n : Node) (op : MemOp) : Word :=
  match deviceOf n with
  | .bus => if op.isStore then (s.node n).dev else s.busNow n
  | .serdes => if op.isStore then (s.node n).t else (s.node n).dev
  | _ => (s.node n).dev

/-- The access `op` of node n, in slot `sl` and to `a`, is completed by the wake pin or the device (R325 to R328,
R402). -/
def State.pinCompletes (s : State) (n : Node) (op : MemOp) (sl : Slot) (a : Addr) : State :=
  s.setNode n (op.finish sl (s.pinWord n) { s.node n with
    dev := s.pinDevice n op
    linkReady := false
    disarmedBy := if hasDetector n then some a else (s.node n).disarmedBy })

/-- Where node n sleeps in an access that its wake pin or its device completes, that access completes now, in the event
that made it so (R276, R289, R325): no neighbour that comes later finds the sleeper, and a level that comes and goes
between two steps of it, by a pin or by node 04's line, wakes it (DESIGN CHOICE, log entry 27: R326 gives no least
time). -/
def State.wake (s : State) (n : Node) : State :=
  match (s.node n).blocked with
  | some op =>
    let a := op.addr (s.node n)
    if s.pinReady n a then s.pinCompletes n op (s.node n).slot a else s
  | none => s

/-- The wake input of node n may have moved: its detector follows it (R402), and a sleeper may wake (R326). -/
def State.wakeInputMoved (s : State) (n : Node) : State := (s.rearm n).wake n

/-- A write of IOCS by node n: besides its own pins it can move its wake condition, and node 04 the wake lines of
nodes 03 and 05, which may sleep (R312 to R319, R334, R402). -/
def State.writeIocs (s : State) (n : Node) (v : Word) : State :=
  let s1 := (s.latchIocs n v).rearm n
  if n = 4 then (s1.wakeInputMoved 3).wakeInputMoved 5 else s1

/-! ### Ports -/

/-- Whether node m asks, towards direction d, for the other half of an access that stores or reads (R277 to R279):
it is reading what is stored, or writing what is read. Two readers, or two writers, do not match (R281). -/
def State.answers (s : State) (m : Node) (d : Dir) (store : Bool) : Bool :=
  match s.req m d with
  | .idle => false
  | .reading => store
  | .writing _ => !store

/-- The neighbours of the running node, over the ports that `a` selects, whose pending access matches (R277, R278). -/
def State.partners (s : State) (a : Addr) (store : Bool) : List Node :=
  allDirs.filterMap fun d =>
    if selects a d then
      match neighbour s.cur d with
      | some m => if s.answers m d store then some m else none
      | none => none
    else none

/-- The store to the UP address of a bus node puts its word into the latch as it begins, before it sleeps (R332). -/
def State.beginStore (s : State) (op : MemOp) (a : Addr) : State :=
  if op.isStore && decide (deviceOf s.cur = .bus) && selects a .up then
    s.setCore { s.core with dev := s.busWritten s.cur s.core.t }
  else s

/-- The rendezvous of the running core with node m (R279): one event in which the reader receives the writer's word,
both opcodes complete and all requests of both are withdrawn (R288). Where an access selects a pin direction too
(R289), the pin-wake detector stays as it was, at both nodes: R402 speaks only of a pin-wake access that completes
(DESIGN CHOICE, log entry 28). On nodes 01 and 31 the serdes register and the readiness of the link stay as they were
as well: a store's word reaches the neighbour alone (DESIGN CHOICE, log entry 25, as R341 leaves UP open). -/
def State.rendezvous (s : State) (op : MemOp) (sl : Slot) (m : Node) : State :=
  let partner := s.node m
  let word := if op.isStore then s.core.t else partner.t
  let partnerOp := partner.blocked.getD .instr
  (s.setNode m (partnerOp.finish partner.slot word partner)).complete op sl word

/-- The core sleeps in its access (R276): nothing of it changes but its requests. -/
def State.sleep (s : State) (op : MemOp) : State := s.setCore { s.core with blocked := some op }

/-- A port access that has just begun, and not one that already sleeps, puts a store to a bus into its latch (R332). -/
def State.begun (s : State) (op : MemOp) (a : Addr) : State :=
  if s.core.blocked = some op then s else s.beginStore op a

/-- How a port access goes on (R277, R278, R285 to R289, R325): it completes with the one neighbour whose access
matches, or by the pin; with none it sleeps; two matching neighbours have no outcome (U6). R289 says the first of the
two: a pin or a device that becomes ready while the core sleeps has completed the access in that very event
(`State.wake`), so both are there only where they were before the access, or where the wake input floats: then a free
value chooses (log entry 27). -/
def State.meet (s : State) (op : MemOp) (sl : Slot) (a : Addr) : Host.Outcome State Fault Refusal :=
  match s.partners a op.isStore with
  | [] => if s.pinReady s.cur a then .next (s.pinCompletes s.cur op sl a) else .next (s.sleep op)
  | [m] =>
    if s.pinReady s.cur a && !Config.neighbourFirst s.tick then .next (s.pinCompletes s.cur op sl a)
    else .next (s.rendezvous op sl m)
  | _ => .refused .portCollision

/-- An access to a defined port address `a` (R277, R278). -/
def State.portAccess (s : State) (op : MemOp) (sl : Slot) (a : Addr) : Host.Outcome State Fault Refusal :=
  (s.begun op a).meet op sl a

/-! ### DATA -/

/-- What a read of DATA returns (R331, R338, R341): the device register; never blocks, and leaves the readiness of a
serdes link as it is (DESIGN CHOICE, log entry 25). A bus in input mode follows its
pins (R333), so where nothing outside drives them the word is free (R417). -/
def State.readData (s : State) : Word :=
  if deviceOf s.cur = .bus ∧ !s.core.busOutput ∧ s.core.ext.bus = none then Config.floatingBus s.tick s.cur
  else s.core.dev

/-- A store to DATA (R331, R339, R341): never blocks; the ADC counter is not changed by it. The word put into a serdes
register is the one that UP waits for, to be sent, or the marker that a word will push out (R342, R343), so the link is
no longer ready: DESIGN CHOICE, log entry 25, because R341 leaves what completes UP open. -/
def State.writeData (s : State) (v : Word) : State :=
  match deviceOf s.cur with
  | .bus => s.setCore { s.core with dev := s.busWritten s.cur v }
  | .serdes => s.setCore { s.core with dev := v, linkReady := false }
  | _ => s

/-! ### Any access -/

/-- The access `op` of the running core in slot `sl`: `MemRead(a, 1)` or `MemWrite(a, 1, T)` at the address of its
pointer, and the opcode's register effects (R66, R67, R160). -/
def State.access (s : State) (op : MemOp) (sl : Slot) : Host.Outcome State Fault Refusal :=
  let a := op.addr s.core
  let st := s.setCore (s.core.touchBus a)
  match place st.cur a with
  | .ram k =>
    if op.isStore then .next ((st.writeRam k st.core.t).complete op sl 0#18)
    else .next (st.complete op sl (st.readRam st.cur k))
  | .rom k =>
    if op.isStore then .refused .storeToRom
    else .next (st.complete op sl (Config.rom st.cur k))
  | .iocs =>
    if op.isStore then .next ((st.writeIocs st.cur st.core.t).complete op sl 0#18)
    else .next (st.complete op sl (st.readIocs st.cur))
  | .data =>
    if op.isStore then .next ((st.writeData st.core.t).complete op sl 0#18)
    else .next (st.complete op sl st.readData)
  | .port => st.portAccess op sl a
  | .undefined => .refused .undefinedIo

/-- The instruction fetch, a step of its own (R14, R73): `I <- MemRead(P[8:0], 1); P <- incr(P); slot <- 0`. It
blocks where P addresses a port with no writer (R291). -/
def State.fetchStep (s : State) : Host.Outcome State Fault Refusal := s.access .instr .s0

end Sys2Proof.Machine
end

