-- ==== Sys2Proof/Machine/Memory.lean ====
section
/-! DEFINITION. The meanings of the eight memory opcodes (R160 to R168). -/

namespace Sys2Proof.Machine

/-- `@p+` (R168). -/
def execFetchPInc (sl : Slot) (s : State) : Host.Outcome State Fault Refusal := s.access .fetchPInc sl

/-- `@a+` (R163). -/
def execFetchAInc (sl : Slot) (s : State) : Host.Outcome State Fault Refusal := s.access .fetchAInc sl

/-- `@b` (R165). -/
def execFetchB (sl : Slot) (s : State) : Host.Outcome State Fault Refusal := s.access .fetchB sl

/-- `@a` (R161). -/
def execFetchA (sl : Slot) (s : State) : Host.Outcome State Fault Refusal := s.access .fetchA sl

/-- `!p+` (R167). -/
def execStorePInc (sl : Slot) (s : State) : Host.Outcome State Fault Refusal := s.access .storePInc sl

/-- `!a+` (R164). -/
def execStoreAInc (sl : Slot) (s : State) : Host.Outcome State Fault Refusal := s.access .storeAInc sl

/-- `!b` (R166). -/
def execStoreB (sl : Slot) (s : State) : Host.Outcome State Fault Refusal := s.access .storeB sl

/-- `!a` (R162). -/
def execStoreA (sl : Slot) (s : State) : Host.Outcome State Fault Refusal := s.access .storeA sl

end Sys2Proof.Machine
end

