-- ==== Sys2Proof/Machine/Register.lean ====
section
/-! DEFINITION. The meanings of the register opcodes (R190 to R192). -/

namespace Sys2Proof.Machine

/-- `a!` (R190). -/
def execAStore (sl : Slot) (s : State) : Host.Outcome State Fault Refusal :=
  s.onCore fun c => { c.dpop with a := c.t }.unsettles.advance sl

/-- `a@` (R191). -/
def execAFetch (sl : Slot) (s : State) : Host.Outcome State Fault Refusal :=
  s.onCore fun c => (c.dpush c.a).unsettles.advance sl

/-- `b!` (R192): the low 9 bits of the popped word. -/
def execBStore (sl : Slot) (s : State) : Host.Outcome State Fault Refusal :=
  s.onCore fun c => { c.dpop with b := c.t.extractLsb' 0 9 }.unsettles.advance sl

end Sys2Proof.Machine
end

