-- ==== Sys2Proof/Machine/Stack.lean ====
section
/-! DEFINITION. The meanings of the stack opcodes (R180 to R185). -/

namespace Sys2Proof.Machine

/-- `.`, the no-op (R180); it helps a following add. -/
def execNop (sl : Slot) (s : State) : Host.Outcome State Fault Refusal :=
  s.onCore fun c => c.helps.advance sl

/-- `push` (R181): `rpush(dpop())`. -/
def execPush (sl : Slot) (s : State) : Host.Outcome State Fault Refusal :=
  s.onCore fun c => (c.dpop.rpush c.t).unsettles.advance sl

/-- `pop` (R182): `dpush(rpop())`. -/
def execPop (sl : Slot) (s : State) : Host.Outcome State Fault Refusal :=
  s.onCore fun c => (c.rpop.dpush c.r).unsettles.advance sl

/-- `dup` (R183). -/
def execDup (sl : Slot) (s : State) : Host.Outcome State Fault Refusal :=
  s.onCore fun c => (c.dpush c.t).unsettles.advance sl

/-- `drop` (R184). -/
def execDrop (sl : Slot) (s : State) : Host.Outcome State Fault Refusal :=
  s.onCore fun c => c.dpop.unsettles.advance sl

/-- `over` (R185). -/
def execOver (sl : Slot) (s : State) : Host.Outcome State Fault Refusal :=
  s.onCore fun c => (c.dpush c.s).unsettles.advance sl

end Sys2Proof.Machine
end

