-- ==== Sys2Proof/Machine/Dispatch.lean ====
section
/-! DEFINITION. The dispatch: one arm per opcode, in the order of the opcode table. -/

namespace Sys2Proof.Machine

def exec (i : Instr) (s : State) : Host.Outcome State Fault Refusal :=
  match i with
  | .ret sl => Sys2Proof.Machine.execRet sl s
  | .coroutine sl => Sys2Proof.Machine.execCoroutine sl s
  | .jump f => Sys2Proof.Machine.execJump f s
  | .call f => Sys2Proof.Machine.execCall f s
  | .unext sl => Sys2Proof.Machine.execUnext sl s
  | .next f => Sys2Proof.Machine.execNext f s
  | .ifZero f => Sys2Proof.Machine.execIfZero f s
  | .minusIf f => Sys2Proof.Machine.execMinusIf f s
  | .fetchPInc sl => Sys2Proof.Machine.execFetchPInc sl s
  | .fetchAInc sl => Sys2Proof.Machine.execFetchAInc sl s
  | .fetchB sl => Sys2Proof.Machine.execFetchB sl s
  | .fetchA sl => Sys2Proof.Machine.execFetchA sl s
  | .storePInc sl => Sys2Proof.Machine.execStorePInc sl s
  | .storeAInc sl => Sys2Proof.Machine.execStoreAInc sl s
  | .storeB sl => Sys2Proof.Machine.execStoreB sl s
  | .storeA sl => Sys2Proof.Machine.execStoreA sl s
  | .plusStar sl => Sys2Proof.Machine.execPlusStar sl s
  | .twoStar sl => Sys2Proof.Machine.execTwoStar sl s
  | .twoSlash sl => Sys2Proof.Machine.execTwoSlash sl s
  | .bitNot sl => Sys2Proof.Machine.execBitNot sl s
  | .plus sl => Sys2Proof.Machine.execPlus sl s
  | .bitAnd sl => Sys2Proof.Machine.execBitAnd sl s
  | .bitXor sl => Sys2Proof.Machine.execBitXor sl s
  | .drop sl => Sys2Proof.Machine.execDrop sl s
  | .dup sl => Sys2Proof.Machine.execDup sl s
  | .pop sl => Sys2Proof.Machine.execPop sl s
  | .over sl => Sys2Proof.Machine.execOver sl s
  | .aFetch sl => Sys2Proof.Machine.execAFetch sl s
  | .nop sl => Sys2Proof.Machine.execNop sl s
  | .push sl => Sys2Proof.Machine.execPush sl s
  | .bStore sl => Sys2Proof.Machine.execBStore sl s
  | .aStore sl => Sys2Proof.Machine.execAStore sl s

end Sys2Proof.Machine
end

