-- ==== Sys2Proof/Machine/Events.lean ====
section
/-! DEFINITION. What the environment does to the chip between two steps of cores: the reset line, the pins, the VCOs
and the serdes links (R313, R326, R333, R338, R341 to R343, R380, R386). An event aimed at a node without that pin or
device changes nothing. -/

namespace Sys2Proof.Machine

/-- The environment of a node with the level forced on one pin changed. -/
def Ext.withPin (e : Ext) (q : Pin) (level : Option Bool) : Ext :=
  match q with
  | .p17 => { e with p17 := level }
  | .p5 => { e with p5 := level }
  | .p3 => { e with p3 := level }
  | .p1 => { e with p1 := level }

/-- Reset (R380, R386): every node is as R44 says, in the environment it has. The registers without a reset value are
free now, and so is RAM (U7, D33). -/
def State.applyReset (s : State) : State :=
  { s with
    nodes := Vector.ofFn fun n => NodeState.atReset n (Config.regAfterReset s.tick n) (s.node n).ext
    epoch := s.tick }

/-- The outside changes what it forces on a pin; a wake line that leaves its wake level arms the detector (R402), and
one that reaches it wakes a sleeper, however short it stays there (R325, R326; DESIGN CHOICE, log entry 27). -/
def State.applyPin (s : State) (n : Node) (q : Pin) (level : Option Bool) : State :=
  if pinRead n q then
    (s.setNode n { s.node n with ext := (s.node n).ext.withPin q level }).wakeInputMoved n
  else s

/-- The outside changes the levels of the bus pins; in input mode the latch follows them (R333). -/
def State.applyBusPins (s : State) (n : Node) (levels : Option Word) : State :=
  if deviceOf n = .bus then
    let s1 := s.setNode n { s.node n with ext := { (s.node n).ext with bus := levels } }
    s1.setNode n { s1.node n with dev := s1.busNow n }
  else s

/-- The VCO counts, unless it is off; the counter wraps at 2^18 (R316, R338). -/
def State.applyVco (s : State) (n : Node) (counts : Nat) : State :=
  if deviceOf n = .adc ∧ vcoInput (s.node n).iocsw ≠ .off then
    s.setNode n { s.node n with dev := (s.node n).dev + BitVec.ofNat 18 counts }
  else s

/-- A clock shifts the serdes register left; receiving, the data pad enters bit 0 (R341). The level read at IOCS bit 17
is no part of it (`State.pinLevel`, log entry 25). -/
def State.applySerdesClock (s : State) (n : Node) (bit : Bool) : State :=
  if deviceOf n = .serdes then
    let fill := if (s.node n).serdesSending then Config.serdesSendFill s.tick else bit
    s.setNode n { s.node n with dev := setField ((s.node n).dev <<< 1) 0 (BitVec.ofBool fill) }
  else s

/-- A whole word has arrived, while the node receives (R341, R343); it wakes a sleeper at UP (R252). It overwrites a
word that nothing has taken yet: the spec does not say what becomes of that one (DESIGN CHOICE, log entry 25). -/
def State.applySerdesWord (s : State) (n : Node) (w : Word) : State :=
  if deviceOf n = .serdes ∧ !(s.node n).serdesSending then
    (s.setNode n { s.node n with dev := w, linkReady := true }).wake n
  else s

/-- The previous word has been sent, while the node sends (R342), which wakes a sleeper at UP: the environment says
when, as the spec gives no bit protocol (R341, DESIGN CHOICE, log entry 25). But for the word of a store that it wakes,
the register is left as it is, and only a clock shifts it, so that DATA reads the sent word until then: what it holds
once a word has been sent the spec does not say (R341, DESIGN CHOICE, log entry 25). -/
def State.applySerdesSent (s : State) (n : Node) : State :=
  if deviceOf n = .serdes ∧ (s.node n).serdesSending then
    (s.setNode n { s.node n with linkReady := true }).wake n
  else s

/-- One event. -/
def State.applyEvent (s : State) (e : Event) : State :=
  match e with
  | .reset => s.applyReset
  | .pin n q level => s.applyPin n q level
  | .busPins n levels => s.applyBusPins n levels
  | .vco n counts => s.applyVco n counts
  | .serdesClock n bit => s.applySerdesClock n bit
  | .serdesWord n w => s.applySerdesWord n w
  | .serdesSent n => s.applySerdesSent n

end Sys2Proof.Machine
end

