-- ==== Sys2Proof/Machine/Step.lean ====
section
/-! DEFINITION. The step: who moves next, and what it does. One step is one opcode of one core, one instruction fetch of
one core, or one event of the environment (R14, R250, D20). -/

namespace Sys2Proof.Machine

/-- Who moves next: the head of the agenda, and where the agenda is empty any node (R250): a free value. -/
def State.turn (s : State) : Turn :=
  match s.agenda with
  | t :: _ => t
  | [] => .node (Config.freeNode s.tick)

/-- The state with its turn taken: the agenda moves on and the free values are new. -/
def State.taken (s : State) : State := { s with agenda := s.agenda.tail, tick := s.tick + 1 }

/-- The state in which node n makes its step. -/
def State.onTurn (s : State) (n : Node) : State := { s.taken with cur := n }

/-- One step of the running core: its fetch, or the opcode that its slot pointer names in I (R14, R108). -/
def State.coreStep (s : State) : Host.Outcome State Fault Refusal :=
  if s.core.fetching then s.fetchStep else exec (decode s.core.i s.core.slot) s

/-- One step of the chip. -/
def step (s : State) : Host.Outcome State Fault Refusal :=
  match s.turn with
  | .node n => (s.onTurn n).coreStep
  | .event e => .next (s.taken.applyEvent e)

/-- `s` with a word of the opcode table loaded for the running core: it stands in RAM word 0, and the core is as its
fetch from there leaves it (I, P, and the slot the row is about), awake, and the next to move. The hardware's fetch is
a step of its own and the ROM at the reset address is unknown, so this stands for the harness of R384 and D8 that
preloads RAM and sets P (log entry 3). -/
def State.withFetchWord (s : State) (nbits w : Nat) : State :=
  let word := BitVec.ofNat 18 w
  { s.setCore { s.core with
      ram := s.core.ram.write 0 word
      i := word
      p := 0x001#10
      slot := tableSlot nbits w
      fetching := false
      blocked := none } with
    agenda := .node s.cur :: s.agenda }

end Sys2Proof.Machine
end

