-- ==== Sys2Proof/Safety.lean ====
section
/-! DEFINITION. What a good state is, in the words the statements use: the invariants that every step keeps, and what it
is for a core to sleep. -/

namespace Sys2Proof.Machine

/-! ### Memory -/

/-- Every RAM is in its canonical form. -/
def State.MemoryCanonical (s : State) : Prop := ∀ n, (s.node n).ram.wf = true

/-! ### Ports -/

/-- The bus access an opcode makes (R160). -/
def memOpOf : Instr → Option MemOp
  | .fetchA _ => some .fetchA
  | .storeA _ => some .storeA
  | .fetchAInc _ => some .fetchAInc
  | .storeAInc _ => some .storeAInc
  | .fetchB _ => some .fetchB
  | .storeB _ => some .storeB
  | .fetchPInc _ => some .fetchPInc
  | .storePInc _ => some .storePInc
  | _ => none

/-- The bus access that a core's next step makes, if it makes one. -/
def NodeState.pending (c : NodeState) : Option MemOp :=
  if c.fetching then some .instr else memOpOf (decode c.i c.slot)

/-- A core that sleeps, sleeps in the access its next step makes: the opcode or fetch that blocked has not completed
(R276). -/
def State.SleepsInItsAccess (s : State) : Prop :=
  ∀ n op, (s.node n).blocked = some op → (s.node n).pending = some op

/-- No link has one end reading and the other writing: such a pair has met, and a transfer is one event (R279, D19). -/
def State.NoPairWaits (s : State) : Prop :=
  ∀ n d m v, neighbour n d = some m → s.req n d = .reading → s.req m d ≠ .writing v

/-- No core sleeps on a pin or a device that is ready: the event that makes it ready completes the access (R289, R325).
Of a wake input that floats nothing is said (log entry 28). -/
def State.NoReadySleeper (s : State) : Prop :=
  ∀ n op, (s.node n).blocked = some op → waitsForPin n (op.addr (s.node n)) = true →
    s.wakeState n (op.addr (s.node n)) ≠ some true

/-- The handshake invariant of the ports. -/
def State.HandshakesSound (s : State) : Prop := s.SleepsInItsAccess ∧ s.NoPairWaits ∧ s.NoReadySleeper

/-! ### Sleep -/

/-- Node n sleeps in a port access (R252). -/
def State.Asleep (s : State) (n : Node) : Prop := (s.node n).blocked ≠ none

/-- A step answers a next state: the run stays inside the specification. -/
def State.Goes (s : State) : Prop := ∃ t, step s = .next t

end Sys2Proof.Machine
end

