-- ==== Sys2Proof/Certificates/Slice0/Obligations.lean ====
section
/-! DEFINITION. The statements for the provers. The vocabulary of the first part is written from the rules of spec/
alone: explicit record updates, integers and concatenations of fields, not the model's own operations; where a
statement uses an operation of the model, it names it. -/

namespace Sys2Proof.Statement

open Machine

/-! ### Words of the statements -/

/-- `dpush(v)` (R24). -/
def pushed (c : NodeState) (v : Word) : NodeState :=
  { c with t := v, s := c.t, ds := c.ds.set (c.dp + 1).val c.s, dp := c.dp + 1 }

/-- `dpop()` (R25). -/
def popped (c : NodeState) : NodeState := { c with t := c.s, s := c.ds[c.dp], dp := c.dp - 1 }

/-- `rpush(v)` (R30). -/
def rpushed (c : NodeState) (v : Word) : NodeState :=
  { c with r := v, rs := c.rs.set (c.rp + 1).val c.r, rp := c.rp + 1 }

/-- `rpop()` (R30). -/
def rpopped (c : NodeState) : NodeState := { c with r := c.rs[c.rp], rp := c.rp - 1 }

/-- An opcode in slot `sl` has left control alone (R108): the next slot, after slot 3 the fetch of the next word; and
it helps a following add or does not (R396). -/
def ends (sl : Slot) (helps : Bool) (c : NodeState) : NodeState :=
  match sl with
  | .s0 => { c with settled := helps, slot := .s1 }
  | .s1 => { c with settled := helps, slot := .s2 }
  | .s2 => { c with settled := helps, slot := .s3 }
  | .s3 => { c with settled := helps, fetching := true }

/-- A control transfer (R140): P takes the target, the fetch is next; it helps an add unless P9 changes (R401). -/
def goesTo (c : NodeState) (target : PAddr) : NodeState :=
  { c with p := target, fetching := true, settled := decide (target.getLsbD 9 = c.p.getLsbD 9) }

/-- A conditional branch that falls through: the fetch from the unchanged P is next (R108, R400). -/
def goesOn (c : NodeState) : NodeState := { c with fetching := true, settled := true }

/-- `target(I, P, slot)` (R107), the fields put together bit for bit. -/
def target (p : PAddr) : AddrField → PAddr
  | .slot0 a => a
  | .slot1 a => p.extractLsb' 9 1 ++ 0#1 ++ a
  | .slot2 a => p.extractLsb' 9 1 ++ 0#1 ++ p.extractLsb' 3 5 ++ a

/-- `incr` (R71) as arithmetic: one more within 128 words, unchanged where bit 8 is set. -/
def bump {w : Nat} (p : BitVec w) : BitVec w :=
  if p.getLsbD 8 then p else BitVec.ofNat w (p.toNat / 128 * 128 + (p.toNat + 1) % 128)

/-- R[17:10] : P[9:0] (R141, R144). -/
def linked (c : NodeState) : Word := c.r.extractLsb' 10 8 ++ c.p

/-- A use of the address bus at `a` has armed the pin-wake detector, if another address disarmed it (R402). -/
def touched (c : NodeState) (a : Addr) : NodeState :=
  { c with disarmedBy := if c.disarmedBy = some a then c.disarmedBy else none }

/-- What an access does to its core when it completes with the word `v` (R73, R161 to R168), and what it does for a
following add (R396, R398). -/
def finished (op : MemOp) (sl : Slot) (v : Word) (c : NodeState) : NodeState :=
  let awake := { c with blocked := none }
  match op with
  | .fetchA | .fetchB => ends sl false (pushed awake v)
  | .fetchAInc => ends sl false { pushed awake v with a := bump c.a }
  | .fetchPInc => ends sl (decide (sl = .s3)) { pushed awake v with p := bump c.p }
  | .storeA | .storeB => ends sl false (popped awake)
  | .storeAInc => ends sl false { popped awake with a := bump c.a }
  | .storePInc => ends sl (decide (sl = .s3)) { popped awake with p := bump c.p }
  | .instr => { awake with i := v, p := bump c.p, slot := .s0, fetching := false }

/-- What an instruction fetch from an I/O address makes of its core when it completes with the word `v`: I takes the
word, the slot pointer is 0, and P stays where it is (R73, R75). -/
def fetched (a : Addr) (v : Word) (c : NodeState) : NodeState :=
  { touched c a with i := v, slot := .s0, fetching := false, blocked := none }

/-- Node n takes its turn: the model's own fields, and nothing else of the chip (log entries 2 and 6). -/
def begins (s : State) (n : Node) : State := { s with cur := n, agenda := s.agenda.tail, tick := s.tick + 1 }

/-- Opcode value `code` decodes to `op` (R105) in every slot that can hold it, and `op` answers the next state in which
the running core is as `effect` says and nothing else of the chip is changed. -/
def Runs (code : BitVec 5) (op : Slot → Instr) (effect : Slot → NodeState → NodeState) : Prop :=
  (∀ w sl, canon w sl = code → decode w sl = op sl) ∧
    ∀ sl s, exec (op sl) s = .next (s.setCore (effect sl s.core))

/-- The same for an opcode with an address field. -/
def RunsWithField (code : BitVec 5) (op : AddrField → Instr) (effect : AddrField → NodeState → NodeState) : Prop :=
  (∀ w sl, canon w sl = code → decode w sl = op (addrField w sl)) ∧
    ∀ f s, exec (op f) s = .next (s.setCore (effect f s.core))

/-- The same for a memory opcode that reads: from a RAM or ROM address, given by its pointer, it completes with the word
there. -/
def LoadRuns (code : BitVec 5) (op : Slot → Instr) (kind : MemOp) (pointer : NodeState → Addr) : Prop :=
  (∀ w sl, canon w sl = code → decode w sl = op sl) ∧
    ∀ sl s, (pointer s.core).getLsbD 8 = false →
      exec (op sl) s =
        .next (s.setCore (finished kind sl (s.peek s.cur (pointer s.core)) (touched s.core (pointer s.core))))

/-- `t` is `s` after a store of `v` to RAM address `a` of the running core, which is now `c` but for its RAM: the words
that decode to the address's word hold `v`, every other word of every node reads as before (R60, R61). -/
def StoredOnly (s t : State) (a : Addr) (v : Word) (c : NodeState) : Prop :=
  t = s.setCore { c with ram := t.core.ram } ∧
    ∀ n b, b.getLsbD 8 = false →
      t.peek n b =
        if n = s.cur ∧ b.getLsbD 7 = false ∧ b.extractLsb' 0 6 = a.extractLsb' 0 6 then v else s.peek n b

/-- A memory opcode that stores: to a RAM address, given by its pointer, it completes, and stores T there. -/
def StoreRuns (code : BitVec 5) (op : Slot → Instr) (kind : MemOp) (pointer : NodeState → Addr) : Prop :=
  (∀ w sl, canon w sl = code → decode w sl = op sl) ∧
    ∀ sl s, (pointer s.core).getLsbD 8 = false → (pointer s.core).getLsbD 7 = false →
      ∃ t, exec (op sl) s = .next t ∧
        StoredOnly s t (pointer s.core) s.core.t (finished kind sl 0#18 (touched s.core (pointer s.core)))

/-- `fetch()`, the running core's next step after a transfer (R14, R73): from a RAM or ROM address it completes. -/
def FetchFollows : Prop :=
  ∀ s : State, s.core.fetching = true → s.core.p.getLsbD 8 = false →
    s.coreStep = .next (s.setCore { touched s.core (s.core.p.extractLsb' 0 9) with
      i := s.peek s.cur (s.core.p.extractLsb' 0 9)
      p := bump s.core.p
      slot := .s0
      fetching := false
      blocked := none })

/-- P9 after an opcode, by the table of R148. -/
def p9After (i : Instr) (c : NodeState) : Bool :=
  match i with
  | .jump (.slot0 a) | .call (.slot0 a) => a.getLsbD 9
  | .ifZero (.slot0 a) => if c.t = 0#18 then a.getLsbD 9 else c.p.getLsbD 9
  | .minusIf (.slot0 a) => if 0 ≤ c.t.toInt then a.getLsbD 9 else c.p.getLsbD 9
  | .next (.slot0 a) => if c.r = 0#18 then c.p.getLsbD 9 else a.getLsbD 9
  | .ret _ | .coroutine _ => c.r.getLsbD 9
  | _ => c.p.getLsbD 9

/-- The opcodes of Table 3.9 by value (R414): `unext` and the eight data memory opcodes. -/
def affectsPrefetchCodes : List (BitVec 5) :=
  [0x04#5, 0x08#5, 0x09#5, 0x0A#5, 0x0B#5, 0x0C#5, 0x0D#5, 0x0E#5, 0x0F#5]

/-- An add in slot `sl` is settled (R395, R397, R399). -/
def Settled (sl : Slot) (c : NodeState) : Prop :=
  c.settled = true ∨
    (sl = .s3 ∧ (canon c.i .s1 ∈ affectsPrefetchCodes ∨ canon c.i .s2 ∈ affectsPrefetchCodes))

/-- The carry into the adder (R212, R213). -/
def carryIn (c : NodeState) : Nat := if c.p.getLsbD 9 = true ∧ c.carry = true then 1 else 0

/-- The sum of `+` (R212). -/
def plusTotal (c : NodeState) : Nat := c.s.toNat + c.t.toNat + carryIn c

/-- The signed sum of `+*` (R213). -/
def stepTotal (c : NodeState) : Int := c.t.toInt + if c.a.getLsbD 0 then c.s.toInt + carryIn c else 0

/-- The opcodes of a list, one after the other on the running core, while each answers a next state. -/
def runs : List Instr → State → Host.Outcome State Fault Refusal
  | [], s => .next s
  | i :: rest, s =>
    match exec i s with
    | .next t => runs rest t
    | .fault f => .fault f
    | .refused r => .refused r

/-- Node m asks, towards direction d, for the other half of a store or a read (R277 to R279). -/
def Offers (s : State) (m : Node) (d : Dir) (store : Bool) : Prop :=
  if store then s.req m d = .reading else ∃ v, s.req m d = .writing v

/-- No selected neighbour of node n asks for the other half of its access. -/
def NoOffer (s : State) (n : Node) (a : Addr) (store : Bool) : Prop :=
  ∀ d m, selects a d = true → neighbour n d = some m → ¬ Offers s m d store

/-- The nodes of the two buses (R330), of the converters (R338) and of the serdes (R341). -/
abbrev OnBus (n : Node) : Prop := n = 3 ∨ n = 5
abbrev Analog (n : Node) : Prop := n = 36 ∨ n = 37 ∨ n = 39
abbrev OnSerdes (n : Node) : Prop := n = 1 ∨ n = 31

/-- An access of node n to `a` waits for a wake pin or a device as well: `a` selects LEFT, or UP, and R325 names the
node for it (R289). -/
abbrev PinSelected (n : Node) (a : Addr) : Prop :=
  (selects a .left = true ∧ n ∈ ([10, 19, 20, 29, 39] : List Node)) ∨
    (selects a .up = true ∧ n ∈ ([1, 3, 4, 5, 31, 32, 33, 36, 37, 38, 39] : List Node))

/-- The level of the wake input of node n, none where it floats: the line from node 04 (R334), or the pin at IOCS
bit 17 (R326). -/
def wakeInput (s : State) (n : Node) : Option Bool :=
  if n = 3 then some ((s.node 4).iocsw.getLsbD 9)
  else if n = 5 then some ((s.node 4).iocsw.getLsbD 7)
  else s.pinLevel n .p17

/-- Level `w` is the wake level of node n (R326, as decision D14 resolves conflict C1; log entry 23). -/
abbrev AtWakeLevel (n : Node) (iocsw : Word) (w : Bool) : Prop :=
  if n ∈ ([10, 19, 20, 29] : List Node) then w = true else w ≠ iocsw.getLsbD 11

/-- The wake input is at its wake level, and the detector, where the node has one, is armed for `a` (R326, R402). -/
abbrev WakeHolds (s : State) (n : Node) (a : Addr) (w : Bool) : Prop :=
  AtWakeLevel n (s.node n).iocsw w ∧ (Analog n ∨ (s.node n).disarmedBy ≠ some a)

/-- The serdes of node n is on, sending (R318). -/
abbrev Sending (s : State) (n : Node) : Prop := OnSerdes n ∧ (s.node n).iocsw.getLsbD 17 = true

/-- The serdes of node n has sent its word, or has received one (R342, R343). -/
abbrev LinkReady (s : State) (n : Node) : Prop := OnSerdes n ∧ (s.node n).linkReady = true

/-- The wake pin or the device completes an access of node n to `a` (R325, R326, R334, R342, R343, R402). That a
serdes wakes by its pin only while it receives is the model's choice (log entry 25). -/
def PinReady (s : State) (n : Node) (a : Addr) : Prop :=
  LinkReady s n ∨ (¬ Sending s n ∧ ∃ w, wakeInput s n = some w ∧ WakeHolds s n a w)

/-- Neither completes it. Of a wake input that floats neither is said (R417, log entry 28). -/
def PinIdle (s : State) (n : Node) (a : Addr) : Prop :=
  ¬ LinkReady s n ∧ (Sending s n ∨ ∃ w, wakeInput s n = some w ∧ ¬ WakeHolds s n a w)

/-- The detector of node n, `old` before the wake input may have moved to where it is in `t` (R402): armed off the wake
level, as it was at it. Of an input that floats nothing is said (log entry 28). -/
def Rearmed (t : State) (n : Node) (old : Option Addr) : Prop :=
  ∀ w, wakeInput t n = some w →
    (AtWakeLevel n (t.node n).iocsw w → (t.node n).disarmedBy = old) ∧
    (¬ AtWakeLevel n (t.node n).iocsw w → (t.node n).disarmedBy = none)

/-- The device register of node n, which is `c`, as its access to port address `a` leaves it when it begins, or goes on:
a store that begins at the UP of a bus is in the latch at once, in output mode (R332; of the latch in input mode nothing
is said, U11). That it is so too where the address selects other ports is log entry 29. -/
def Latched (n : Node) (c : NodeState) (op : MemOp) (a : Addr) (dev : Word) : Prop :=
  if op.isStore = true ∧ OnBus n ∧ selects a .up = true ∧ c.blocked ≠ some op then
    c.iocsw.getLsbD 12 = true → dev = c.t
  else dev = c.dev

/-- `t` is `s` with the running core asleep in its access to `a` (R276), and no other register of any node changed. -/
def SleepsIn (s : State) (op : MemOp) (a : Addr) (t : State) : Prop :=
  ∃ dev, Latched s.cur s.core op a dev ∧ t = s.setCore { touched s.core a with blocked := some op, dev := dev }

/-- Node n, which was `c`, is `e` after the wake pin or the device completed its access to `a`: the word read is any
value (R327, U9), the serdes register (R343) or the bus latch or pins (R332, R333); a store goes to the serdes register
(R342) or stays in the bus latch (R332); the detector is disarmed (R402). That a read leaves the word in the serdes
register is the model's choice (log entry 25). -/
def CompletedByPin (n : Node) (c : NodeState) (op : MemOp) (sl : Slot) (a : Addr) (e : NodeState) : Prop :=
  ∃ v dev, e = { finished op sl v c with
      dev := dev
      linkReady := false
      disarmedBy := if Analog n then c.disarmedBy else some a } ∧
    (¬ OnBus n → ¬ OnSerdes n → dev = c.dev) ∧
    (OnSerdes n → v = c.dev ∧ dev = if op.isStore then c.t else c.dev) ∧
    (OnBus n → op.isStore = true → Latched n c op a dev) ∧
    (OnBus n → op.isStore = false → dev = v ∧ (c.iocsw.getLsbD 12 = true → v = c.dev) ∧
      ∀ pins, c.iocsw.getLsbD 12 = false → c.ext.bus = some pins → v = pins)

/-- `t` is `s` after the wake pin or the device completed the running core's access to `a`. No other node changes. -/
def PinCompleted (s : State) (op : MemOp) (sl : Slot) (a : Addr) (t : State) : Prop :=
  ∃ e, t = s.setCore e ∧ CompletedByPin s.cur (touched s.core a) op sl a e

/-- In `t` the pin or the device of node n, which an event left as `c`, has completed the access that `c` sleeps in. -/
def Wakes (t : State) (n : Node) (c : NodeState) : Prop :=
  ∃ op, c.blocked = some op ∧ PinSelected n (op.addr c) ∧ CompletedByPin n c op c.slot (op.addr c) (t.node n)

/-- What `t` makes of node n, which an event left as `c` (R276, R289, R325): it wakes where it sleeps on a pin or a
device that is now ready, in that very event, and else stays as it is; of a wake input that floats only that it is one
of the two is said (log entry 28). -/
def WokenFrom (t : State) (n : Node) (c : NodeState) : Prop :=
  (t.node n = c ∨ Wakes t n c) ∧
  ∀ op, c.blocked = some op → PinSelected n (op.addr c) →
    (PinReady (t.setNode n c) n (op.addr c) → Wakes t n c) ∧
    (PinIdle (t.setNode n c) n (op.addr c) → t.node n = c)

/-- What `t` makes of node n, which was `c` and whose wake input may have moved: its detector follows the input (R402),
then it may wake (R326). -/
def InputMoved (t : State) (n : Node) (c : NodeState) : Prop :=
  ∃ x, Rearmed (t.setNode n { c with disarmedBy := x }) n c.disarmedBy ∧ WokenFrom t n { c with disarmedBy := x }

/-- `t` is `s` after the transfer between the running core's access to `a` and the access `other` in which its neighbour
m sleeps (R279, R288). The detectors are as a use of the bus leaves them (log entry 28), and the serdes of nodes 01 and
31 is as it was (log entry 25). -/
def Transferred (s : State) (op : MemOp) (sl : Slot) (a : Addr) (m : Node) (other : MemOp) (t : State) : Prop :=
  let word := if op.isStore then s.core.t else (s.node m).t
  ∃ dev, Latched s.cur s.core op a dev ∧
    t = (s.setNode m (finished other (s.node m).slot word (s.node m))).setCore
      { finished op sl word (touched s.core a) with dev := dev }

/-- The two ends n and m of the link in direction d both read, or both write (R281). -/
def Hung (s : State) (n m : Node) (d : Dir) : Prop :=
  (s.req n d = .reading ∧ s.req m d = .reading) ∨ ∃ v w, s.req n d = .writing v ∧ s.req m d = .writing w

/-- Node n sleeps on no other port than the one in direction d. -/
def OnlyPort (s : State) (n : Node) (d : Dir) : Prop :=
  ∀ op, (s.node n).blocked = some op → ∀ d', selects (op.addr (s.node n)) d' = true → d' = d

/-- The opcode that node n is executing, none while it fetches. -/
def opcodeOf (c : NodeState) : Option Instr := if c.fetching then none else some (decode c.i c.slot)

/-- The seven opcodes that can transfer control (R148). -/
def IsTransfer : Instr → Prop
  | .jump _ | .call _ | .ret _ | .coroutine _ | .ifZero _ | .minusIf _ | .next _ => True
  | _ => False

/-- The core registers of two states of a node agree (R20, R38, R40, R41). -/
def SameCore (c d : NodeState) : Prop :=
  c.t = d.t ∧ c.s = d.s ∧ c.ds = d.ds ∧ c.dp = d.dp ∧ c.r = d.r ∧ c.rs = d.rs ∧ c.rp = d.rp ∧ c.a = d.a ∧ c.b = d.b ∧
    c.p = d.p ∧ c.i = d.i ∧ c.slot = d.slot ∧ c.carry = d.carry ∧ c.iocsw = d.iocsw ∧ c.ram = d.ram ∧
    c.settled = d.settled ∧ c.fetching = d.fetching

/-- The IOCS bit of a direction's read request; that of its write request is one below (R311). -/
def readBit : Dir → Nat
  | .right => 16
  | .down => 14
  | .left => 12
  | .up => 10

end Sys2Proof.Statement

open Sys2Proof Sys2Proof.Machine Sys2Proof.Statement

/-! ### Encoding -/

/-- R103, R107, R116: an instruction put into a word, whatever else the word holds, decodes to itself, and so does the
word the encoder writes for it alone. -/
def Obligations.DecodeOfEncode : Prop :=
  ∀ i : Instr, i.wellFormed = true →
    (∀ w, decode (encodeInto w i) i.slot = i) ∧ decode (encode i) i.slot = i

/-- R113 (section 3 of 30_encoding.md, the opcode map): every word is legal: in every slot it decodes to an opcode that
may stand there, with the slot's canonical value, and putting that opcode back gives the word. -/
def Obligations.EveryWordIsLegal : Prop :=
  ∀ (w : Word) (sl : Slot),
    (decode w sl).wellFormed = true ∧ (decode w sl).slot = sl ∧ (decode w sl).opcode = canon w sl ∧
      encodeInto w (decode w sl) = w

/-- R116: the four lines of the encoding function are read back by the decoder. That the address field of the three
branch lines is stored plain is the spec's decision D1 (R111, log entry 11). -/
def Obligations.EncodingFunction : Prop :=
  (∀ (c0 c1 c2 : BitVec 5) (c3 : BitVec 3),
    let w : Word := (c0 ++ c1 ++ c2 ++ c3) ^^^ 0x15555#18
    canon w .s0 = c0 ∧ canon w .s1 = c1 ∧ canon w .s2 = c2 ∧ canon w .s3 = c3 ++ 0#2) ∧
  (∀ (c0 : BitVec 5) (reserved : BitVec 3) (a : BitVec 10),
    let w : Word := (c0 ^^^ 0x0A#5) ++ reserved ++ a
    canon w .s0 = c0 ∧ addrField w .s0 = .slot0 a) ∧
  (∀ (c0 c1 : BitVec 5) (a : BitVec 8),
    let w : Word := (c0 ^^^ 0x0A#5) ++ (c1 ^^^ 0x15#5) ++ a
    canon w .s0 = c0 ∧ canon w .s1 = c1 ∧ addrField w .s1 = .slot1 a) ∧
  ∀ (c0 c1 c2 : BitVec 5) (a : BitVec 3),
    let w : Word := (c0 ^^^ 0x0A#5) ++ (c1 ^^^ 0x15#5) ++ (c2 ^^^ 0x0A#5) ++ a
    canon w .s0 = c0 ∧ canon w .s1 = c1 ∧ canon w .s2 = c2 ∧ addrField w .s2 = .slot2 a

/-- R110, U1 (the spec's decision D2, log entry 9): bits 12 to 10 of a word with an address-field opcode in slot 0 do
not matter. -/
def Obligations.ReservedBitsIgnored : Prop :=
  ∀ w w' : Word, (decode w .s0).field?.isSome = true →
    (∀ k, k < 10 ∨ 13 ≤ k → w'.getLsbD k = w.getLsbD k) → decode w' .s0 = decode w .s0

/-- Words of the spec's own tables (V1 to V3, R104, R116) decode to the opcodes they stand for; that the fields of the
last three are stored plain is the spec's decision D1 (R111, log entry 11). -/
def Obligations.SpecWordsDecode : Prop :=
  (decode 0x2C9B2#18 .s0 = .nop .s0 ∧ decode 0x2C9B2#18 .s3 = .nop .s3) ∧
  (decode 0x3E3EA#18 .s0 = .bitAnd .s0 ∧ decode 0x3E3EA#18 .s1 = .bitXor .s1 ∧
    decode 0x3E3EA#18 .s2 = .drop .s2 ∧ decode 0x3E3EA#18 .s3 = .nop .s3) ∧
  (decode 0x05DB0#18 .s1 = .fetchPInc .s1 ∧ decode 0x05DB0#18 .s3 = .plus .s3) ∧
  decode 0x371B2#18 .s1 = .unext .s1 ∧ decode 0x24AB2#18 .s1 = .aStore .s1 ∧
  decode 0x100AA#18 .s0 = .jump (.slot0 0x0AA#10) ∧ decode 0x05612#18 .s1 = .call (.slot1 0x12#8) ∧
  decode 0x05D4D#18 .s2 = .call (.slot2 5#3)

/-! ### Addresses -/

/-- R107: which opcodes have an address field, and the target of a branch, bit by bit. That the bits of the field are
the plain bits of the word is the spec's decision D1 (R111, log entry 11). -/
def Obligations.BranchTargets : Prop :=
  (∀ (w : Word) (sl : Slot), (decode w sl).field? =
    if canon w sl ∈ ([0x02#5, 0x03#5, 0x05#5, 0x06#5, 0x07#5] : List (BitVec 5)) then some (addrField w sl) else none) ∧
  (∀ w : Word, (decode w .s3).field? = none) ∧
  ∀ (w : Word) (p : PAddr),
    branchTarget p (addrField w .s0) = w.extractLsb' 0 10 ∧
    branchTarget p (addrField w .s1) = p.extractLsb' 9 1 ++ 0#1 ++ w.extractLsb' 0 8 ∧
    branchTarget p (addrField w .s2) = p.extractLsb' 9 1 ++ 0#1 ++ p.extractLsb' 3 5 ++ w.extractLsb' 0 3

/-- R71: the incrementer adds one within the low seven bits, keeps all bits above, and does nothing where bit 8 is
set; on P and on A. That A, of 18 bits, keeps its bits 17 to 7 is the spec's decision D3 (log entry 12). -/
def Obligations.AddressIncrement : Prop :=
  (∀ p : PAddr, incr p = bump p) ∧ ∀ a : Word, incr a = bump a

/-- R61: RAM and ROM are decoded by bits 8 and 7, the word by bits 5 to 0, and bit 6 by nothing; bit 8 says I/O. -/
def Obligations.MemoryMap : Prop :=
  ∀ (n : Node) (a : Addr),
    (a.getLsbD 8 = false →
      place n a = (if a.getLsbD 7 then .rom (a.extractLsb' 0 6) else .ram (a.extractLsb' 0 6)) ∧
      ∀ s : State, s.peek n (a ^^^ 0x40#9) = s.peek n a) ∧
    (a.getLsbD 8 = true → ∀ k, place n a ≠ .ram k ∧ place n a ≠ .rom k)

/-- R62, R69, R274: what each I/O address names on each node, every other one being undefined. -/
def Obligations.IoMap : Prop :=
  ∀ (n : Node) (a : Addr), a.getLsbD 8 = true →
    place n a =
      if a = 0x15D#9 then .iocs
      else if a = 0x141#9 then
        (if n ∈ ([1, 3, 5, 31, 36, 37, 39] : List Node) then .data else .undefined)
      else if a ∈ ([0x1D5#9, 0x115#9, 0x105#9, 0x125#9, 0x135#9, 0x165#9, 0x185#9, 0x195#9, 0x1A5#9, 0x1B5#9,
        0x1C5#9, 0x1E5#9, 0x1F5#9] : List Addr) then .port
      else if a = 0x175#9 then (if n ∈ ([0, 9, 30] : List Node) then .undefined else .port)
      else if a = 0x145#9 then
        (if n ∈ ([0, 2, 6, 7, 8, 9, 30, 34, 35] : List Node) then .undefined else .port)
      else .undefined

/-- R272: the ports that an address selects. -/
def Obligations.PortSelection : Prop :=
  ∀ a : Addr, a.getLsbD 8 = true → a.extractLsb' 0 4 = 5#4 →
    (selects a .right = true ↔ a.getLsbD 7 = true) ∧ (selects a .down = true ↔ a.getLsbD 6 = false) ∧
    (selects a .left = true ↔ a.getLsbD 5 = true) ∧ (selects a .up = true ↔ a.getLsbD 4 = false)

/-- R346: the neighbour pattern by row and column; R271: the two ends of a link use one label. -/
def Obligations.NeighbourPattern : Prop :=
  (∀ n m : Node, neighbour n .right = some m ↔
    m.val / 10 = n.val / 10 ∧ m.val % 10 = if n.val % 10 % 2 = 0 then n.val % 10 + 1 else n.val % 10 - 1) ∧
  (∀ n m : Node, neighbour n .left = some m ↔
    n.val % 10 ≠ 0 ∧ n.val % 10 ≠ 9 ∧ m.val / 10 = n.val / 10 ∧
      m.val % 10 = if n.val % 10 % 2 = 1 then n.val % 10 + 1 else n.val % 10 - 1) ∧
  (∀ n m : Node, neighbour n .down = some m ↔
    m.val % 10 = n.val % 10 ∧ m.val / 10 = if n.val / 10 % 2 = 0 then n.val / 10 + 1 else n.val / 10 - 1) ∧
  (∀ n m : Node, neighbour n .up = some m ↔
    n.val / 10 ≠ 0 ∧ n.val / 10 ≠ 3 ∧ m.val % 10 = n.val % 10 ∧
      m.val / 10 = if n.val / 10 % 2 = 1 then n.val / 10 + 1 else n.val / 10 - 1) ∧
  ∀ (n m : Node) (d : Dir), neighbour n d = some m → neighbour m d = some n ∧ m ≠ n

/-! ### Steps, fetch and reset -/

/-- R14, R108: when a node has the turn and is not fetching, the step is `exec` of the instruction its slot of I decodes
to; and after a fetch of the word `w` the node's next step runs the instruction in slot 0 of `w`. The model's step
takes the turn off the agenda and advances the tick around `exec` (log entries 2 and 6). -/
def Obligations.StepRunsDecoded : Prop :=
  ∀ (s : State) (n : Node), s.turn = .node n →
    (∀ i : Instr, i.wellFormed = true → (s.node n).fetching = false → decode (s.node n).i (s.node n).slot = i →
      step s = exec i { s with cur := n, agenda := s.agenda.tail, tick := s.tick + 1 }) ∧
    ((s.node n).fetching = true → (s.node n).p.getLsbD 8 = false →
      ∃ t, step s = .next t ∧
        ∀ (u : State) (i : Instr), u.node n = t.node n → u.turn = .node n →
          decode (s.peek n ((s.node n).p.extractLsb' 0 9)) .s0 = i →
          step u = exec i { u with cur := n, agenda := u.agenda.tail, tick := u.tick + 1 })

/-- R73, R74: an instruction fetch from RAM or ROM puts the word at P into I, increments P and sets the slot pointer to
0, and changes nothing else of the chip but the model's own turn fields. -/
def Obligations.InstructionFetch : Prop :=
  ∀ (s : State) (n : Node), s.turn = .node n → (s.node n).fetching = true → (s.node n).p.getLsbD 8 = false →
    step s = .next { s with
      cur := n
      agenda := s.agenda.tail
      tick := s.tick + 1
      nodes := s.nodes.set n.val { touched (s.node n) ((s.node n).p.extractLsb' 0 9) with
        i := s.peek n ((s.node n).p.extractLsb' 0 9)
        p := bump (s.node n).p
        slot := .s0
        fetching := false
        blocked := none } }

/-- R383, R44: the reset state, as far as the spec gives it (idle ports, the armed detector and the unsettled adder are
the spec's decision D9, log entry 31): P9, the two known addresses, IOCS, the buses, the pins,
the wake lines, the converters, the serdes, the ports, the adder and the detector. Nothing is said of the registers
whose value the log's entry 1 chose. -/
def Obligations.ResetState : Prop :=
  ∀ n : Node,
    (State.reset.node n).iocsw = 0x15555#18 ∧ (State.reset.node n).p.getLsbD 9 = false ∧
    (n = 1 ∨ n = 31 → (State.reset.node n).p = 0x0AA#10) ∧ (State.reset.node n).fetching = true ∧
    (State.reset.node n).settled = false ∧ (State.reset.node n).disarmedBy = none ∧
    (∀ d, State.reset.req n d = .idle) ∧
    (∀ q, pinDriven n q = true → State.reset.pinOutput n q = some .weakPullDown) ∧
    (n = 3 ∨ n = 5 → State.reset.busOutputLevels n = some 0x2AAAA#18 ∧ (State.reset.node n).dev = 0x2AAAA#18 ∧
      State.reset.wakeLine n = false ∧ (State.reset.readIocs n).getLsbD 17 = true) ∧
    (n = 36 ∨ n = 37 ∨ n = 39 →
      vcoInput (State.reset.node n).iocsw = .off ∧ dacInput (State.reset.node n).iocsw = 0#9) ∧
    (n = 1 ∨ n = 31 → (State.reset.node n).serdesSending = false)

/-- R386, R380: the reset event, from any state: every core restarts, every request is withdrawn, IOCS and the buses
return to their reset values, and nothing of the registers left unspecified is claimed. That the adder is unsettled
(R396) and the pin-wake detector armed (R383) after it, as at reset, is the spec's decision D9 (log entry 31). -/
def Obligations.ResetEvent : Prop :=
  ∀ s : State, s.turn = .event .reset → ∃ t, step s = .next t ∧ ∀ n : Node,
    (t.node n).p = resetP n ∧ (t.node n).fetching = true ∧ (t.node n).iocsw = 0x15555#18 ∧
    ¬ t.Asleep n ∧ (∀ d, t.req n d = .idle) ∧
    (n = 3 ∨ n = 5 → (t.node n).dev = 0x2AAAA#18) ∧
    (t.node n).settled = false ∧ (t.node n).disarmedBy = none

/-! ### Invariants -/

/-- Every step keeps every RAM in its canonical form. -/
def Obligations.StepKeepsMemoryCanonical : Prop :=
  ∀ s t : State, s.MemoryCanonical → step s = .next t → t.MemoryCanonical

/-- R276, R279, R289: every step keeps the handshakes sound: a core that sleeps, sleeps in the access it is executing;
no link has a reader at one end and a writer at the other; and no core sleeps on a pin or a device that is ready, as the
step that makes it ready, of whichever node or of the environment, completes the access. When one is ready rests on the
wake level (D14, log entry 23), on the serdes link (log entry 25) and on the detector (log entry 28); that it completes
the access at once is log entry 27. -/
def Obligations.StepKeepsHandshakesSound : Prop :=
  ∀ s t : State, s.HandshakesSound → step s = .next t → t.HandshakesSound

/-- Both invariants hold at reset. -/
def Obligations.ResetInvariants : Prop := State.reset.MemoryCanonical ∧ State.reset.HandshakesSound

/-! ### The stacks -/

/-- R27, R28: ten pushed words come back in reverse order, and the pops after them repeat the eight words of the ring
without end. -/
def Obligations.DataStackRing : Prop :=
  ∀ (c : NodeState) (vs : List Word) (h : vs.length = 10),
    (∀ j (hj : j < 10), (NodeState.dpop^[j] (vs.foldl NodeState.dpush c)).t = vs[9 - j]) ∧
    ∀ j, (NodeState.dpop^[j + 10] (vs.foldl NodeState.dpush c)).t =
      (NodeState.dpop^[j % 8 + 2] (vs.foldl NodeState.dpush c)).t

/-- R30, R26: the same for nine words on the return stack. -/
def Obligations.ReturnStackRing : Prop :=
  ∀ (c : NodeState) (vs : List Word) (h : vs.length = 9),
    (∀ j (hj : j < 9), (NodeState.rpop^[j] (vs.foldl NodeState.rpush c)).r = vs[8 - j]) ∧
    ∀ j, (NodeState.rpop^[j + 9] (vs.foldl NodeState.rpush c)).r =
      (NodeState.rpop^[j % 8 + 1] (vs.foldl NodeState.rpush c)).r

/-! ### Stack, register and bit-wise opcodes -/

/-- R180 to R185: `.`, `push`, `pop`, `dup`, `drop`, `over`, in every slot, from every state. -/
def Obligations.StackOpcodes : Prop :=
  Runs 0x1C#5 .nop (fun sl c => ends sl true c) ∧
  Runs 0x1D#5 .push (fun sl c => ends sl false (rpushed (popped c) c.t)) ∧
  Runs 0x19#5 .pop (fun sl c => ends sl false (pushed (rpopped c) c.r)) ∧
  Runs 0x18#5 .dup (fun sl c => ends sl false (pushed c c.t)) ∧
  Runs 0x17#5 .drop (fun sl c => ends sl false (popped c)) ∧
  Runs 0x1A#5 .over (fun sl c => ends sl false (pushed c c.s))

/-- R190, R191: `a!`, `a@`, in every slot, from every state. -/
def Obligations.RegisterOpcodes : Prop :=
  Runs 0x1F#5 .aStore (fun sl c => ends sl false { popped c with a := c.t }) ∧
  Runs 0x1B#5 .aFetch (fun sl c => ends sl false (pushed c c.a))

/-- R192: `b!`; that it takes the low nine bits is the spec's decision D4 (log entry 10). -/
def Obligations.BStoreOpcode : Prop :=
  Runs 0x1E#5 .bStore (fun sl c => ends sl false { popped c with b := c.t.extractLsb' 0 9 })

/-- R200 to R202: `not`, `and`, `xor`. -/
def Obligations.BitwiseOpcodes : Prop :=
  Runs 0x13#5 .bitNot (fun sl c => ends sl false { c with t := c.t ^^^ 0x3FFFF#18 }) ∧
  Runs 0x15#5 .bitAnd (fun sl c => ends sl false { popped c with t := c.s &&& c.t }) ∧
  Runs 0x16#5 .bitXor (fun sl c => ends sl false { popped c with t := c.s ^^^ c.t })

/-! ### Mathematical opcodes -/

/-- R210, R211: `2/` is the signed half rounded down, `2*` the double modulo 2^18. -/
def Obligations.Shifts : Prop :=
  Runs 0x12#5 .twoSlash (fun sl c => ends sl false { c with t := BitVec.ofInt 18 (c.t.toInt / 2) }) ∧
  Runs 0x11#5 .twoStar (fun sl c => ends sl false { c with t := BitVec.ofNat 18 (2 * c.t.toNat) })

/-- R212: a settled `+`: the sum modulo 2^18, with the carry in Extended mode only, where C takes the carry out. That a
`unext` in slot 1 or 2 settles an add in slot 3 is deduced from R399 and R414 (log entry 16). -/
def Obligations.SettledPlus : Prop :=
  (∀ w sl, canon w sl = 0x14#5 → decode w sl = .plus sl) ∧
  ∀ sl (s : State), Settled sl s.core →
    exec (.plus sl) s = .next (s.setCore (ends sl false { popped s.core with
      t := BitVec.ofNat 18 (plusTotal s.core)
      carry := if s.core.p.getLsbD 9 then decide (2 ^ 18 ≤ plusTotal s.core) else s.core.carry }))

/-- R213: a settled `+*`: T and A are the 37-bit value of the signed sum and A, one place to the right (the spec's
decisions D24 and D27, log entry 17). That a `unext` in slot 1 or 2 settles an add in slot 3 is deduced from R399 and
R414 (log entry 16). -/
def Obligations.SettledPlusStar : Prop :=
  (∀ w sl, canon w sl = 0x10#5 → decode w sl = .plusStar sl) ∧
  ∀ sl (s : State), Settled sl s.core →
    exec (.plusStar sl) s = .next (s.setCore (ends sl false { s.core with
      t := BitVec.ofInt 18 (stepTotal s.core / 2)
      a := BitVec.ofNat 18 ((stepTotal s.core % 2).toNat * 2 ^ 17 + s.core.a.toNat / 2) }))

/-- R408: an unsettled `+` or `+*` runs; of its sum bits 8 to 0 are right, and nothing is claimed of the others, nor of
C in Extended mode; all else is as in the settled case (D13, log entry 15; what is settled is log entry 16). -/
def Obligations.UnsettledAdds : Prop :=
  ∀ sl (s : State), ¬ Settled sl s.core →
    (∃ v carry, exec (.plus sl) s = .next (s.setCore (ends sl false { popped s.core with t := v, carry := carry })) ∧
      v.toNat % 512 = plusTotal s.core % 512 ∧ (s.core.p.getLsbD 9 = false → carry = s.core.carry)) ∧
    ∃ v, exec (.plusStar sl) s = .next (s.setCore (ends sl false { s.core with
        t := v
        a := BitVec.ofNat 18 ((stepTotal s.core % 2).toNat * 2 ^ 17 + s.core.a.toNat / 2) })) ∧
      (v.toNat : Int) % 256 = stepTotal s.core / 2 % 256

/-- R214: from T = 0 in Standard mode, eighteen settled `+*` steps leave in T : A the 36-bit product of S, signed, and
A, unsigned; S and everything else is unchanged. -/
def Obligations.EighteenStepMultiply : Prop :=
  ∀ s : State, s.core.t = 0#18 → s.core.p.getLsbD 9 = false →
    ∃ hi lo : Word,
      runs (List.replicate 18 [Instr.nop .s0, Instr.plusStar .s1]).flatten s =
        .next (s.setCore { s.core with t := hi, a := lo, settled := false, slot := .s2 }) ∧
      hi.toInt * 2 ^ 18 + lo.toNat = s.core.s.toInt * s.core.a.toNat

/-! ### Branch opcodes -/

/-- R141 to R143: `call`, `;`, `jump`. The fetch that ends each is the core's next step (R14). -/
def Obligations.UnconditionalBranches : Prop :=
  FetchFollows ∧
  RunsWithField 0x03#5 .call (fun f c => goesTo (rpushed c (linked c)) (target c.p f)) ∧
  Runs 0x00#5 .ret (fun _ c => goesTo (rpopped c) (c.r.extractLsb' 0 10)) ∧
  RunsWithField 0x02#5 .jump (fun f c => goesTo c (target c.p f))

/-- R144, R146: `;:`, and `-if`, taken and not; that R keeps its bits 17 to 10 under `;:`, and that `-if` is taken at
T = 0, are the spec's decisions D23 and D25 (log entry 18). -/
def Obligations.CoroutineAndMinusIf : Prop :=
  FetchFollows ∧
  Runs 0x01#5 .coroutine (fun _ c => goesTo { c with r := linked c } (c.r.extractLsb' 0 10)) ∧
  RunsWithField 0x07#5 .minusIf (fun f c => if 0 ≤ c.t.toInt then goesTo c (target c.p f) else goesOn c)

/-- R145, R147: `if`, `next`, taken and not. -/
def Obligations.ConditionalBranches : Prop :=
  FetchFollows ∧
  RunsWithField 0x06#5 .ifZero (fun f c => if c.t = 0#18 then goesTo c (target c.p f) else goesOn c) ∧
  RunsWithField 0x05#5 .next (fun f c =>
    if c.r = 0#18 then goesOn (rpopped c)
    else goesTo { c with r := BitVec.ofNat 18 (c.r.toNat - 1) } (target c.p f))

/-- R149: `unext` goes back to slot 0 of the word in I without a fetch while R is not 0, and falls through when it is;
that a fall through in slot 3 is followed by the fetch is the spec's decision D32 (log entry 19). -/
def Obligations.MicroNext : Prop :=
  Runs 0x04#5 .unext (fun sl c =>
    if c.r = 0#18 then ends sl true (rpopped c)
    else { c with r := BitVec.ofNat 18 (c.r.toNat - 1), slot := .s0, settled := true })

/-- R149: a `unext` in slot 0 spins R down to 0 and is executed R + 1 times in all. -/
def Obligations.MicroNextCountsDown : Prop :=
  ∀ s : State,
    runs (List.replicate (s.core.r.toNat + 1) (Instr.unext .s0)) s =
      .next (s.setCore { rpopped s.core with settled := true, slot := .s1 })

/-- R148: P9 after every opcode and every fetch, by the rule's table; `call` and `;:` save it in R9; a transfer that
changes it resets the settling of the adder; it is 0 at reset. That `-if` is taken at T = 0 is the spec's decision D25
(log entry 18). -/
def Obligations.ExtendedModeTable : Prop :=
  (∀ (i : Instr) (s t : State), exec i s = .next t → t.core.p.getLsbD 9 = p9After i s.core) ∧
  (∀ s t : State, s.fetchStep = .next t → t.core.p.getLsbD 9 = s.core.p.getLsbD 9) ∧
  (∀ (i : Instr) (s t : State), exec i s = .next t → ((∃ f, i = .call f) ∨ ∃ sl, i = .coroutine sl) →
    t.core.r.getLsbD 9 = s.core.p.getLsbD 9) ∧
  (∀ (i : Instr) (s t : State), IsTransfer i → exec i s = .next t →
    t.core.p.getLsbD 9 ≠ s.core.p.getLsbD 9 → t.core.settled = false) ∧
  ∀ n : Node, (State.reset.node n).p.getLsbD 9 = false

/-! ### Memory opcodes on RAM and ROM -/

/-- R66, R161, R163, R165, R168: `@a`, `@a+`, `@b`, `@p+` from RAM and ROM. -/
def Obligations.LoadsFromMemory : Prop :=
  LoadRuns 0x0B#5 .fetchA .fetchA (fun c => c.a.extractLsb' 0 9) ∧
  LoadRuns 0x09#5 .fetchAInc .fetchAInc (fun c => c.a.extractLsb' 0 9) ∧
  LoadRuns 0x0A#5 .fetchB .fetchB (fun c => c.b) ∧
  LoadRuns 0x08#5 .fetchPInc .fetchPInc (fun c => c.p.extractLsb' 0 9)

/-- R67, R162, R164, R166, R167: `!a`, `!a+`, `!b`, `!p+` to RAM, with the word stored and every other word of every
node as before. -/
def Obligations.StoresToRam : Prop :=
  StoreRuns 0x0F#5 .storeA .storeA (fun c => c.a.extractLsb' 0 9) ∧
  StoreRuns 0x0D#5 .storeAInc .storeAInc (fun c => c.a.extractLsb' 0 9) ∧
  StoreRuns 0x0E#5 .storeB .storeB (fun c => c.b) ∧
  StoreRuns 0x0C#5 .storePInc .storePInc (fun c => c.p.extractLsb' 0 9)

/-- R79, R61: a load through B after a store through A reads the stored word, when the two addresses name one RAM
word, be it by another name. That A addresses with its bits 8 to 0 is the spec's decision D3 (log entry 12). -/
def Obligations.LoadAfterStore : Prop :=
  ∀ (s : State) (sl sl' : Slot),
    s.core.a.getLsbD 8 = false → s.core.a.getLsbD 7 = false → s.core.b.getLsbD 8 = false →
    s.core.b.getLsbD 7 = false → s.core.a.extractLsb' 0 6 = s.core.b.extractLsb' 0 6 →
    ∃ t, runs [.storeA sl, .fetchB sl'] s = .next t ∧ t.core.t = s.core.t

/-- R68, U3: a store to a ROM address has no meaning and stops the run, whichever opcode makes it. -/
def Obligations.StoreToRomStops : Prop :=
  ∀ (i : Instr) (op : MemOp) (s : State), memOpOf i = some op → op.isStore = true →
    (op.addr s.core).getLsbD 8 = false → (op.addr s.core).getLsbD 7 = true → exec i s = .refused .storeToRom

/-- R69, U4: an access to an undefined I/O address stops the run, whichever opcode, or fetch, makes it. -/
def Obligations.UndefinedIoStops : Prop :=
  (∀ (i : Instr) (op : MemOp) (s : State), memOpOf i = some op → place s.cur (op.addr s.core) = .undefined →
    exec i s = .refused .undefinedIo) ∧
  ∀ (s : State) (n : Node), s.turn = .node n → (s.node n).fetching = true →
    place n ((s.node n).p.extractLsb' 0 9) = .undefined → step s = .refused .undefinedIo

/-! ### IOCS, DATA and UP -/

/-- R310, R320, R333: a store to IOCS completes, stores all 18 bits in the node's latch and touches no other register of
any node. A bus turned from output to input takes its pins, bit for bit (the spec's decision D35, log entry 29), and no
other store touches a device register of its node; a serdes turned on or off has no word ready (the model's choice, log
entry 25). The detectors of the node, and for node 04 those of nodes 03 and 05, follow their wake inputs (R402), and a
store of node 04 that brings the line of node 03 or 05 to its wake level completes the access that this node sleeps in
(R325, R326, R332, R334; at once, log entry 27): the wake level is the resolution of C1 (D14, log entry 23); that a
write of IOCS can take a wake input off it, and of a floating one nothing is said, is log entry 28; the word of a bus is
D35 (log entry 29). -/
def Obligations.IocsStore : Prop :=
  ∀ (i : Instr) (op : MemOp) (s : State), memOpOf i = some op → op.isStore = true → op.addr s.core = 0x15D#9 →
    let turnsToInput := OnBus s.cur ∧ s.core.iocsw.getLsbD 12 = true ∧ s.core.t.getLsbD 12 = false
    ∃ t, exec i s = .next t ∧ t.cur = s.cur ∧ t.agenda = s.agenda ∧ t.tick = s.tick ∧ t.epoch = s.epoch ∧
      t.core = { finished op i.slot 0#18 s.core with
        iocsw := s.core.t
        disarmedBy := t.core.disarmedBy
        dev := t.core.dev
        linkReady :=
          if OnSerdes s.cur ∧ s.core.t.getLsbD 17 ≠ s.core.iocsw.getLsbD 17 then false else s.core.linkReady } ∧
      (¬ turnsToInput → t.core.dev = s.core.dev) ∧
      (∀ pins, turnsToInput → s.core.ext.bus = some pins → t.core.dev = pins) ∧
      Rearmed t s.cur (touched s.core 0x15D#9).disarmedBy ∧
      ∀ n, n ≠ s.cur →
        (s.cur = 4 → OnBus n → InputMoved t n (s.node n)) ∧ (s.cur ≠ 4 ∨ ¬ OnBus n → t.node n = s.node n)

/-- R350: on a node with no neighbour in a direction, the two status bits of that direction read as the inverse of the
written bits; at reset they read 0 and 1. -/
def Obligations.MissingNeighbourBits : Prop :=
  ∀ (n : Node) (d : Dir), neighbour n d = none →
    (∀ s : State,
      (s.readIocs n).getLsbD (readBit d) = !(s.node n).iocsw.getLsbD (readBit d) ∧
      (s.readIocs n).getLsbD (readBit d - 1) = !(s.node n).iocsw.getLsbD (readBit d - 1)) ∧
    (State.reset.readIocs n).getLsbD (readBit d) = false ∧ (State.reset.readIocs n).getLsbD (readBit d - 1) = true

/-- R311, R334: the word a read of IOCS returns: the neighbours' pending reads, active low, and writes, active high; the
wake lines; the pin levels. Of other bits nothing is claimed (U8, log entry 30). -/
def Obligations.IocsReadBits : Prop :=
  ∀ (s : State) (n : Node),
    (∀ d m, neighbour n d = some m →
      ((s.readIocs n).getLsbD (readBit d) = false ↔ s.req m d = .reading) ∧
      ((s.readIocs n).getLsbD (readBit d - 1) = true ↔ ∃ v, s.req m d = .writing v)) ∧
    (n = 3 → (s.readIocs n).getLsbD 17 = !(s.node 4).iocsw.getLsbD 9) ∧
    (n = 5 → (s.readIocs n).getLsbD 17 = !(s.node 4).iocsw.getLsbD 7) ∧
    ∀ q level, pinRead n q = true → s.pinLevel n q = some level →
      (s.readIocs n).getLsbD (pinBitNumber q) = level

/-- R310, R311, R73: a read of IOCS, by an opcode or by an instruction fetch, completes, never blocks, delivers the
status word and changes nothing else; a fetch puts it into I, at slot 0, and leaves P. -/
def Obligations.IocsLoad : Prop :=
  (∀ (i : Instr) (op : MemOp) (s : State), memOpOf i = some op → op.isStore = false → op.addr s.core = 0x15D#9 →
    exec i s = .next (s.setCore (finished op i.slot (s.readIocs s.cur) (touched s.core 0x15D#9)))) ∧
  ∀ (s : State) (n : Node), s.turn = .node n → (s.node n).fetching = true →
    (s.node n).p.extractLsb' 0 9 = 0x15D#9 →
    step s = .next ((begins s n).setCore (fetched 0x15D#9 ((begins s n).readIocs n) (s.node n)))

/-- R331, R338, R341, R73 (and R339: a store leaves the ADC counter alone, the spec's reading, log entry 24): DATA never
blocks. A read, by an opcode or by an instruction fetch, delivers the device register, but for a bus in input mode that
nothing drives; a fetch puts it into I, at slot 0, and leaves P; a store writes the serdes register and a bus in output
mode. A word put into a serdes register is not sent yet, and a read leaves the readiness of
the link alone (the model's choice, log entry 25). -/
def Obligations.DataAccess : Prop :=
  (∀ (i : Instr) (op : MemOp) (s : State), memOpOf i = some op → op.addr s.core = 0x141#9 →
    place s.cur 0x141#9 = .data →
    (op.isStore = false → ∃ v,
      exec i s = .next (s.setCore (finished op i.slot v (touched s.core 0x141#9))) ∧
      ((OnBus s.cur ∧ s.core.iocsw.getLsbD 12 = false ∧ s.core.ext.bus = none) ∨ v = s.core.dev)) ∧
    (op.isStore = true → ∃ d,
      exec i s = .next (s.setCore { finished op i.slot 0#18 (touched s.core 0x141#9) with
        dev := d
        linkReady := if OnSerdes s.cur then false else s.core.linkReady }) ∧
      (Analog s.cur → d = s.core.dev) ∧ (OnSerdes s.cur → d = s.core.t) ∧
      (OnBus s.cur → s.core.iocsw.getLsbD 12 = true → d = s.core.t))) ∧
  ∀ (s : State) (n : Node), s.turn = .node n → (s.node n).fetching = true →
    (s.node n).p.extractLsb' 0 9 = 0x141#9 → place n 0x141#9 = .data →
    ∃ v, step s = .next ((begins s n).setCore (fetched 0x141#9 v (s.node n))) ∧
      ((OnBus n ∧ (s.node n).iocsw.getLsbD 12 = false ∧ (s.node n).ext.bus = none) ∨ v = (s.node n).dev)

/-- R332, R333: UP on nodes 03 and 05. A store that begins is in the latch, in output mode, and on the pins, whether it
sleeps or the line from node 04 is at its wake level already; one that goes on leaves the latch alone. A read that is
woken captures the pins in input mode and delivers the latch in output mode. Either sleeps while the line is off the
wake level or the detector is disarmed (R402). The level is the resolution of C1 (D14, log entry 23); that word and pins
are alike bit for bit is the spec's decision D35 (log entry 29). -/
def Obligations.BusUp : Prop :=
  ∀ (i : Instr) (op : MemOp) (s : State), memOpOf i = some op → OnBus s.cur → op.addr s.core = 0x145#9 →
    let line := if s.cur = 3 then (s.node 4).iocsw.getLsbD 9 else (s.node 4).iocsw.getLsbD 7
    let wakes := line ≠ s.core.iocsw.getLsbD 11 ∧ s.core.disarmedBy ≠ some 0x145#9
    let awake (v dev : Word) : NodeState :=
      { finished op i.slot v s.core with dev := dev, disarmedBy := some 0x145#9, linkReady := false }
    let asleep (dev : Word) : NodeState := { touched s.core 0x145#9 with dev := dev, blocked := some op }
    (op.isStore = true → s.core.blocked ≠ some op → ∃ t dev, exec i s = .next t ∧
      (wakes → t = s.setCore (awake 0#18 dev)) ∧ (¬ wakes → t = s.setCore (asleep dev)) ∧
      (s.core.iocsw.getLsbD 12 = true → dev = s.core.t ∧ t.busOutputLevels s.cur = some s.core.t)) ∧
    (op.isStore = true → s.core.blocked = some op →
      (wakes → exec i s = .next (s.setCore (awake 0#18 s.core.dev))) ∧
      (¬ wakes → exec i s = .next (s.setCore (asleep s.core.dev)))) ∧
    (op.isStore = false →
      (wakes → ∃ v, exec i s = .next (s.setCore (awake v v)) ∧
        (s.core.iocsw.getLsbD 12 = true → v = s.core.dev) ∧
        ∀ pins, s.core.iocsw.getLsbD 12 = false → s.core.ext.bus = some pins → v = pins) ∧
      (¬ wakes → exec i s = .next (s.setCore (asleep s.core.dev))))

/-- R342, R343, R325: UP on nodes 01 and 31. When the link is ready, a read delivers the register and a store puts its
word there, and the link is no longer ready; when it is not, the access sleeps, while the node sends, and while it
receives with its pin 17 off the wake level or the detector disarmed; the pin at the level completes it (R325, R327).
The serdes as a channel of words, and its pin waking it only while it receives, are the spec's and the model's reading
of R341; that a read leaves the word in the register, whatever is in T, is the model's choice (log entry 25). -/
def Obligations.SerdesUp : Prop :=
  ∀ (i : Instr) (op : MemOp) (s : State), memOpOf i = some op → OnSerdes s.cur → op.addr s.core = 0x145#9 →
    let completed := s.setCore { finished op i.slot s.core.dev s.core with
      dev := if op.isStore then s.core.t else s.core.dev
      linkReady := false
      disarmedBy := some 0x145#9 }
    let asleep := s.setCore { touched s.core 0x145#9 with blocked := some op }
    (s.core.linkReady = true → exec i s = .next completed) ∧
    (s.core.linkReady = false → s.core.iocsw.getLsbD 17 = true → exec i s = .next asleep) ∧
    (s.core.linkReady = false → s.core.iocsw.getLsbD 17 = false → ∀ level, s.pinLevel s.cur .p17 = some level →
      let wakes := level ≠ s.core.iocsw.getLsbD 11 ∧ s.core.disarmedBy ≠ some 0x145#9
      (wakes → exec i s = .next completed) ∧ (¬ wakes → exec i s = .next asleep))

/-- R289, R325 to R328, R402: an access to any address that selects the neighbourless LEFT or UP of a node with a wake
pin or a device, alone or with other ports, and that no neighbour answers, is completed by the pin or the device when
that is ready, and sleeps when it is not; where the wake input floats, one of the two (R417). The word a plain pin
delivers is free (D15, log entry 26); the wake level is the resolution of C1 (D14, log entry 23). -/
def Obligations.PinWake : Prop :=
  ∀ (i : Instr) (op : MemOp) (s : State), memOpOf i = some op → PinSelected s.cur (op.addr s.core) →
    NoOffer s s.cur (op.addr s.core) op.isStore →
    let a := op.addr s.core
    ∃ t, exec i s = .next t ∧ (PinCompleted s op i.slot a t ∨ SleepsIn s op a t) ∧
      (PinReady s s.cur a → PinCompleted s op i.slot a t) ∧ (PinIdle s s.cur a → SleepsIn s op a t)

/-! ### Ports -/

/-- R276 to R278, R289: a port access that no selected neighbour answers, nor the pin or the device it may select too,
sleeps: no register of any node changes, and its request stands on every selected port with a neighbour. When a pin or a
device is not ready rests on the wake level, the resolution of C1 (D14, log entry 23), on the detector (log entry 28)
and, on serdes nodes, on the model's choice for UP (log entry 25); the bus latch of a store that selects UP is log entry
29. -/
def Obligations.PortAccessSleeps : Prop :=
  ∀ (i : Instr) (op : MemOp) (s : State), memOpOf i = some op → place s.cur (op.addr s.core) = .port →
    (PinSelected s.cur (op.addr s.core) → PinIdle s s.cur (op.addr s.core)) →
    NoOffer s s.cur (op.addr s.core) op.isStore →
    ∃ t, exec i s = .next t ∧ SleepsIn s op (op.addr s.core) t ∧
      ∀ d, t.req s.cur d =
        if selects (op.addr s.core) d && (neighbour s.cur d).isSome then
          (if op.isStore then .writing s.core.t else .reading)
        else .idle

/-- R279, R288, R289: a port access that exactly one selected neighbour answers is a transfer: one event in which the
reader gets the writer's T, both accesses complete and all requests of both are withdrawn; unless the address selects a
wake pin or a device as well, and that is ready or floats: then one of the two completes it (the model's choice, log
entry 27). That a transfer is one event is D19 (log entry 20); the detector after it is log entry 28, the serdes after
it log entry 25 and the bus latch log entry 29. When a pin or a device is ready, and what it does, rests on the wake
level, the resolution of C1 (D14, log entry 23), on the serdes link (log entry 25) and on the free word (D15, log entry
26). -/
def Obligations.Rendezvous : Prop :=
  ∀ (i : Instr) (op other : MemOp) (s : State) (m : Node) (d : Dir), memOpOf i = some op →
    selects (op.addr s.core) d = true → neighbour s.cur d = some m → Offers s m d op.isStore →
    (s.node m).blocked = some other →
    (∀ d' m', selects (op.addr s.core) d' = true → neighbour s.cur d' = some m' → Offers s m' d' op.isStore →
      d' = d) →
    let a := op.addr s.core
    ∃ t, exec i s = .next t ∧
      (Transferred s op i.slot a m other t ∨ (PinSelected s.cur a ∧ PinCompleted s op i.slot a t)) ∧
      ((PinSelected s.cur a → PinIdle s s.cur a) →
        Transferred s op i.slot a m other t ∧ ∀ d', t.req s.cur d' = .idle ∧ t.req m d' = .idle)

/-- R73, R75, R289, R291: an instruction fetch whose P addresses ports sleeps until a selected neighbour writes, then
takes the word into I, at slot 0, and leaves P where it is; the writer's opcode completes with it, in one event (the
spec's decision D19, log entry 20). A pin or a device that the address selects completes it too. Where that is ready, or
its input floats, and one neighbour writes, one of the two completes the fetch (the model's choice, log entry 27); where
no neighbour writes and its input floats, it sleeps or completes (log entry 28). The request stands from the fetch step
on (D29, log entry 19). When a pin or a device is ready, and the word it gives, rest on the wake level, the resolution
of C1 (D14, log entry 23), on the detector (log entry 28), on the serdes link (log entry 25), on the bus latch (log
entry 29) and on the free word (D15, log entry 26). -/
def Obligations.FetchFromPort : Prop :=
  ∀ (s : State) (n : Node), s.turn = .node n → (s.node n).fetching = true →
    let a := (s.node n).p.extractLsb' 0 9
    place n a = .port →
    (NoOffer s n a false → ∃ t, step s = .next t ∧
      (SleepsIn (begins s n) .instr a t ∨ (PinSelected n a ∧ PinCompleted (begins s n) .instr .s0 a t)) ∧
      ((PinSelected n a → PinIdle s n a) →
        t = (begins s n).setCore { touched (s.node n) a with blocked := some .instr }) ∧
      (PinSelected n a → PinReady s n a → PinCompleted (begins s n) .instr .s0 a t)) ∧
    ∀ (m : Node) (d : Dir) (other : MemOp) (v : Word),
      selects a d = true → neighbour n d = some m → s.req m d = .writing v → (s.node m).blocked = some other →
      (∀ d' m', selects a d' = true → neighbour n d' = some m' → Offers s m' d' false → d' = d) →
      ∃ t, step s = .next t ∧
        (Transferred (begins s n) .instr .s0 a m other t ∨
          (PinSelected n a ∧ PinCompleted (begins s n) .instr .s0 a t)) ∧
        ((PinSelected n a → PinIdle s n a) →
          t.node n = fetched a v (s.node n) ∧ t.node m = finished other (s.node m).slot v (s.node m) ∧
            ∀ k, k ≠ n → k ≠ m → t.node k = s.node k)

/-- R286, R287, U6: a multiport access, by an opcode or by an instruction fetch, that two selected neighbours answer at
once has no outcome, and stops the run. -/
def Obligations.MultiportCollisionStops : Prop :=
  (∀ (i : Instr) (op : MemOp) (s : State) (d d' : Dir) (m m' : Node), memOpOf i = some op → d ≠ d' →
    selects (op.addr s.core) d = true → neighbour s.cur d = some m → Offers s m d op.isStore →
    selects (op.addr s.core) d' = true → neighbour s.cur d' = some m' → Offers s m' d' op.isStore →
    exec i s = .refused .portCollision) ∧
  ∀ (s : State) (n : Node) (d d' : Dir) (m m' : Node), s.turn = .node n → (s.node n).fetching = true → d ≠ d' →
    let a := (s.node n).p.extractLsb' 0 9
    selects a d = true → neighbour n d = some m → Offers s m d false →
    selects a d' = true → neighbour n d' = some m' → Offers s m' d' false →
    step s = .refused .portCollision

/-- R281, R386: two neighbours that both read, or both write, the port between them, and sleep on no other port, do so
after every step but a reset; their own steps go on for ever without a refusal; and a reset ends it. -/
def Obligations.BothReadOrWriteHang : Prop :=
  ∀ (s : State) (n m : Node) (d : Dir), s.SleepsInItsAccess → neighbour n d = some m → Hung s n m d →
    OnlyPort s n d → OnlyPort s m d →
    (s.turn = .node n ∨ s.turn = .node m → s.Goes) ∧
    ∀ t, step s = .next t →
      (s.turn ≠ .event .reset → Hung t n m d ∧ OnlyPort t n d ∧ OnlyPort t m d) ∧
      (s.turn = .event .reset → ¬ Hung t n m d)

/-- R276: a core that sleeps executes nothing: after any step, of whichever node and of the environment, it has woken or
all its registers are as they were. -/
def Obligations.SleepingCoreWaits : Prop :=
  ∀ (s t : State) (n : Node), s.SleepsInItsAccess → s.Asleep n → step s = .next t →
    ¬ t.Asleep n ∨ ((t.node n).blocked = (s.node n).blocked ∧ SameCore (t.node n) (s.node n))

/-! ### Rules about the whole machine -/

/-- R43: who writes what. Whatever step the chip makes, but for a reset, a register of a node that changes is one that
the opcode this node is executing, or its fetch, writes, be it in this node's own step or in the step that completes the
access it sleeps in; a device register, and the readiness of a serdes link (log entry 25), also change by the
environment's events for that device. -/
def Obligations.RegisterWriters : Prop :=
  ∀ (s t : State) (n : Node), s.SleepsInItsAccess → s.turn ≠ .event .reset → step s = .next t →
    let c := s.node n
    let e := t.node n
    (e.b ≠ c.b → ∃ sl, opcodeOf c = some (.bStore sl)) ∧
    (e.carry ≠ c.carry → c.p.getLsbD 9 = true ∧ ∃ sl, opcodeOf c = some (.plus sl)) ∧
    (e.a ≠ c.a → ∃ sl, opcodeOf c = some (.aStore sl) ∨ opcodeOf c = some (.fetchAInc sl) ∨
      opcodeOf c = some (.storeAInc sl) ∨ opcodeOf c = some (.plusStar sl)) ∧
    ((e.r, e.rs, e.rp) ≠ (c.r, c.rs, c.rp) →
      (∃ f, opcodeOf c = some (.call f) ∨ opcodeOf c = some (.next f)) ∨
      ∃ sl, opcodeOf c = some (.ret sl) ∨ opcodeOf c = some (.coroutine sl) ∨ opcodeOf c = some (.unext sl) ∨
        opcodeOf c = some (.push sl) ∨ opcodeOf c = some (.pop sl)) ∧
    (e.i ≠ c.i → c.fetching = true) ∧
    (e.p ≠ c.p → c.fetching = true ∨
      (∃ sl, opcodeOf c = some (.fetchPInc sl) ∨ opcodeOf c = some (.storePInc sl)) ∨
      ∃ i, opcodeOf c = some i ∧ IsTransfer i) ∧
    ((e.t, e.s, e.ds, e.dp) ≠ (c.t, c.s, c.ds, c.dp) →
      ∃ i, opcodeOf c = some i ∧ 8 ≤ i.opcode.toNat ∧ ∀ sl, i ≠ .nop sl) ∧
    (e.ram ≠ c.ram → ∃ i op k, opcodeOf c = some i ∧ memOpOf i = some op ∧ op.isStore = true ∧
      place n (op.addr c) = .ram k) ∧
    (e.iocsw ≠ c.iocsw → ∃ i op, opcodeOf c = some i ∧ memOpOf i = some op ∧ op.isStore = true ∧
      op.addr c = 0x15D#9) ∧
    (e.dev ≠ c.dev →
      (∃ levels, s.turn = .event (.busPins n levels)) ∨ (∃ k, s.turn = .event (.vco n k)) ∨
      (∃ bit, s.turn = .event (.serdesClock n bit)) ∨ (∃ w, s.turn = .event (.serdesWord n w)) ∨
      (∃ op, c.pending = some op ∧
        ((s.turn = .node n ∧ op.isStore = true ∧ op.addr c = 0x15D#9 ∧ OnBus n) ∨
          (s.turn = .node n ∧ op.isStore = true ∧ op.addr c = 0x141#9 ∧ (OnBus n ∨ OnSerdes n)) ∨
          ((s.turn = .node n ∨ c.blocked = some op) ∧ selects (op.addr c) .up = true ∧
            (OnBus n ∨ OnSerdes n))))) ∧
    (e.linkReady ≠ c.linkReady →
      (∃ w, s.turn = .event (.serdesWord n w)) ∨ s.turn = .event (.serdesSent n) ∨
      (∃ op, c.pending = some op ∧
        ((s.turn = .node n ∧ op.isStore = true ∧ (op.addr c = 0x15D#9 ∨ op.addr c = 0x141#9) ∧ OnSerdes n) ∨
          ((s.turn = .node n ∨ c.blocked = some op) ∧ PinSelected n (op.addr c)))))

/-- R36, R148, R222: P9, the Extended mode, changes only in a reset or when the node itself executes one of the seven
opcodes that transfer control. -/
def Obligations.ExtendedModeByTransfersOnly : Prop :=
  ∀ (s t : State) (n : Node), step s = .next t → (t.node n).extended ≠ (s.node n).extended →
    s.turn = .event .reset ∨ (s.turn = .node n ∧ ∃ i, opcodeOf (s.node n) = some i ∧ IsTransfer i)

/-- R60, R67, R68: no opcode changes a word of RAM or ROM of any node, but a store the RAM word at its own address, in
the node that executes it. -/
def Obligations.MemoryFrame : Prop :=
  ∀ (i : Instr) (s t : State), exec i s = .next t → ∀ (n : Node) (a : Addr), a.getLsbD 8 = false →
    ¬ (∃ op k, memOpOf i = some op ∧ op.isStore = true ∧ n = s.cur ∧
      place s.cur (op.addr s.core) = .ram k ∧ place n a = .ram k) →
    t.peek n a = s.peek n a

/-- R240, U3, U4, U6: a step has no fault, and it refuses only the three accesses to which the spec gives no meaning: a
store to ROM, an undefined I/O address, and a multiport access that the neighbours in two selected directions answer. -/
def Obligations.OnlyThreeStops : Prop :=
  ∀ s : State, s.Goes ∨ ∃ n op r, s.turn = .node n ∧ (s.node n).pending = some op ∧ step s = .refused r ∧
    ((r = .storeToRom ∧ op.isStore = true ∧ ∃ k, place n (op.addr (s.node n)) = .rom k) ∨
      (r = .undefinedIo ∧ place n (op.addr (s.node n)) = .undefined) ∨
      (r = .portCollision ∧ place n (op.addr (s.node n)) = .port ∧ ∃ d d' m m', d ≠ d' ∧
        selects (op.addr (s.node n)) d = true ∧ neighbour n d = some m ∧ Offers s m d op.isStore ∧
        selects (op.addr (s.node n)) d' = true ∧ neighbour n d' = some m' ∧ Offers s m' d' op.isStore))

/-! ### Pins and the environment -/

/-- R312, R313, R316, R317, R333, R341, R347: which nodes have the pins and their control bits, and what the bits of
IOCS do: the pin drivers of Table 6.2, the level of a pin, the VCO table and the DAC; and the levels the chip puts out:
the driver of each pin a node has, the bus latch on the bus pins, in output mode only, and bit 17 of the serdes register
on the data pad, while it sends only. That a level forced from outside wins over a driving node is the model's choice
(log entry 7); that the pins carry the latch bit for bit is the spec's decision D35 (log entry 29). -/
def Obligations.IocsFields : Prop :=
  (∀ n : Node,
    (pinRead n .p17 = true ↔ n ∈ ([1, 4, 10, 19, 20, 29, 31, 32, 33, 36, 37, 38, 39] : List Node)) ∧
    (pinRead n .p5 = true ↔ n ∈ ([4, 32] : List Node)) ∧ (pinRead n .p3 = true ↔ n ∈ ([4, 32] : List Node)) ∧
    (pinRead n .p1 = true ↔ n ∈ ([4, 10, 19, 20, 29, 32, 33] : List Node)) ∧
    (pinDriven n .p17 = true ↔ n ∈ ([4, 10, 19, 20, 29, 32, 33, 38] : List Node)) ∧
    (pinDriven n .p5 = true ↔ n ∈ ([4, 32] : List Node)) ∧ (pinDriven n .p3 = true ↔ n ∈ ([4, 32] : List Node)) ∧
    (pinDriven n .p1 = true ↔ n ∈ ([4, 10, 19, 20, 29, 32, 33] : List Node))) ∧
  (∀ (w : Word) (q : Pin), driverOf w q =
    if w.getLsbD (pinBitNumber q) then .output (w.getLsbD (pinBitNumber q - 1))
    else if w.getLsbD (pinBitNumber q - 1) then .weakPullDown else .input) ∧
  (∀ (s : State) (n : Node) (q : Pin), pinDriven n q = true → (s.node n).ext.at q = none →
    s.pinLevel n q = match driverOf (s.node n).iocsw q with
      | .input => none
      | .weakPullDown => some false
      | .output level => some level) ∧
  (∀ (s : State) (n : Node) (q : Pin) (level : Bool), (s.node n).ext.at q = some level →
    s.pinLevel n q = some level) ∧
  (∀ w : Word, vcoInput w = if w.getLsbD 14 then (if w.getLsbD 13 then .vss else .off)
    else if w.getLsbD 13 then .vdd else .pin) ∧
  (∀ w : Word, dacInput w = w.extractLsb' 0 9 ^^^ 0x155#9) ∧
  (∀ (s : State) (n : Node) (q : Pin), s.pinOutput n q =
    if pinDriven n q then some (driverOf (s.node n).iocsw q) else none) ∧
  (∀ (s : State) (n : Node), s.busOutputLevels n =
    if OnBus n ∧ (s.node n).iocsw.getLsbD 12 = true then some (s.node n).dev else none) ∧
  ∀ (s : State) (n : Node), s.serdesPad n =
    if OnSerdes n ∧ (s.node n).iocsw.getLsbD 17 = true then some ((s.node n).dev.getLsbD 17) else none

/-- R313, R316, R325, R326, R333, R338, R341 to R343, R402: the environment's steps. An ADC counter counts unless its
VCO is off, and wraps at 2^18; a serdes register shifts left, a received bit entering at bit 0; a word that arrives
while the node receives is in the register and ready, and the word is sent while the node sends, which leaves the
register as it is (the model's choice, log entry 25); the bus latch follows its pins in input mode, bit for bit (D35,
log entry 29); a pin takes the level forced on it (log entry 7), and the detector follows the wake input, whose wake
level is the resolution of C1 (D14, log entry 23; of an input that floats nothing is said, log entry 28). A pin that
reaches its wake level, a word that arrives and a word that is sent complete the access in which the node sleeps on
them, in that very event (R289, R325; log entry 27; the free word is D15, log entry 26, and what completes UP on a
serdes node log entry 25). No other node and no other field of the node changes. -/
def Obligations.DeviceClocks : Prop :=
  (∀ (s : State) (n : Node) (k : Nat), s.turn = .event (.vco n k) → Analog n →
    ∃ t, step s = .next t ∧ (∀ m, m ≠ n → t.node m = s.node m) ∧
      t.node n = { s.node n with
        dev := if (s.node n).iocsw.getLsbD 14 = true ∧ (s.node n).iocsw.getLsbD 13 = false then (s.node n).dev
          else BitVec.ofNat 18 ((s.node n).dev.toNat + k) }) ∧
  (∀ (s : State) (n : Node) (bit : Bool), s.turn = .event (.serdesClock n bit) → OnSerdes n →
    ∃ (t : State) (x : Bool), step s = .next t ∧ (∀ m, m ≠ n → t.node m = s.node m) ∧
      t.node n = { s.node n with dev := (s.node n).dev.extractLsb' 0 17 ++ BitVec.ofBool x } ∧
      ((s.node n).iocsw.getLsbD 17 = false → x = bit)) ∧
  (∀ (s : State) (n : Node) (w : Word), s.turn = .event (.serdesWord n w) → OnSerdes n →
    ∃ t, step s = .next t ∧ (∀ m, m ≠ n → t.node m = s.node m) ∧
      if (s.node n).iocsw.getLsbD 17 then t.node n = s.node n
      else WokenFrom t n { s.node n with dev := w, linkReady := true }) ∧
  (∀ (s : State) (n : Node), s.turn = .event (.serdesSent n) → OnSerdes n →
    ∃ t, step s = .next t ∧ (∀ m, m ≠ n → t.node m = s.node m) ∧
      if (s.node n).iocsw.getLsbD 17 then WokenFrom t n { s.node n with linkReady := true }
      else t.node n = s.node n) ∧
  (∀ (s : State) (n : Node) (levels : Option Word), s.turn = .event (.busPins n levels) → OnBus n →
    ∃ t dev, step s = .next t ∧ (∀ m, m ≠ n → t.node m = s.node m) ∧
      t.node n = { s.node n with ext := { (s.node n).ext with bus := levels }, dev := dev } ∧
      ((s.node n).iocsw.getLsbD 12 = true → dev = (s.node n).dev) ∧
      ∀ pins, (s.node n).iocsw.getLsbD 12 = false → levels = some pins → dev = pins) ∧
  ∀ (s : State) (n : Node) (q : Pin) (level : Option Bool), s.turn = .event (.pin n q level) → pinRead n q = true →
    ∃ (t : State) (ext : Ext), step s = .next t ∧ (∀ m, m ≠ n → t.node m = s.node m) ∧
      (∀ q', ext.at q' = if q' = q then level else (s.node n).ext.at q') ∧ ext.bus = (s.node n).ext.bus ∧
      InputMoved t n { s.node n with ext := ext }
end

