-- ==== Sys2Proof/Laws/State.lean ====
section
/-! SUPPORT. One small lemma per field per named update of a node, and the laws of reading and replacing nodes. -/

namespace Sys2Proof.Machine

/-! ### Nodes of the chip -/

@[simp] theorem State.node_setNode_same (s : State) (n : Node) (c : NodeState) : (s.setNode n c).node n = c := by
  simp [State.node, State.setNode]

theorem State.node_setNode_ne (s : State) {n m : Node} (c : NodeState) (h : m ≠ n) :
    (s.setNode n c).node m = s.node m := by
  have h' : n.val ≠ m.val := fun e => h (Fin.ext e.symm)
  simp [State.node, State.setNode, h']

theorem State.node_setNode (s : State) (n m : Node) (c : NodeState) :
    (s.setNode n c).node m = if m = n then c else s.node m := by
  by_cases h : m = n
  · subst h; simp
  · simp [h, State.node_setNode_ne s c h]

@[simp] theorem State.setNode_node (s : State) (n : Node) : s.setNode n (s.node n) = s := by
  simp [State.node, State.setNode]

@[simp] theorem State.setNode_setNode (s : State) (n : Node) (c d : NodeState) :
    (s.setNode n c).setNode n d = s.setNode n d := by
  simp [State.setNode]

@[simp] theorem State.cur_setNode (s : State) (n : Node) (c : NodeState) : (s.setNode n c).cur = s.cur := rfl
@[simp] theorem State.agenda_setNode (s : State) (n : Node) (c : NodeState) : (s.setNode n c).agenda = s.agenda := rfl
@[simp] theorem State.tick_setNode (s : State) (n : Node) (c : NodeState) : (s.setNode n c).tick = s.tick := rfl
@[simp] theorem State.epoch_setNode (s : State) (n : Node) (c : NodeState) : (s.setNode n c).epoch = s.epoch := rfl
@[simp] theorem State.cur_setCore (s : State) (c : NodeState) : (s.setCore c).cur = s.cur := rfl
@[simp] theorem State.agenda_setCore (s : State) (c : NodeState) : (s.setCore c).agenda = s.agenda := rfl
@[simp] theorem State.tick_setCore (s : State) (c : NodeState) : (s.setCore c).tick = s.tick := rfl
@[simp] theorem State.epoch_setCore (s : State) (c : NodeState) : (s.setCore c).epoch = s.epoch := rfl
@[simp] theorem State.core_setCore (s : State) (c : NodeState) : (s.setCore c).core = c := by
  simp [State.core, State.setCore]

theorem State.core_setNode_ne (s : State) {m : Node} (c : NodeState) (h : m ≠ s.cur) :
    (s.setNode m c).core = s.core :=
  State.node_setNode_ne s c (Ne.symm h)

theorem State.node_setCore (s : State) (m : Node) (c : NodeState) :
    (s.setCore c).node m = if m = s.cur then c else s.node m :=
  State.node_setNode s s.cur m c

theorem State.node_setCore_ne (s : State) {m : Node} (c : NodeState) (h : m ≠ s.cur) :
    (s.setCore c).node m = s.node m :=
  State.node_setNode_ne s c h

@[simp] theorem State.node_cur (s : State) : s.node s.cur = s.core := rfl

@[simp] theorem State.node_setCore_cur (s : State) (c : NodeState) : (s.setCore c).node s.cur = c :=
  State.core_setCore s c

@[simp] theorem State.setCore_setCore (s : State) (c d : NodeState) : (s.setCore c).setCore d = s.setCore d := by
  simp [State.setCore, State.setNode]

@[simp] theorem State.setCore_core (s : State) : s.setCore s.core = s := by
  cases s
  simp [State.setCore, State.setNode, State.core, State.node]

/-- Two states with the same nodes and the same fields of the model's own are equal. -/
theorem State.ext_nodes {s t : State} (hn : ∀ n, s.node n = t.node n) (hc : s.cur = t.cur)
    (ha : s.agenda = t.agenda) (ht : s.tick = t.tick) (he : s.epoch = t.epoch) : s = t := by
  cases s; cases t
  simp only [State.mk.injEq] at *
  exact ⟨Vector.ext fun i hi => hn ⟨i, hi⟩, hc, ha, ht, he⟩

/-! ### `dpush` -/

@[simp] theorem NodeState.dpush_t (c : NodeState) (v : Word) : (c.dpush v).t = v := rfl
@[simp] theorem NodeState.dpush_s (c : NodeState) (v : Word) : (c.dpush v).s = c.t := rfl
@[simp] theorem NodeState.dpush_ds (c : NodeState) (v : Word) : (c.dpush v).ds = c.ds.set (c.dp + 1).val c.s := rfl
@[simp] theorem NodeState.dpush_dp (c : NodeState) (v : Word) : (c.dpush v).dp = c.dp + 1 := rfl
@[simp] theorem NodeState.dpush_r (c : NodeState) (v : Word) : (c.dpush v).r = c.r := rfl
@[simp] theorem NodeState.dpush_rs (c : NodeState) (v : Word) : (c.dpush v).rs = c.rs := rfl
@[simp] theorem NodeState.dpush_rp (c : NodeState) (v : Word) : (c.dpush v).rp = c.rp := rfl
@[simp] theorem NodeState.dpush_a (c : NodeState) (v : Word) : (c.dpush v).a = c.a := rfl
@[simp] theorem NodeState.dpush_b (c : NodeState) (v : Word) : (c.dpush v).b = c.b := rfl
@[simp] theorem NodeState.dpush_p (c : NodeState) (v : Word) : (c.dpush v).p = c.p := rfl
@[simp] theorem NodeState.dpush_i (c : NodeState) (v : Word) : (c.dpush v).i = c.i := rfl
@[simp] theorem NodeState.dpush_slot (c : NodeState) (v : Word) : (c.dpush v).slot = c.slot := rfl
@[simp] theorem NodeState.dpush_carry (c : NodeState) (v : Word) : (c.dpush v).carry = c.carry := rfl
@[simp] theorem NodeState.dpush_iocsw (c : NodeState) (v : Word) : (c.dpush v).iocsw = c.iocsw := rfl
@[simp] theorem NodeState.dpush_ram (c : NodeState) (v : Word) : (c.dpush v).ram = c.ram := rfl
@[simp] theorem NodeState.dpush_settled (c : NodeState) (v : Word) : (c.dpush v).settled = c.settled := rfl
@[simp] theorem NodeState.dpush_disarmedBy (c : NodeState) (v : Word) : (c.dpush v).disarmedBy = c.disarmedBy := rfl
@[simp] theorem NodeState.dpush_dev (c : NodeState) (v : Word) : (c.dpush v).dev = c.dev := rfl
@[simp] theorem NodeState.dpush_linkReady (c : NodeState) (v : Word) : (c.dpush v).linkReady = c.linkReady := rfl
@[simp] theorem NodeState.dpush_fetching (c : NodeState) (v : Word) : (c.dpush v).fetching = c.fetching := rfl
@[simp] theorem NodeState.dpush_blocked (c : NodeState) (v : Word) : (c.dpush v).blocked = c.blocked := rfl
@[simp] theorem NodeState.dpush_ext (c : NodeState) (v : Word) : (c.dpush v).ext = c.ext := rfl

/-! ### `dpop` -/

@[simp] theorem NodeState.dpop_t (c : NodeState) : (c.dpop).t = c.s := rfl
@[simp] theorem NodeState.dpop_s (c : NodeState) : (c.dpop).s = c.ds[c.dp] := rfl
@[simp] theorem NodeState.dpop_ds (c : NodeState) : (c.dpop).ds = c.ds := rfl
@[simp] theorem NodeState.dpop_dp (c : NodeState) : (c.dpop).dp = c.dp - 1 := rfl
@[simp] theorem NodeState.dpop_r (c : NodeState) : (c.dpop).r = c.r := rfl
@[simp] theorem NodeState.dpop_rs (c : NodeState) : (c.dpop).rs = c.rs := rfl
@[simp] theorem NodeState.dpop_rp (c : NodeState) : (c.dpop).rp = c.rp := rfl
@[simp] theorem NodeState.dpop_a (c : NodeState) : (c.dpop).a = c.a := rfl
@[simp] theorem NodeState.dpop_b (c : NodeState) : (c.dpop).b = c.b := rfl
@[simp] theorem NodeState.dpop_p (c : NodeState) : (c.dpop).p = c.p := rfl
@[simp] theorem NodeState.dpop_i (c : NodeState) : (c.dpop).i = c.i := rfl
@[simp] theorem NodeState.dpop_slot (c : NodeState) : (c.dpop).slot = c.slot := rfl
@[simp] theorem NodeState.dpop_carry (c : NodeState) : (c.dpop).carry = c.carry := rfl
@[simp] theorem NodeState.dpop_iocsw (c : NodeState) : (c.dpop).iocsw = c.iocsw := rfl
@[simp] theorem NodeState.dpop_ram (c : NodeState) : (c.dpop).ram = c.ram := rfl
@[simp] theorem NodeState.dpop_settled (c : NodeState) : (c.dpop).settled = c.settled := rfl
@[simp] theorem NodeState.dpop_disarmedBy (c : NodeState) : (c.dpop).disarmedBy = c.disarmedBy := rfl
@[simp] theorem NodeState.dpop_dev (c : NodeState) : (c.dpop).dev = c.dev := rfl
@[simp] theorem NodeState.dpop_linkReady (c : NodeState) : (c.dpop).linkReady = c.linkReady := rfl
@[simp] theorem NodeState.dpop_fetching (c : NodeState) : (c.dpop).fetching = c.fetching := rfl
@[simp] theorem NodeState.dpop_blocked (c : NodeState) : (c.dpop).blocked = c.blocked := rfl
@[simp] theorem NodeState.dpop_ext (c : NodeState) : (c.dpop).ext = c.ext := rfl

/-! ### `rpush` -/

@[simp] theorem NodeState.rpush_t (c : NodeState) (v : Word) : (c.rpush v).t = c.t := rfl
@[simp] theorem NodeState.rpush_s (c : NodeState) (v : Word) : (c.rpush v).s = c.s := rfl
@[simp] theorem NodeState.rpush_ds (c : NodeState) (v : Word) : (c.rpush v).ds = c.ds := rfl
@[simp] theorem NodeState.rpush_dp (c : NodeState) (v : Word) : (c.rpush v).dp = c.dp := rfl
@[simp] theorem NodeState.rpush_r (c : NodeState) (v : Word) : (c.rpush v).r = v := rfl
@[simp] theorem NodeState.rpush_rs (c : NodeState) (v : Word) : (c.rpush v).rs = c.rs.set (c.rp + 1).val c.r := rfl
@[simp] theorem NodeState.rpush_rp (c : NodeState) (v : Word) : (c.rpush v).rp = c.rp + 1 := rfl
@[simp] theorem NodeState.rpush_a (c : NodeState) (v : Word) : (c.rpush v).a = c.a := rfl
@[simp] theorem NodeState.rpush_b (c : NodeState) (v : Word) : (c.rpush v).b = c.b := rfl
@[simp] theorem NodeState.rpush_p (c : NodeState) (v : Word) : (c.rpush v).p = c.p := rfl
@[simp] theorem NodeState.rpush_i (c : NodeState) (v : Word) : (c.rpush v).i = c.i := rfl
@[simp] theorem NodeState.rpush_slot (c : NodeState) (v : Word) : (c.rpush v).slot = c.slot := rfl
@[simp] theorem NodeState.rpush_carry (c : NodeState) (v : Word) : (c.rpush v).carry = c.carry := rfl
@[simp] theorem NodeState.rpush_iocsw (c : NodeState) (v : Word) : (c.rpush v).iocsw = c.iocsw := rfl
@[simp] theorem NodeState.rpush_ram (c : NodeState) (v : Word) : (c.rpush v).ram = c.ram := rfl
@[simp] theorem NodeState.rpush_settled (c : NodeState) (v : Word) : (c.rpush v).settled = c.settled := rfl
@[simp] theorem NodeState.rpush_disarmedBy (c : NodeState) (v : Word) : (c.rpush v).disarmedBy = c.disarmedBy := rfl
@[simp] theorem NodeState.rpush_dev (c : NodeState) (v : Word) : (c.rpush v).dev = c.dev := rfl
@[simp] theorem NodeState.rpush_linkReady (c : NodeState) (v : Word) : (c.rpush v).linkReady = c.linkReady := rfl
@[simp] theorem NodeState.rpush_fetching (c : NodeState) (v : Word) : (c.rpush v).fetching = c.fetching := rfl
@[simp] theorem NodeState.rpush_blocked (c : NodeState) (v : Word) : (c.rpush v).blocked = c.blocked := rfl
@[simp] theorem NodeState.rpush_ext (c : NodeState) (v : Word) : (c.rpush v).ext = c.ext := rfl

/-! ### `rpop` -/

@[simp] theorem NodeState.rpop_t (c : NodeState) : (c.rpop).t = c.t := rfl
@[simp] theorem NodeState.rpop_s (c : NodeState) : (c.rpop).s = c.s := rfl
@[simp] theorem NodeState.rpop_ds (c : NodeState) : (c.rpop).ds = c.ds := rfl
@[simp] theorem NodeState.rpop_dp (c : NodeState) : (c.rpop).dp = c.dp := rfl
@[simp] theorem NodeState.rpop_r (c : NodeState) : (c.rpop).r = c.rs[c.rp] := rfl
@[simp] theorem NodeState.rpop_rs (c : NodeState) : (c.rpop).rs = c.rs := rfl
@[simp] theorem NodeState.rpop_rp (c : NodeState) : (c.rpop).rp = c.rp - 1 := rfl
@[simp] theorem NodeState.rpop_a (c : NodeState) : (c.rpop).a = c.a := rfl
@[simp] theorem NodeState.rpop_b (c : NodeState) : (c.rpop).b = c.b := rfl
@[simp] theorem NodeState.rpop_p (c : NodeState) : (c.rpop).p = c.p := rfl
@[simp] theorem NodeState.rpop_i (c : NodeState) : (c.rpop).i = c.i := rfl
@[simp] theorem NodeState.rpop_slot (c : NodeState) : (c.rpop).slot = c.slot := rfl
@[simp] theorem NodeState.rpop_carry (c : NodeState) : (c.rpop).carry = c.carry := rfl
@[simp] theorem NodeState.rpop_iocsw (c : NodeState) : (c.rpop).iocsw = c.iocsw := rfl
@[simp] theorem NodeState.rpop_ram (c : NodeState) : (c.rpop).ram = c.ram := rfl
@[simp] theorem NodeState.rpop_settled (c : NodeState) : (c.rpop).settled = c.settled := rfl
@[simp] theorem NodeState.rpop_disarmedBy (c : NodeState) : (c.rpop).disarmedBy = c.disarmedBy := rfl
@[simp] theorem NodeState.rpop_dev (c : NodeState) : (c.rpop).dev = c.dev := rfl
@[simp] theorem NodeState.rpop_linkReady (c : NodeState) : (c.rpop).linkReady = c.linkReady := rfl
@[simp] theorem NodeState.rpop_fetching (c : NodeState) : (c.rpop).fetching = c.fetching := rfl
@[simp] theorem NodeState.rpop_blocked (c : NodeState) : (c.rpop).blocked = c.blocked := rfl
@[simp] theorem NodeState.rpop_ext (c : NodeState) : (c.rpop).ext = c.ext := rfl

/-! ### `helps` -/

@[simp] theorem NodeState.helps_t (c : NodeState) : (c.helps).t = c.t := rfl
@[simp] theorem NodeState.helps_s (c : NodeState) : (c.helps).s = c.s := rfl
@[simp] theorem NodeState.helps_ds (c : NodeState) : (c.helps).ds = c.ds := rfl
@[simp] theorem NodeState.helps_dp (c : NodeState) : (c.helps).dp = c.dp := rfl
@[simp] theorem NodeState.helps_r (c : NodeState) : (c.helps).r = c.r := rfl
@[simp] theorem NodeState.helps_rs (c : NodeState) : (c.helps).rs = c.rs := rfl
@[simp] theorem NodeState.helps_rp (c : NodeState) : (c.helps).rp = c.rp := rfl
@[simp] theorem NodeState.helps_a (c : NodeState) : (c.helps).a = c.a := rfl
@[simp] theorem NodeState.helps_b (c : NodeState) : (c.helps).b = c.b := rfl
@[simp] theorem NodeState.helps_p (c : NodeState) : (c.helps).p = c.p := rfl
@[simp] theorem NodeState.helps_i (c : NodeState) : (c.helps).i = c.i := rfl
@[simp] theorem NodeState.helps_slot (c : NodeState) : (c.helps).slot = c.slot := rfl
@[simp] theorem NodeState.helps_carry (c : NodeState) : (c.helps).carry = c.carry := rfl
@[simp] theorem NodeState.helps_iocsw (c : NodeState) : (c.helps).iocsw = c.iocsw := rfl
@[simp] theorem NodeState.helps_ram (c : NodeState) : (c.helps).ram = c.ram := rfl
@[simp] theorem NodeState.helps_settled (c : NodeState) : (c.helps).settled = true := rfl
@[simp] theorem NodeState.helps_disarmedBy (c : NodeState) : (c.helps).disarmedBy = c.disarmedBy := rfl
@[simp] theorem NodeState.helps_dev (c : NodeState) : (c.helps).dev = c.dev := rfl
@[simp] theorem NodeState.helps_linkReady (c : NodeState) : (c.helps).linkReady = c.linkReady := rfl
@[simp] theorem NodeState.helps_fetching (c : NodeState) : (c.helps).fetching = c.fetching := rfl
@[simp] theorem NodeState.helps_blocked (c : NodeState) : (c.helps).blocked = c.blocked := rfl
@[simp] theorem NodeState.helps_ext (c : NodeState) : (c.helps).ext = c.ext := rfl

/-! ### `unsettles` -/

@[simp] theorem NodeState.unsettles_t (c : NodeState) : (c.unsettles).t = c.t := rfl
@[simp] theorem NodeState.unsettles_s (c : NodeState) : (c.unsettles).s = c.s := rfl
@[simp] theorem NodeState.unsettles_ds (c : NodeState) : (c.unsettles).ds = c.ds := rfl
@[simp] theorem NodeState.unsettles_dp (c : NodeState) : (c.unsettles).dp = c.dp := rfl
@[simp] theorem NodeState.unsettles_r (c : NodeState) : (c.unsettles).r = c.r := rfl
@[simp] theorem NodeState.unsettles_rs (c : NodeState) : (c.unsettles).rs = c.rs := rfl
@[simp] theorem NodeState.unsettles_rp (c : NodeState) : (c.unsettles).rp = c.rp := rfl
@[simp] theorem NodeState.unsettles_a (c : NodeState) : (c.unsettles).a = c.a := rfl
@[simp] theorem NodeState.unsettles_b (c : NodeState) : (c.unsettles).b = c.b := rfl
@[simp] theorem NodeState.unsettles_p (c : NodeState) : (c.unsettles).p = c.p := rfl
@[simp] theorem NodeState.unsettles_i (c : NodeState) : (c.unsettles).i = c.i := rfl
@[simp] theorem NodeState.unsettles_slot (c : NodeState) : (c.unsettles).slot = c.slot := rfl
@[simp] theorem NodeState.unsettles_carry (c : NodeState) : (c.unsettles).carry = c.carry := rfl
@[simp] theorem NodeState.unsettles_iocsw (c : NodeState) : (c.unsettles).iocsw = c.iocsw := rfl
@[simp] theorem NodeState.unsettles_ram (c : NodeState) : (c.unsettles).ram = c.ram := rfl
@[simp] theorem NodeState.unsettles_settled (c : NodeState) : (c.unsettles).settled = false := rfl
@[simp] theorem NodeState.unsettles_disarmedBy (c : NodeState) : (c.unsettles).disarmedBy = c.disarmedBy := rfl
@[simp] theorem NodeState.unsettles_dev (c : NodeState) : (c.unsettles).dev = c.dev := rfl
@[simp] theorem NodeState.unsettles_linkReady (c : NodeState) : (c.unsettles).linkReady = c.linkReady := rfl
@[simp] theorem NodeState.unsettles_fetching (c : NodeState) : (c.unsettles).fetching = c.fetching := rfl
@[simp] theorem NodeState.unsettles_blocked (c : NodeState) : (c.unsettles).blocked = c.blocked := rfl
@[simp] theorem NodeState.unsettles_ext (c : NodeState) : (c.unsettles).ext = c.ext := rfl

/-! ### `transfer` -/

@[simp] theorem NodeState.transfer_t (c : NodeState) (target : PAddr) : (c.transfer target).t = c.t := rfl
@[simp] theorem NodeState.transfer_s (c : NodeState) (target : PAddr) : (c.transfer target).s = c.s := rfl
@[simp] theorem NodeState.transfer_ds (c : NodeState) (target : PAddr) : (c.transfer target).ds = c.ds := rfl
@[simp] theorem NodeState.transfer_dp (c : NodeState) (target : PAddr) : (c.transfer target).dp = c.dp := rfl
@[simp] theorem NodeState.transfer_r (c : NodeState) (target : PAddr) : (c.transfer target).r = c.r := rfl
@[simp] theorem NodeState.transfer_rs (c : NodeState) (target : PAddr) : (c.transfer target).rs = c.rs := rfl
@[simp] theorem NodeState.transfer_rp (c : NodeState) (target : PAddr) : (c.transfer target).rp = c.rp := rfl
@[simp] theorem NodeState.transfer_a (c : NodeState) (target : PAddr) : (c.transfer target).a = c.a := rfl
@[simp] theorem NodeState.transfer_b (c : NodeState) (target : PAddr) : (c.transfer target).b = c.b := rfl
@[simp] theorem NodeState.transfer_p (c : NodeState) (target : PAddr) : (c.transfer target).p = target := rfl
@[simp] theorem NodeState.transfer_i (c : NodeState) (target : PAddr) : (c.transfer target).i = c.i := rfl
@[simp] theorem NodeState.transfer_slot (c : NodeState) (target : PAddr) : (c.transfer target).slot = c.slot := rfl
@[simp] theorem NodeState.transfer_carry (c : NodeState) (target : PAddr) : (c.transfer target).carry = c.carry := rfl
@[simp] theorem NodeState.transfer_iocsw (c : NodeState) (target : PAddr) : (c.transfer target).iocsw = c.iocsw := rfl
@[simp] theorem NodeState.transfer_ram (c : NodeState) (target : PAddr) : (c.transfer target).ram = c.ram := rfl
@[simp] theorem NodeState.transfer_settled (c : NodeState) (target : PAddr) : (c.transfer target).settled = (target.getLsbD 9 == c.p.getLsbD 9) := rfl
@[simp] theorem NodeState.transfer_disarmedBy (c : NodeState) (target : PAddr) : (c.transfer target).disarmedBy = c.disarmedBy := rfl
@[simp] theorem NodeState.transfer_dev (c : NodeState) (target : PAddr) : (c.transfer target).dev = c.dev := rfl
@[simp] theorem NodeState.transfer_linkReady (c : NodeState) (target : PAddr) : (c.transfer target).linkReady = c.linkReady := rfl
@[simp] theorem NodeState.transfer_fetching (c : NodeState) (target : PAddr) : (c.transfer target).fetching = true := rfl
@[simp] theorem NodeState.transfer_blocked (c : NodeState) (target : PAddr) : (c.transfer target).blocked = c.blocked := rfl
@[simp] theorem NodeState.transfer_ext (c : NodeState) (target : PAddr) : (c.transfer target).ext = c.ext := rfl

/-! ### `fallThrough` -/

@[simp] theorem NodeState.fallThrough_t (c : NodeState) : (c.fallThrough).t = c.t := rfl
@[simp] theorem NodeState.fallThrough_s (c : NodeState) : (c.fallThrough).s = c.s := rfl
@[simp] theorem NodeState.fallThrough_ds (c : NodeState) : (c.fallThrough).ds = c.ds := rfl
@[simp] theorem NodeState.fallThrough_dp (c : NodeState) : (c.fallThrough).dp = c.dp := rfl
@[simp] theorem NodeState.fallThrough_r (c : NodeState) : (c.fallThrough).r = c.r := rfl
@[simp] theorem NodeState.fallThrough_rs (c : NodeState) : (c.fallThrough).rs = c.rs := rfl
@[simp] theorem NodeState.fallThrough_rp (c : NodeState) : (c.fallThrough).rp = c.rp := rfl
@[simp] theorem NodeState.fallThrough_a (c : NodeState) : (c.fallThrough).a = c.a := rfl
@[simp] theorem NodeState.fallThrough_b (c : NodeState) : (c.fallThrough).b = c.b := rfl
@[simp] theorem NodeState.fallThrough_p (c : NodeState) : (c.fallThrough).p = c.p := rfl
@[simp] theorem NodeState.fallThrough_i (c : NodeState) : (c.fallThrough).i = c.i := rfl
@[simp] theorem NodeState.fallThrough_slot (c : NodeState) : (c.fallThrough).slot = c.slot := rfl
@[simp] theorem NodeState.fallThrough_carry (c : NodeState) : (c.fallThrough).carry = c.carry := rfl
@[simp] theorem NodeState.fallThrough_iocsw (c : NodeState) : (c.fallThrough).iocsw = c.iocsw := rfl
@[simp] theorem NodeState.fallThrough_ram (c : NodeState) : (c.fallThrough).ram = c.ram := rfl
@[simp] theorem NodeState.fallThrough_settled (c : NodeState) : (c.fallThrough).settled = true := rfl
@[simp] theorem NodeState.fallThrough_disarmedBy (c : NodeState) : (c.fallThrough).disarmedBy = c.disarmedBy := rfl
@[simp] theorem NodeState.fallThrough_dev (c : NodeState) : (c.fallThrough).dev = c.dev := rfl
@[simp] theorem NodeState.fallThrough_linkReady (c : NodeState) : (c.fallThrough).linkReady = c.linkReady := rfl
@[simp] theorem NodeState.fallThrough_fetching (c : NodeState) : (c.fallThrough).fetching = true := rfl
@[simp] theorem NodeState.fallThrough_blocked (c : NodeState) : (c.fallThrough).blocked = c.blocked := rfl
@[simp] theorem NodeState.fallThrough_ext (c : NodeState) : (c.fallThrough).ext = c.ext := rfl

/-! ### `advance` -/

@[simp] theorem NodeState.advance_t (c : NodeState) (sl : Slot) : (c.advance sl).t = c.t := by cases sl <;> rfl
@[simp] theorem NodeState.advance_s (c : NodeState) (sl : Slot) : (c.advance sl).s = c.s := by cases sl <;> rfl
@[simp] theorem NodeState.advance_ds (c : NodeState) (sl : Slot) : (c.advance sl).ds = c.ds := by cases sl <;> rfl
@[simp] theorem NodeState.advance_dp (c : NodeState) (sl : Slot) : (c.advance sl).dp = c.dp := by cases sl <;> rfl
@[simp] theorem NodeState.advance_r (c : NodeState) (sl : Slot) : (c.advance sl).r = c.r := by cases sl <;> rfl
@[simp] theorem NodeState.advance_rs (c : NodeState) (sl : Slot) : (c.advance sl).rs = c.rs := by cases sl <;> rfl
@[simp] theorem NodeState.advance_rp (c : NodeState) (sl : Slot) : (c.advance sl).rp = c.rp := by cases sl <;> rfl
@[simp] theorem NodeState.advance_a (c : NodeState) (sl : Slot) : (c.advance sl).a = c.a := by cases sl <;> rfl
@[simp] theorem NodeState.advance_b (c : NodeState) (sl : Slot) : (c.advance sl).b = c.b := by cases sl <;> rfl
@[simp] theorem NodeState.advance_p (c : NodeState) (sl : Slot) : (c.advance sl).p = c.p := by cases sl <;> rfl
@[simp] theorem NodeState.advance_i (c : NodeState) (sl : Slot) : (c.advance sl).i = c.i := by cases sl <;> rfl
@[simp] theorem NodeState.advance_carry (c : NodeState) (sl : Slot) : (c.advance sl).carry = c.carry := by cases sl <;> rfl
@[simp] theorem NodeState.advance_iocsw (c : NodeState) (sl : Slot) : (c.advance sl).iocsw = c.iocsw := by cases sl <;> rfl
@[simp] theorem NodeState.advance_ram (c : NodeState) (sl : Slot) : (c.advance sl).ram = c.ram := by cases sl <;> rfl
@[simp] theorem NodeState.advance_settled (c : NodeState) (sl : Slot) : (c.advance sl).settled = c.settled := by cases sl <;> rfl
@[simp] theorem NodeState.advance_disarmedBy (c : NodeState) (sl : Slot) : (c.advance sl).disarmedBy = c.disarmedBy := by cases sl <;> rfl
@[simp] theorem NodeState.advance_dev (c : NodeState) (sl : Slot) : (c.advance sl).dev = c.dev := by cases sl <;> rfl
@[simp] theorem NodeState.advance_linkReady (c : NodeState) (sl : Slot) : (c.advance sl).linkReady = c.linkReady := by cases sl <;> rfl
@[simp] theorem NodeState.advance_blocked (c : NodeState) (sl : Slot) : (c.advance sl).blocked = c.blocked := by cases sl <;> rfl
@[simp] theorem NodeState.advance_ext (c : NodeState) (sl : Slot) : (c.advance sl).ext = c.ext := by cases sl <;> rfl

/-! ### `touchBus` -/

@[simp] theorem NodeState.touchBus_t (c : NodeState) (x : Addr) : (c.touchBus x).t = c.t := by
  unfold NodeState.touchBus; split <;> rfl
@[simp] theorem NodeState.touchBus_s (c : NodeState) (x : Addr) : (c.touchBus x).s = c.s := by
  unfold NodeState.touchBus; split <;> rfl
@[simp] theorem NodeState.touchBus_ds (c : NodeState) (x : Addr) : (c.touchBus x).ds = c.ds := by
  unfold NodeState.touchBus; split <;> rfl
@[simp] theorem NodeState.touchBus_dp (c : NodeState) (x : Addr) : (c.touchBus x).dp = c.dp := by
  unfold NodeState.touchBus; split <;> rfl
@[simp] theorem NodeState.touchBus_r (c : NodeState) (x : Addr) : (c.touchBus x).r = c.r := by
  unfold NodeState.touchBus; split <;> rfl
@[simp] theorem NodeState.touchBus_rs (c : NodeState) (x : Addr) : (c.touchBus x).rs = c.rs := by
  unfold NodeState.touchBus; split <;> rfl
@[simp] theorem NodeState.touchBus_rp (c : NodeState) (x : Addr) : (c.touchBus x).rp = c.rp := by
  unfold NodeState.touchBus; split <;> rfl
@[simp] theorem NodeState.touchBus_a (c : NodeState) (x : Addr) : (c.touchBus x).a = c.a := by
  unfold NodeState.touchBus; split <;> rfl
@[simp] theorem NodeState.touchBus_b (c : NodeState) (x : Addr) : (c.touchBus x).b = c.b := by
  unfold NodeState.touchBus; split <;> rfl
@[simp] theorem NodeState.touchBus_p (c : NodeState) (x : Addr) : (c.touchBus x).p = c.p := by
  unfold NodeState.touchBus; split <;> rfl
@[simp] theorem NodeState.touchBus_i (c : NodeState) (x : Addr) : (c.touchBus x).i = c.i := by
  unfold NodeState.touchBus; split <;> rfl
@[simp] theorem NodeState.touchBus_slot (c : NodeState) (x : Addr) : (c.touchBus x).slot = c.slot := by
  unfold NodeState.touchBus; split <;> rfl
@[simp] theorem NodeState.touchBus_carry (c : NodeState) (x : Addr) : (c.touchBus x).carry = c.carry := by
  unfold NodeState.touchBus; split <;> rfl
@[simp] theorem NodeState.touchBus_iocsw (c : NodeState) (x : Addr) : (c.touchBus x).iocsw = c.iocsw := by
  unfold NodeState.touchBus; split <;> rfl
@[simp] theorem NodeState.touchBus_ram (c : NodeState) (x : Addr) : (c.touchBus x).ram = c.ram := by
  unfold NodeState.touchBus; split <;> rfl
@[simp] theorem NodeState.touchBus_settled (c : NodeState) (x : Addr) : (c.touchBus x).settled = c.settled := by
  unfold NodeState.touchBus; split <;> rfl
@[simp] theorem NodeState.touchBus_dev (c : NodeState) (x : Addr) : (c.touchBus x).dev = c.dev := by
  unfold NodeState.touchBus; split <;> rfl
@[simp] theorem NodeState.touchBus_linkReady (c : NodeState) (x : Addr) : (c.touchBus x).linkReady = c.linkReady := by
  unfold NodeState.touchBus; split <;> rfl
@[simp] theorem NodeState.touchBus_fetching (c : NodeState) (x : Addr) : (c.touchBus x).fetching = c.fetching := by
  unfold NodeState.touchBus; split <;> rfl
@[simp] theorem NodeState.touchBus_blocked (c : NodeState) (x : Addr) : (c.touchBus x).blocked = c.blocked := by
  unfold NodeState.touchBus; split <;> rfl
@[simp] theorem NodeState.touchBus_ext (c : NodeState) (x : Addr) : (c.touchBus x).ext = c.ext := by
  unfold NodeState.touchBus; split <;> rfl

end Sys2Proof.Machine
end

