-- ==== Sys2Proof/Laws/Memory.lean ====
section
/-! SUPPORT. The laws of RAM: a read after a write, the canonical form, and the words of the address space that an
operation leaves alone. -/

namespace Sys2Proof.Machine

/-! ### Read after write -/

theorem Ram.read_write (m : Ram) (k k' : Nat) (v : Word) :
    Ram.read (Ram.write m k v) k' = if k = k' then some v else Ram.read m k' := by
  induction m with
  | nil => rfl
  | cons cell rest ih =>
    obtain ⟨j, u⟩ := cell
    simp only [Ram.write]
    split
    · simp [Ram.read]
    · split
      · rename_i h
        subst h
        by_cases hk : k = k' <;> simp [Ram.read, hk]
      · rename_i h
        simp only [Ram.read, ih]
        by_cases hj : j = k'
        · have : k ≠ k' := fun e => h (e.trans hj.symm)
          simp [hj, this]
        · simp [hj]

/-! ### The canonical form -/

theorem Ram.wfFrom_write {lo k : Nat} {v : Word} (m : Ram) (hm : Ram.wfFrom lo m = true) (hlo : lo ≤ k)
    (hk : k < 64) : Ram.wfFrom lo (Ram.write m k v) = true := by
  induction m generalizing lo with
  | nil => simp [Ram.write, Ram.wfFrom, hlo, hk]
  | cons cell rest ih =>
    obtain ⟨j, u⟩ := cell
    simp only [Ram.wfFrom, Bool.and_eq_true, decide_eq_true_eq] at hm
    obtain ⟨⟨hj, hj64⟩, hrest⟩ := hm
    simp only [Ram.write]
    split
    · rename_i h
      simp [Ram.wfFrom, hlo, hk, hj64, hrest, Nat.succ_le_of_lt h]
    · split
      · rename_i h
        subst h
        simp [Ram.wfFrom, hlo, hk, hrest]
      · have h : j + 1 ≤ k := by omega
        simp [Ram.wfFrom, hj, hj64, ih hrest h]

/-- A store keeps the canonical form. -/
theorem Ram.wf_write {k : Nat} {v : Word} (m : Ram) (hm : m.wf = true) (hk : k < 64) :
    (Ram.write m k v).wf = true :=
  Ram.wfFrom_write m hm (Nat.zero_le k) hk

/-! ### The state's memory -/

@[simp] theorem State.writeRam_cur (s : State) (k : BitVec 6) (v : Word) : (s.writeRam k v).cur = s.cur := rfl
@[simp] theorem State.writeRam_tick (s : State) (k : BitVec 6) (v : Word) : (s.writeRam k v).tick = s.tick := rfl
@[simp] theorem State.writeRam_epoch (s : State) (k : BitVec 6) (v : Word) : (s.writeRam k v).epoch = s.epoch := rfl

/-- A store to a RAM word of the running core: that word, and no other of any node. -/
theorem State.readRam_writeRam (s : State) (n : Node) (k k' : BitVec 6) (v : Word) :
    (s.writeRam k v).readRam n k' = if n = s.cur ∧ k = k' then v else s.readRam n k' := by
  unfold State.writeRam State.readRam
  rw [State.node_setCore]
  by_cases hn : n = s.cur
  · subst hn
    simp only [if_true, Ram.read_write, State.node_cur, State.epoch_setCore, true_and]
    by_cases hk : k = k'
    · simp [hk]
    · have : k.toNat ≠ k'.toNat := fun e => hk (BitVec.eq_of_toNat_eq e)
      simp [hk, this]
  · simp [hn]

/-- What the address space reads as depends on the RAMs and the epoch alone. -/
theorem State.peek_congr {s t : State} {n : Node} (hr : (t.node n).ram = (s.node n).ram) (he : t.epoch = s.epoch)
    (a : Addr) : t.peek n a = s.peek n a := by
  unfold State.peek State.readRam
  rw [hr, he]

end Sys2Proof.Machine
end

