-- ==== Sys2Proof/Laws/Access.lean ====
section
/-! SUPPORT. What a bus access can do, said once: the inversion of each operation of Machine/Ports.lean and of the IOCS
operations of Machine/Pins.lean. Later proofs cite these and do not unfold the operations. -/

namespace Sys2Proof.Machine

/-! ### Completion -/

@[simp] theorem MemOp.finish_blocked (op : MemOp) (sl : Slot) (v : Word) (c : NodeState) :
    (op.finish sl v c).blocked = none := by
  cases op <;> simp [MemOp.finish, NodeState.afterMemory]

@[simp] theorem MemOp.finish_r (op : MemOp) (sl : Slot) (v : Word) (c : NodeState) :
    (op.finish sl v c).r = c.r := by
  cases op <;> simp [MemOp.finish, NodeState.afterMemory]

@[simp] theorem MemOp.finish_rs (op : MemOp) (sl : Slot) (v : Word) (c : NodeState) :
    (op.finish sl v c).rs = c.rs := by
  cases op <;> simp [MemOp.finish, NodeState.afterMemory]

@[simp] theorem MemOp.finish_rp (op : MemOp) (sl : Slot) (v : Word) (c : NodeState) :
    (op.finish sl v c).rp = c.rp := by
  cases op <;> simp [MemOp.finish, NodeState.afterMemory]

@[simp] theorem MemOp.finish_b (op : MemOp) (sl : Slot) (v : Word) (c : NodeState) :
    (op.finish sl v c).b = c.b := by
  cases op <;> simp [MemOp.finish, NodeState.afterMemory]

@[simp] theorem MemOp.finish_carry (op : MemOp) (sl : Slot) (v : Word) (c : NodeState) :
    (op.finish sl v c).carry = c.carry := by
  cases op <;> simp [MemOp.finish, NodeState.afterMemory]

@[simp] theorem MemOp.finish_iocsw (op : MemOp) (sl : Slot) (v : Word) (c : NodeState) :
    (op.finish sl v c).iocsw = c.iocsw := by
  cases op <;> simp [MemOp.finish, NodeState.afterMemory]

@[simp] theorem MemOp.finish_ram (op : MemOp) (sl : Slot) (v : Word) (c : NodeState) :
    (op.finish sl v c).ram = c.ram := by
  cases op <;> simp [MemOp.finish, NodeState.afterMemory]

@[simp] theorem MemOp.finish_dev (op : MemOp) (sl : Slot) (v : Word) (c : NodeState) :
    (op.finish sl v c).dev = c.dev := by
  cases op <;> simp [MemOp.finish, NodeState.afterMemory]

@[simp] theorem MemOp.finish_linkReady (op : MemOp) (sl : Slot) (v : Word) (c : NodeState) :
    (op.finish sl v c).linkReady = c.linkReady := by
  cases op <;> simp [MemOp.finish, NodeState.afterMemory]

@[simp] theorem MemOp.finish_disarmedBy (op : MemOp) (sl : Slot) (v : Word) (c : NodeState) :
    (op.finish sl v c).disarmedBy = c.disarmedBy := by
  cases op <;> simp [MemOp.finish, NodeState.afterMemory]

@[simp] theorem MemOp.finish_ext (op : MemOp) (sl : Slot) (v : Word) (c : NodeState) :
    (op.finish sl v c).ext = c.ext := by
  cases op <;> simp [MemOp.finish, NodeState.afterMemory]

@[simp] theorem State.complete_cur (s : State) (op : MemOp) (sl : Slot) (v : Word) :
    (s.complete op sl v).cur = s.cur := rfl
@[simp] theorem State.complete_agenda (s : State) (op : MemOp) (sl : Slot) (v : Word) :
    (s.complete op sl v).agenda = s.agenda := rfl
@[simp] theorem State.complete_tick (s : State) (op : MemOp) (sl : Slot) (v : Word) :
    (s.complete op sl v).tick = s.tick := rfl
@[simp] theorem State.complete_epoch (s : State) (op : MemOp) (sl : Slot) (v : Word) :
    (s.complete op sl v).epoch = s.epoch := rfl

@[simp] theorem State.core_complete (s : State) (op : MemOp) (sl : Slot) (v : Word) :
    (s.complete op sl v).core = op.finish sl v s.core := by
  simp [State.complete]

theorem State.node_complete (s : State) (op : MemOp) (sl : Slot) (v : Word) (m : Node) :
    (s.complete op sl v).node m = if m = s.cur then op.finish sl v s.core else s.node m :=
  State.node_setCore s m _

/-! ### The pin-wake detector and IOCS -/

/-- Rearming a detector changes nothing or that detector. -/
theorem State.rearm_cases (s : State) (n : Node) :
    s.rearm n = s ∨ s.rearm n = s.setNode n { s.node n with disarmedBy := none } := by
  unfold State.rearm
  split <;> simp

/-- The latch of IOCS takes the word; a bus may take its pins, and a serdes link cease to be ready. -/
theorem State.latchIocs_spec (s : State) (n : Node) (v : Word) :
    ∃ dev link, s.latchIocs n v = s.setNode n { s.node n with iocsw := v, dev := dev, linkReady := link } ∧
      (dev ≠ (s.node n).dev → deviceOf n = .bus) ∧ (link ≠ (s.node n).linkReady → deviceOf n = .serdes) := by
  refine ⟨_, _, rfl, fun h => ?_, fun h => ?_⟩ <;> by_contra hd <;> simp [hd] at h

/-- Node n, asleep as `c`, wakes as `e`: its wake pin or its device has completed the access it slept in, perhaps in a
changed environment (R325). -/
def NodeState.WokenTo (n : Node) (c e : NodeState) : Prop :=
  ∃ op v ext dev x, c.blocked = some op ∧ waitsForPin n (op.addr c) = true ∧
    e = op.finish c.slot v { c with ext := ext, dev := dev, linkReady := false, disarmedBy := x } ∧
    (dev ≠ c.dev → deviceOf n = .bus ∨ deviceOf n = .serdes)

/-- Waking in a changed environment is waking. -/
theorem NodeState.WokenTo.of_env {n : Node} {c e : NodeState} {ext : Ext} {dev : Word} {link : Bool}
    {x : Option Addr} (hd : dev ≠ c.dev → deviceOf n = .bus ∨ deviceOf n = .serdes)
    (h : NodeState.WokenTo n { c with ext := ext, dev := dev, linkReady := link, disarmedBy := x } e) :
    c.WokenTo n e := by
  obtain ⟨op, v, ext', dev', y, hb, hw, he, hd'⟩ := h
  refine ⟨op, v, ext', dev', y, hb, by cases op <;> exact hw, he, fun hne => ?_⟩
  by_cases hc : dev' = dev
  · exact hd (hc ▸ hne)
  · exact hd' hc

/-- A node that wakes is awake. -/
theorem NodeState.WokenTo.blocked {n : Node} {c e : NodeState} (h : c.WokenTo n e) : e.blocked = none := by
  obtain ⟨op, v, ext, dev, x, -, -, rfl, -⟩ := h
  exact MemOp.finish_blocked _ _ _ _

/-- Waking leaves the RAM. -/
theorem NodeState.WokenTo.ram {n : Node} {c e : NodeState} (h : c.WokenTo n e) : e.ram = c.ram := by
  obtain ⟨op, v, ext, dev, x, -, -, rfl, -⟩ := h
  exact MemOp.finish_ram _ _ _ _

/-- An access that a pin or device completes touches the register of a bus or a serdes only. -/
theorem State.pinDevice_spec (s : State) (n : Node) (op : MemOp) (h : s.pinDevice n op ≠ (s.node n).dev) :
    deviceOf n = .bus ∨ deviceOf n = .serdes := by
  unfold State.pinDevice at h
  split at h
  · exact .inl ‹_›
  · exact .inr ‹_›
  · exact absurd rfl h

/-- What looking at a sleeper does: nothing, or it wakes. -/
theorem State.wake_cases (s : State) (n : Node) :
    s.wake n = s ∨ ∃ e, s.wake n = s.setNode n e ∧ (s.node n).WokenTo n e := by
  unfold State.wake
  split
  · rename_i op hb
    dsimp only
    split
    · rename_i hr
      simp only [State.pinReady, Bool.and_eq_true] at hr
      exact .inr ⟨_, rfl, op, _, (s.node n).ext, _, _, hb, hr.1, rfl, s.pinDevice_spec n op⟩
    · exact .inl rfl
  · exact .inl rfl

/-- A node that has been looked at and still sleeps has no pin and no device ready. -/
theorem State.not_pinReady_wake {s : State} {n : Node} {op : MemOp} (h : ((s.wake n).node n).blocked = some op) :
    (s.wake n).pinReady n (op.addr ((s.wake n).node n)) = false := by
  unfold State.wake at h ⊢
  split at h
  · rename_i o hb
    dsimp only at h ⊢
    split at h
    · simp [State.pinCompletes] at h
    · rename_i hr
      rw [if_neg hr]
      cases hb.symm.trans h
      simpa using hr
  · rename_i hb
    cases hb.symm.trans h

/-- What a moved wake input does to node n: its detector may be armed, or it wakes. -/
theorem State.wakeInputMoved_cases (s : State) (n : Node) :
    ∃ e, s.wakeInputMoved n = s.setNode n e ∧
      ((∃ x, e = { s.node n with disarmedBy := x }) ∨ (s.node n).WokenTo n e) := by
  unfold State.wakeInputMoved
  have hr : ∃ x, s.rearm n = s.setNode n { s.node n with disarmedBy := x } := by
    rcases State.rearm_cases s n with h | h
    · exact ⟨(s.node n).disarmedBy, h.trans (State.setNode_node s n).symm⟩
    · exact ⟨none, h⟩
  obtain ⟨x, hx⟩ := hr
  rw [hx]
  rcases State.wake_cases (s.setNode n { s.node n with disarmedBy := x }) n with h | ⟨e, h, hw⟩
  · exact ⟨_, h, .inl ⟨x, rfl⟩⟩
  · rw [State.node_setNode_same] at hw
    exact ⟨e, by rw [h, State.setNode_setNode], .inr (hw.of_env fun hne => absurd rfl hne)⟩

/-- A write of IOCS stores the word in the latch, may set a bus from its pins and arm detectors, and node 04's may wake
nodes 03 and 05; no other field of any node changes. -/
theorem State.writeIocs_spec (s : State) (n : Node) (v : Word) :
    (s.writeIocs n v).cur = s.cur ∧ (s.writeIocs n v).agenda = s.agenda ∧ (s.writeIocs n v).tick = s.tick ∧
      (s.writeIocs n v).epoch = s.epoch ∧
      ∀ m, (∃ x, (s.writeIocs n v).node m = { (s.latchIocs n v).node m with disarmedBy := x }) ∨
        (m ≠ n ∧ ((s.latchIocs n v).node m).WokenTo m ((s.writeIocs n v).node m)) := by
  have hr : ∃ x, (s.latchIocs n v).rearm n =
      (s.latchIocs n v).setNode n { (s.latchIocs n v).node n with disarmedBy := x } := by
    rcases State.rearm_cases (s.latchIocs n v) n with h | h
    · exact ⟨((s.latchIocs n v).node n).disarmedBy, h.trans (State.setNode_node _ n).symm⟩
    · exact ⟨none, h⟩
  obtain ⟨x, hx⟩ := hr
  have hown : ∀ m, ∃ y, ((s.latchIocs n v).rearm n).node m = { (s.latchIocs n v).node m with disarmedBy := y } := by
    intro m
    rw [hx, State.node_setNode]
    split
    · rename_i e; subst e; exact ⟨x, rfl⟩
    · exact ⟨((s.latchIocs n v).node m).disarmedBy, rfl⟩
  unfold State.writeIocs
  dsimp only
  split
  · rename_i h4
    have h3n : (3 : Node) ≠ n := by rw [h4]; decide
    have h5n : (5 : Node) ≠ n := by rw [h4]; decide
    obtain ⟨e3, h3, w3⟩ := State.wakeInputMoved_cases ((s.latchIocs n v).rearm n) 3
    rw [h3]
    obtain ⟨e5, h5, w5⟩ := State.wakeInputMoved_cases (((s.latchIocs n v).rearm n).setNode 3 e3) 5
    rw [h5, hx]
    refine ⟨rfl, rfl, rfl, rfl, fun m => ?_⟩
    have hn : ∀ k, k ≠ n → ((s.latchIocs n v).rearm n).node k = (s.latchIocs n v).node k := by
      intro k hk
      rw [hx, State.node_setNode_ne _ _ hk]
    rw [State.node_setNode_ne _ _ (by decide : (5 : Node) ≠ 3), hn 5 h5n] at w5
    rw [hn 3 h3n] at w3
    rw [State.node_setNode]
    split
    · rename_i e
      subst e
      exact w5.imp id fun h => ⟨h5n, h⟩
    · rw [State.node_setNode]
      split
      · rename_i e
        subst e
        exact w3.imp id fun h => ⟨h3n, h⟩
      · rw [← hx]
        exact .inl (hown m)
  · rw [hx] at hown ⊢
    exact ⟨rfl, rfl, rfl, rfl, fun m => .inl (hown m)⟩

/-- A store to DATA touches the device of its node: a bus or a serdes register, and the readiness of a serdes link. -/
theorem State.writeData_spec (s : State) (v : Word) :
    ∃ dev link, (s.writeData v).core = { s.core with dev := dev, linkReady := link } ∧
      (dev ≠ s.core.dev → deviceOf s.cur = .bus ∨ deviceOf s.cur = .serdes) ∧
      (link ≠ s.core.linkReady → deviceOf s.cur = .serdes) := by
  unfold State.writeData
  split
  · exact ⟨_, _, State.core_setCore _ _, fun _ => .inl ‹_›, fun h => absurd rfl h⟩
  · exact ⟨_, _, State.core_setCore _ _, fun _ => .inr ‹_›, fun _ => ‹_›⟩
  · exact ⟨_, _, rfl, fun h => absurd rfl h, fun h => absurd rfl h⟩

/-! ### Ports -/

/-- The neighbours found by a port access are those over a selected port whose pending access matches. -/
theorem State.mem_partners (s : State) (a : Addr) (store : Bool) (m : Node) :
    m ∈ s.partners a store ↔
      ∃ d, selects a d = true ∧ neighbour s.cur d = some m ∧ s.answers m d store = true := by
  have hd : ∀ d : Dir, d ∈ allDirs := by intro d; cases d <;> decide
  simp only [State.partners, List.mem_filterMap]
  constructor
  · rintro ⟨d, -, h⟩
    split at h
    · rename_i hs
      split at h
      · rename_i m' hm
        split at h
        · rename_i ha
          cases h
          exact ⟨d, hs, hm, ha⟩
        · cases h
      · cases h
    · cases h
  · rintro ⟨d, hs, hm, ha⟩
    exact ⟨d, hd d, by simp [hs, hm, ha]⟩

/-- The start of a port access changes nothing, or, where it is a store that selects the UP of a bus node, the bus
latch. -/
theorem State.begun_cases (s : State) (op : MemOp) (a : Addr) :
    s.begun op a = s ∨
      (op.isStore = true ∧ deviceOf s.cur = .bus ∧ selects a .up = true) ∧
        s.begun op a = s.setCore { s.core with dev := s.busWritten s.cur s.core.t } := by
  unfold State.begun State.beginStore
  split
  · exact .inl rfl
  · split
    · rename_i h
      simp only [Bool.and_eq_true, decide_eq_true_eq] at h
      exact .inr ⟨⟨h.1.1, h.1.2, h.2⟩, rfl⟩
    · exact .inl rfl

/-- What a port access that answers a next state did: it slept, or its pin or device completed it, or it met its one
partner. -/
theorem State.meet_cases {s t : State} {op : MemOp} {sl : Slot} {a : Addr} (h : s.meet op sl a = .next t) :
    (s.partners a op.isStore = [] ∧ s.pinReady s.cur a = false ∧ t = s.sleep op) ∨
      (s.pinReady s.cur a = true ∧ t = s.pinCompletes s.cur op sl a) ∨
      ∃ m, s.partners a op.isStore = [m] ∧ t = s.rendezvous op sl m := by
  unfold State.meet at h
  split at h
  · rename_i hp
    cases hw : s.pinReady s.cur a <;> simp [hw] at h
    · exact .inl ⟨hp, rfl, h.symm⟩
    · exact .inr (.inl ⟨rfl, h.symm⟩)
  · rename_i m hp
    cases hw : s.pinReady s.cur a <;> cases hf : Config.neighbourFirst s.tick <;> simp [hw, hf] at h
    · exact .inr (.inr ⟨m, hp, h.symm⟩)
    · exact .inr (.inr ⟨m, hp, h.symm⟩)
    · exact .inr (.inl ⟨rfl, h.symm⟩)
    · exact .inr (.inr ⟨m, hp, h.symm⟩)
  · cases h

/-- A port access never stops but for a collision. -/
theorem State.meet_refused {s : State} {op : MemOp} {sl : Slot} {a : Addr} {r : Refusal}
    (h : s.meet op sl a = .refused r) : r = .portCollision := by
  unfold State.meet at h
  split at h
  · cases hw : s.pinReady s.cur a <;> simp [hw] at h
  · cases hw : s.pinReady s.cur a <;> cases hf : Config.neighbourFirst s.tick <;> simp [hw, hf] at h
  · cases h; rfl

/-! ### Any access -/

/-- What a bus access that answers a next state did, by the place its address names. -/
theorem State.access_cases {s t : State} {op : MemOp} {sl : Slot} (h : s.access op sl = .next t) :
    let a := op.addr s.core
    let st := s.setCore (s.core.touchBus a)
    (∃ k, place st.cur a = .ram k ∧ op.isStore = true ∧ t = (st.writeRam k st.core.t).complete op sl 0#18) ∨
      (∃ k, place st.cur a = .ram k ∧ op.isStore = false ∧ t = st.complete op sl (st.readRam st.cur k)) ∨
      (∃ k, place st.cur a = .rom k ∧ op.isStore = false ∧ t = st.complete op sl (Config.rom st.cur k)) ∨
      (place st.cur a = .iocs ∧ op.isStore = true ∧ t = (st.writeIocs st.cur st.core.t).complete op sl 0#18) ∨
      (place st.cur a = .iocs ∧ op.isStore = false ∧ t = st.complete op sl (st.readIocs st.cur)) ∨
      (place st.cur a = .data ∧ op.isStore = true ∧ t = (st.writeData st.core.t).complete op sl 0#18) ∨
      (place st.cur a = .data ∧ op.isStore = false ∧ t = st.complete op sl st.readData) ∨
      (place st.cur a = .port ∧ st.portAccess op sl a = .next t) := by
  intro a st
  simp only [State.access] at h
  split at h
  · rename_i k hk
    split at h <;> rename_i hs <;> cases h
    · exact .inl ⟨k, hk, hs, rfl⟩
    · exact .inr (.inl ⟨k, hk, by simpa using hs, rfl⟩)
  · rename_i k hk
    split at h <;> rename_i hs <;> cases h
    exact .inr (.inr (.inl ⟨k, hk, by simpa using hs, rfl⟩))
  · rename_i hk
    split at h <;> rename_i hs <;> cases h
    · exact .inr (.inr (.inr (.inl ⟨hk, hs, rfl⟩)))
    · exact .inr (.inr (.inr (.inr (.inl ⟨hk, by simpa using hs, rfl⟩))))
  · rename_i hk
    split at h <;> rename_i hs <;> cases h
    · exact .inr (.inr (.inr (.inr (.inr (.inl ⟨hk, hs, rfl⟩)))))
    · exact .inr (.inr (.inr (.inr (.inr (.inr (.inl ⟨hk, by simpa using hs, rfl⟩))))))
  · rename_i hk
    exact .inr (.inr (.inr (.inr (.inr (.inr (.inr ⟨hk, h⟩))))))
  · cases h

/-! ### What an access leaves of the RAMs -/

theorem State.ram_rendezvous (s : State) (op : MemOp) (sl : Slot) (m n : Node) :
    ((s.rendezvous op sl m).node n).ram = (s.node n).ram := by
  have hset : ∀ (k : Node) (o : MemOp) (x : Slot) (v : Word),
      ((s.setNode m (o.finish x v (s.node m))).node k).ram = (s.node k).ram := by
    intro k o x v
    rw [State.node_setNode]
    split
    · rename_i e; subst e; simp
    · rfl
  unfold State.rendezvous
  rw [State.node_complete, State.cur_setNode]
  by_cases e : n = s.cur
  · rw [if_pos e, MemOp.finish_ram, e]; exact hset _ _ _ _
  · rw [if_neg e]; exact hset _ _ _ _

theorem State.ram_meet {s t : State} {op : MemOp} {sl : Slot} {a : Addr} (h : s.meet op sl a = .next t) (n : Node) :
    (t.node n).ram = (s.node n).ram := by
  rcases State.meet_cases h with ⟨-, -, rfl⟩ | ⟨-, rfl⟩ | ⟨m, -, rfl⟩
  · simp only [State.sleep, State.node_setCore]
    split
    · rename_i e; subst e; rfl
    · rfl
  · simp only [State.pinCompletes, State.node_setNode]
    split
    · rename_i e; subst e; simp
    · rfl
  · exact State.ram_rendezvous s op sl m n

theorem State.ram_portAccess {s t : State} {op : MemOp} {sl : Slot} {a : Addr}
    (h : s.portAccess op sl a = .next t) (n : Node) : (t.node n).ram = (s.node n).ram := by
  rw [State.ram_meet h n]
  rcases State.begun_cases s op a with e | ⟨-, e⟩ <;> rw [e]
  rw [State.node_setCore]
  split
  · rename_i e'; subst e'; rfl
  · rfl

/-- A bus access leaves every RAM as it was, but for a store to a RAM address, which writes one word of the running
core's. -/
theorem State.ram_access {s t : State} {op : MemOp} {sl : Slot} (h : s.access op sl = .next t) (n : Node) :
    (t.node n).ram = (s.node n).ram ∨
      ∃ k : BitVec 6, n = s.cur ∧ op.isStore = true ∧ place s.cur (op.addr s.core) = .ram k ∧
        (t.node n).ram = (s.node n).ram.write k.toNat s.core.t := by
  have hst : ((s.setCore (s.core.touchBus (op.addr s.core))).node n).ram = (s.node n).ram := by
    rw [State.node_setCore]
    split
    · rename_i e; subst e; simp
    · rfl
  rcases State.access_cases h with
    ⟨k, hp, hs, rfl⟩ | ⟨k, hp, hs, rfl⟩ | ⟨k, hp, hs, rfl⟩ | ⟨hp, hs, rfl⟩ | ⟨hp, hs, rfl⟩ | ⟨hp, hs, rfl⟩ |
      ⟨hp, hs, rfl⟩ | ⟨hp, hq⟩
  · by_cases hn : n = s.cur
    · subst hn
      refine .inr ⟨k, rfl, hs, hp, ?_⟩
      simp [State.node_complete, State.writeRam]
    · left
      simp [State.node_complete, State.writeRam, State.node_setCore, hn]
  all_goals left; rw [← hst]
  · rw [State.node_complete]; split
    · rename_i e; subst e; simp
    · rfl
  · rw [State.node_complete]; split
    · rename_i e; subst e; simp
    · rfl
  · obtain ⟨hc, -, -, -, hx⟩ := State.writeIocs_spec (s.setCore (s.core.touchBus (op.addr s.core))) s.cur s.core.t
    have hl : ∀ m, (((s.setCore (s.core.touchBus (op.addr s.core))).latchIocs s.cur s.core.t).node m).ram =
        ((s.setCore (s.core.touchBus (op.addr s.core))).node m).ram := by
      intro m
      simp only [State.latchIocs, State.node_setNode]
      split
      · rename_i e; subst e; rfl
      · rfl
    have hw : ∀ m, (((s.setCore (s.core.touchBus (op.addr s.core))).writeIocs s.cur s.core.t).node m).ram =
        ((s.setCore (s.core.touchBus (op.addr s.core))).node m).ram := by
      intro m
      rcases hx m with ⟨x, e⟩ | ⟨-, hw⟩
      · rw [e]; exact hl m
      · rw [hw.ram]; exact hl m
    simp only [State.cur_setCore, State.core_setCore, NodeState.touchBus_t]
    rw [State.node_complete]
    split
    · rename_i e
      rw [MemOp.finish_ram, ← State.node_cur, ← e]; exact hw n
    · exact hw n
  · rw [State.node_complete]; split
    · rename_i e; subst e; simp
    · rfl
  · have hw : ∀ m, (((s.setCore (s.core.touchBus (op.addr s.core))).writeData s.core.t).node m).ram =
        ((s.setCore (s.core.touchBus (op.addr s.core))).node m).ram := by
      intro m
      unfold State.writeData
      split
      · rw [State.node_setCore]; split
        · rename_i e; subst e; rfl
        · rfl
      · rw [State.node_setCore]; split
        · rename_i e; subst e; rfl
        · rfl
      · rfl
    simp only [State.core_setCore, NodeState.touchBus_t]
    rw [State.node_complete]
    split
    · rename_i e
      rw [MemOp.finish_ram, ← State.node_cur, ← e]; exact hw n
    · exact hw n
  · rw [State.node_complete]; split
    · rename_i e; subst e; simp
    · rfl
  · exact State.ram_portAccess hq n

end Sys2Proof.Machine
end

