-- ==== Sys2Proof/Laws/Encoding.lean ====
section
/-! SUPPORT. The laws of the instruction word: what a slot delivers after its opcode or an address field is put in, and
that the opcode map is one to one. -/

namespace Sys2Proof

/-! ### Bit fields -/

/-- Every bit of a value with a field replaced. -/
theorem getLsbD_setField {w n : Nat} (x : BitVec w) (lo : Nat) (v : BitVec n) (k : Nat) :
    (setField x lo v).getLsbD k =
      if lo ≤ k ∧ k < lo + n ∧ k < w then v.getLsbD (k - lo) else x.getLsbD k := by
  by_cases hk : k < w
  · by_cases h1 : lo ≤ k
    · by_cases h2 : k < lo + n
      · have : k - lo < n := by omega
        have : k - lo < w := by omega
        have : ¬k < lo := by omega
        simp [setField, *]
      · have h3 : ¬k - lo < n := by omega
        have h4 : v.getLsbD (k - lo) = false := BitVec.getLsbD_of_ge v _ (by omega)
        simp [setField, h2, h3, h4, hk]
    · have h3 : k < lo := by omega
      simp [setField, h1, h3, hk]
  · have h4 : x.getLsbD k = false := BitVec.getLsbD_of_ge x _ (by omega)
    simp [setField, hk, h4]

/-- Two values with the same bits are equal; for small widths the bits are enumerated. -/
theorem eq_of_bits {w : Nat} {x y : BitVec w} (h : ∀ k, k < w → x.getLsbD k = y.getLsbD k) : x = y :=
  BitVec.eq_of_getLsbD_eq h

/-- A field that was put in is read back. -/
theorem extractLsb'_setField {w n : Nat} (x : BitVec w) (lo : Nat) (v : BitVec n) (h : lo + n ≤ w) :
    (setField x lo v).extractLsb' lo n = v := by
  apply eq_of_bits
  intro k hk
  have : lo + k < w := by omega
  rw [BitVec.getLsbD_extractLsb', getLsbD_setField]
  simp [hk, this]

/-- A field above or below the one replaced is as before. -/
theorem extractLsb'_setField_ne {w n m : Nat} (x : BitVec w) (lo lo' : Nat) (v : BitVec n)
    (h : lo + n ≤ lo' ∨ lo' + m ≤ lo) : (setField x lo v).extractLsb' lo' m = x.extractLsb' lo' m := by
  apply eq_of_bits
  intro k hk
  have : ¬(lo ≤ lo' + k ∧ lo' + k < lo + n ∧ lo' + k < w) := by omega
  rw [BitVec.getLsbD_extractLsb', BitVec.getLsbD_extractLsb', getLsbD_setField, if_neg this]

/-! ### Slots and fields -/

/-- Slots 0 to 2 deliver the opcode value that was put there. -/
theorem canon_putOpcode (w : Word) (sl : Slot) (c : BitVec 5) (h : sl.notLast = true) :
    canon (putOpcode w sl c) sl = c := by
  cases sl <;> simp [Slot.notLast] at h <;>
    simp [canon, putOpcode, extractLsb'_setField]

/-- Slot 3 delivers the opcode value that was put there, if it is a multiple of 4 (R102). -/
theorem canon_putOpcode_s3 (w : Word) (v : BitVec 5) (h : v.extractLsb' 0 2 = 0#2) :
    canon (putOpcode w .s3 v) .s3 = v := by
  have h0 : v[0] = false := by simpa using congrArg (fun x => BitVec.getLsbD x 0) h
  have h1 : v[1] = false := by simpa using congrArg (fun x => BitVec.getLsbD x 1) h
  simp only [canon, putOpcode]
  rw [extractLsb'_setField _ _ _ (by decide), BitVec.xor_assoc, BitVec.xor_self, BitVec.xor_zero]
  apply eq_of_bits
  intro k hk
  interval_cases k <;> simp [h0, h1]

/-- An address field leaves the opcode in front of it alone (R107). -/
theorem canon_putField (w : Word) (f : AddrField) : canon (putField w f) f.slot = canon w f.slot := by
  cases f <;> simp [canon, putField, AddrField.slot, extractLsb'_setField_ne]

/-- An address field is read as it was put in, in its slot (R107). -/
theorem addrField_putField (w : Word) (f : AddrField) : addrField (putField w f) f.slot = f := by
  cases f <;>
    simp [addrField, putField, AddrField.slot, fieldWord, Config.addrFieldXor, extractLsb'_setField]

/-! ### The opcode map -/

/-- The opcode map read back (R105). -/
theorem opcode_decodeOpcode (c : BitVec 5) (sl : Slot) (f : AddrField) : (decodeOpcode c sl f).opcode = c := by
  have h : ∀ c : BitVec 5, ∀ sl f, (decodeOpcode c sl f).opcode = c := by
    intro c sl f
    have hc := c.isLt
    obtain ⟨k, rfl⟩ : ∃ k : Fin 32, c = BitVec.ofFin k := ⟨⟨c.toNat, hc⟩, by simp⟩
    fin_cases k <;> rfl
  exact h c sl f

/-- The opcode of an instruction, its slot and its field give it back (R105). -/
theorem decodeOpcode_opcode (i : Instr) (f : AddrField) (hf : ∀ g, i.field? = some g → g = f) :
    decodeOpcode i.opcode i.slot f = i := by
  cases i <;> simp_all [decodeOpcode, Instr.opcode, Instr.slot, Instr.field?]

/-- In slot 3 a well-formed instruction has no field, and its opcode value is a multiple of 4 (R102, R106). -/
theorem wellFormed_s3 (i : Instr) (hw : i.wellFormed = true) (h : i.slot = .s3) :
    i.field? = none ∧ i.opcode.extractLsb' 0 2 = 0#2 := by
  cases i <;> simp_all [Instr.wellFormed, Instr.slot, Instr.field?, Instr.opcode, Slot.notLast]
  all_goals (rename_i f; cases f <;> simp [AddrField.slot] at h)

/-- The slot of an instruction with a field is the field's. -/
theorem slot_of_field (i : Instr) (f : AddrField) (h : i.field? = some f) : i.slot = f.slot := by
  cases i <;> simp_all [Instr.field?, Instr.slot]

/-- The slot of a well-formed instruction delivers its opcode value, whatever the rest of the word is. -/
theorem canon_encodeInto (i : Instr) (hw : i.wellFormed = true) (w : Word) :
    canon (encodeInto w i) i.slot = i.opcode := by
  have hput : canon (putOpcode w i.slot i.opcode) i.slot = i.opcode := by
    by_cases h3 : i.slot = .s3
    · rw [h3]; exact canon_putOpcode_s3 w _ (wellFormed_s3 i hw h3).2
    · exact canon_putOpcode w _ _ (by cases h : i.slot <;> simp_all [Slot.notLast])
  unfold encodeInto
  cases hf : i.field? with
  | none => simpa using hput
  | some f =>
    have := slot_of_field i f hf
    simp only [this] at hput ⊢
    rw [canon_putField]; exact hput

end Sys2Proof
end

