-- ==== Sys2Proof/Laws/PerInstr.lean ====
section
/-! SUPPORT. What holds of every instruction as syntax, one lemma per constructor. -/

namespace Sys2Proof.Laws

/-- The family RowBits: in any word, the slot of a well-formed instruction delivers the instruction's opcode value to
the decoder once the instruction is encoded there (R103, R105, R116). -/
def RowBits.Statement (i : Instr) : Prop :=
  i.wellFormed = true → ∀ w : Word, canon (encodeInto w i) i.slot = i.opcode

theorem RowBits.ret (sl : Slot) : RowBits.Statement (.ret sl) := fun h w => canon_encodeInto _ h w
theorem RowBits.coroutine (sl : Slot) : RowBits.Statement (.coroutine sl) := fun h w => canon_encodeInto _ h w
theorem RowBits.jump (f : AddrField) : RowBits.Statement (.jump f) := fun h w => canon_encodeInto _ h w
theorem RowBits.call (f : AddrField) : RowBits.Statement (.call f) := fun h w => canon_encodeInto _ h w
theorem RowBits.unext (sl : Slot) : RowBits.Statement (.unext sl) := fun h w => canon_encodeInto _ h w
theorem RowBits.next (f : AddrField) : RowBits.Statement (.next f) := fun h w => canon_encodeInto _ h w
theorem RowBits.ifZero (f : AddrField) : RowBits.Statement (.ifZero f) := fun h w => canon_encodeInto _ h w
theorem RowBits.minusIf (f : AddrField) : RowBits.Statement (.minusIf f) := fun h w => canon_encodeInto _ h w
theorem RowBits.fetchPInc (sl : Slot) : RowBits.Statement (.fetchPInc sl) := fun h w => canon_encodeInto _ h w
theorem RowBits.fetchAInc (sl : Slot) : RowBits.Statement (.fetchAInc sl) := fun h w => canon_encodeInto _ h w
theorem RowBits.fetchB (sl : Slot) : RowBits.Statement (.fetchB sl) := fun h w => canon_encodeInto _ h w
theorem RowBits.fetchA (sl : Slot) : RowBits.Statement (.fetchA sl) := fun h w => canon_encodeInto _ h w
theorem RowBits.storePInc (sl : Slot) : RowBits.Statement (.storePInc sl) := fun h w => canon_encodeInto _ h w
theorem RowBits.storeAInc (sl : Slot) : RowBits.Statement (.storeAInc sl) := fun h w => canon_encodeInto _ h w
theorem RowBits.storeB (sl : Slot) : RowBits.Statement (.storeB sl) := fun h w => canon_encodeInto _ h w
theorem RowBits.storeA (sl : Slot) : RowBits.Statement (.storeA sl) := fun h w => canon_encodeInto _ h w
theorem RowBits.plusStar (sl : Slot) : RowBits.Statement (.plusStar sl) := fun h w => canon_encodeInto _ h w
theorem RowBits.twoStar (sl : Slot) : RowBits.Statement (.twoStar sl) := fun h w => canon_encodeInto _ h w
theorem RowBits.twoSlash (sl : Slot) : RowBits.Statement (.twoSlash sl) := fun h w => canon_encodeInto _ h w
theorem RowBits.bitNot (sl : Slot) : RowBits.Statement (.bitNot sl) := fun h w => canon_encodeInto _ h w
theorem RowBits.plus (sl : Slot) : RowBits.Statement (.plus sl) := fun h w => canon_encodeInto _ h w
theorem RowBits.bitAnd (sl : Slot) : RowBits.Statement (.bitAnd sl) := fun h w => canon_encodeInto _ h w
theorem RowBits.bitXor (sl : Slot) : RowBits.Statement (.bitXor sl) := fun h w => canon_encodeInto _ h w
theorem RowBits.drop (sl : Slot) : RowBits.Statement (.drop sl) := fun h w => canon_encodeInto _ h w
theorem RowBits.dup (sl : Slot) : RowBits.Statement (.dup sl) := fun h w => canon_encodeInto _ h w
theorem RowBits.pop (sl : Slot) : RowBits.Statement (.pop sl) := fun h w => canon_encodeInto _ h w
theorem RowBits.over (sl : Slot) : RowBits.Statement (.over sl) := fun h w => canon_encodeInto _ h w
theorem RowBits.aFetch (sl : Slot) : RowBits.Statement (.aFetch sl) := fun h w => canon_encodeInto _ h w
theorem RowBits.nop (sl : Slot) : RowBits.Statement (.nop sl) := fun h w => canon_encodeInto _ h w
theorem RowBits.push (sl : Slot) : RowBits.Statement (.push sl) := fun h w => canon_encodeInto _ h w
theorem RowBits.bStore (sl : Slot) : RowBits.Statement (.bStore sl) := fun h w => canon_encodeInto _ h w
theorem RowBits.aStore (sl : Slot) : RowBits.Statement (.aStore sl) := fun h w => canon_encodeInto _ h w

end Sys2Proof.Laws
end

