-- ==== Sys2Proof/Laws/Step.lean ====
section
/-! SUPPORT. What a step can do to each node, said once: the running node either sleeps in its access or finishes it,
and every other node is untouched but for its pin-wake detector, or finishes the port access it slept in. Statements
about all steps are derived from these lemmas and unfold nothing. -/

namespace Sys2Proof.Machine

/-! ### The address space and the links -/

/-- Bit 8 clear: RAM or ROM (R61). -/
theorem place_memory (n : Node) (a : Addr) (h : a.getLsbD 8 = false) :
    place n a = if a.getLsbD 7 then .rom (wordIndex a) else .ram (wordIndex a) := by
  unfold place
  simp only [h, Bool.not_false, if_true]

theorem place_iocs (n : Node) : place n 0x15D#9 = .iocs := by
  unfold place
  simp

/-- IOCS is at one address (R310). -/
theorem addr_of_place_iocs {n : Node} {a : Addr} (h : place n a = .iocs) : a = 0x15D#9 := by
  unfold place at h
  split at h
  · split at h <;> cases h
  · split at h
    · assumption
    · split at h
      · split at h <;> cases h
      · split at h <;> cases h

/-- DATA is at one address (R331). -/
theorem addr_of_place_data {n : Node} {a : Addr} (h : place n a = .data) : a = 0x141#9 := by
  unfold place at h
  split at h
  · split at h <;> cases h
  · split at h
    · cases h
    · split at h
      · assumption
      · split at h <;> cases h

/-- An address that selects a port is an I/O address (R272). -/
theorem bit8_of_selects {a : Addr} {d : Dir} (h : selects a d = true) : a.getLsbD 8 = true := by
  revert h
  unfold selects
  simp only [Bool.and_eq_true, beq_iff_eq]
  exact fun h => h.1.1

/-- An address that selects a port with a neighbour is a port (R274). -/
theorem place_of_selects {n m : Node} {a : Addr} {d : Dir} (hs : selects a d = true) (hn : neighbour n d = some m) :
    place n a = .port := by
  have h4 : a.extractLsb' 0 4 = 5#4 := by
    revert hs
    unfold selects
    simp only [Bool.and_eq_true, beq_iff_eq]
    exact fun h => h.1.2
  unfold place
  rw [bit8_of_selects hs]
  simp only [Bool.not_true, Bool.false_eq_true, if_false]
  rw [if_neg (by rintro rfl; exact absurd h4 (by decide)), if_neg (by rintro rfl; exact absurd h4 (by decide)),
    if_pos]
  unfold portDefined
  have hmem : d ∈ allDirs.filter (selects a) := by
    rw [List.mem_filter]
    exact ⟨by cases d <;> decide, hs⟩
  revert hmem
  generalize allDirs.filter (selects a) = l
  intro hmem
  match l with
  | [] => simp at hmem
  | [d'] =>
    simp only [List.mem_singleton] at hmem
    subst hmem
    simp [hn]
  | _ :: _ :: _ => rfl

/-- The two ends of a link use one label (R271, R346). -/
theorem neighbour_symm {n m : Node} {d : Dir} (h : neighbour n d = some m) : neighbour m d = some n ∧ m ≠ n := by
  have key : ∀ n m : Node, neighbour n d = some m → neighbour m d = some n ∧ m ≠ n := by cases d <;> decide
  exact key n m h

/-- A node lies in one direction of another. -/
theorem neighbour_inj {n m : Node} {d e : Dir} (h : neighbour n d = some m) (h' : neighbour n e = some m) :
    d = e := by
  have key : ∀ n m : Node, neighbour n d = some m → neighbour n e = some m → d = e := by
    cases d <;> cases e <;> decide
  exact key n m h h'

/-- A direction with a neighbour waits for no pin (R325). -/
theorem wakesFrom_neighbour {n m : Node} {d : Dir} (h : neighbour n d = some m) : wakesFrom n d = false := by
  have key : ∀ n : Node, (neighbour n d).isSome = true → wakesFrom n d = false := by cases d <;> decide
  exact key n (by rw [h]; rfl)

/-! ### Requests -/

theorem MemOp.addr_congr (op : MemOp) {c e : NodeState} (ha : e.a = c.a) (hb : e.b = c.b) (hp : e.p = c.p) :
    op.addr e = op.addr c := by
  cases op <;> simp [MemOp.addr, ha, hb, hp]

/-- A node's requests depend on the access it sleeps in, its pointers and T alone (R273). -/
theorem State.req_congr {s t : State} {n : Node} (hk : (t.node n).blocked = (s.node n).blocked)
    (ht : (t.node n).t = (s.node n).t) (ha : (t.node n).a = (s.node n).a) (hb : (t.node n).b = (s.node n).b)
    (hp : (t.node n).p = (s.node n).p) (d : Dir) : t.req n d = s.req n d := by
  unfold State.req
  simp only [hk, ht, fun op : MemOp => op.addr_congr ha hb hp]

/-- A node that is awake asks for nothing. -/
theorem State.req_awake {s : State} {n : Node} (h : (s.node n).blocked = none) (d : Dir) : s.req n d = .idle := by
  unfold State.req
  rw [h]

theorem State.answers_congr {s t : State} {n : Node} {d : Dir} (h : t.req n d = s.req n d) (store : Bool) :
    t.answers n d store = s.answers n d store := by
  unfold State.answers
  rw [h]

/-- A node that answers sleeps in an access to that port, of the other kind (R279). -/
theorem State.answers_spec {s : State} {m : Node} {d : Dir} {store : Bool} (h : s.answers m d store = true) :
    ∃ op, (s.node m).blocked = some op ∧ selects (op.addr (s.node m)) d = true ∧ op.isStore = !store := by
  unfold State.answers State.req at h
  cases hb : (s.node m).blocked with
  | none => simp [hb] at h
  | some op =>
    refine ⟨op, rfl, ?_⟩
    simp only [hb] at h
    by_cases hc : (selects (op.addr (s.node m)) d && (neighbour m d).isSome) = true
    · rw [if_pos hc] at h
      simp only [Bool.and_eq_true] at hc
      refine ⟨hc.1, ?_⟩
      cases ho : op.isStore <;> simp_all
    · rw [if_neg hc] at h
      simp at h

/-! ### Reading IOCS -/

/-- Every bit of an IOCS read (R311). -/
theorem State.readIocs_bit (s : State) (n : Node) (k : Nat) (hk : k < 18) :
    (s.readIocs n).getLsbD k = (s.iocsBit n k).getD ((Config.iocsFree s.tick).getLsbD k) := by
  have h := BitVec.getLsbD_ofBoolListLE (i := k)
    (bs := (List.range 18).map fun bit => (s.iocsBit n bit).getD ((Config.iocsFree s.tick).getLsbD bit))
  refine Eq.trans h ?_
  interval_cases k <;> rfl

/-! ### What an access does to each node -/

/-- Using the address bus changes a detector of the running core and nothing else (R402). -/
theorem State.node_touch (s : State) (a : Addr) (m : Node) :
    ∃ x, (s.setCore (s.core.touchBus a)).node m = { s.node m with disarmedBy := x } := by
  rw [State.node_setCore]
  split
  · rename_i e
    subst e
    unfold NodeState.touchBus
    split
    · exact ⟨s.core.disarmedBy, rfl⟩
    · exact ⟨none, rfl⟩
  · exact ⟨(s.node m).disarmedBy, rfl⟩

theorem State.req_touch (s : State) (a : Addr) (m : Node) (d : Dir) :
    (s.setCore (s.core.touchBus a)).req m d = s.req m d := by
  obtain ⟨x, hx⟩ := s.node_touch a m
  apply State.req_congr <;> rw [hx]

/-- The chip beside the nodes: an access leaves it alone. -/
theorem State.access_rest {s t : State} {op : MemOp} {sl : Slot} (h : s.access op sl = .next t) :
    t.cur = s.cur ∧ t.agenda = s.agenda ∧ t.tick = s.tick ∧ t.epoch = s.epoch := by
  rcases State.access_cases h with
    ⟨k, -, -, rfl⟩ | ⟨k, -, -, rfl⟩ | ⟨k, -, -, rfl⟩ | ⟨-, -, rfl⟩ | ⟨-, -, rfl⟩ | ⟨-, -, rfl⟩ | ⟨-, -, rfl⟩ | ⟨-, hq⟩
  · exact ⟨rfl, rfl, rfl, rfl⟩
  · exact ⟨rfl, rfl, rfl, rfl⟩
  · exact ⟨rfl, rfl, rfl, rfl⟩
  · obtain ⟨h1, h2, h3, h4, -⟩ :=
      State.writeIocs_spec (s.setCore (s.core.touchBus (op.addr s.core))) s.cur
        (s.setCore (s.core.touchBus (op.addr s.core))).core.t
    exact ⟨h1, h2, h3, h4⟩
  · exact ⟨rfl, rfl, rfl, rfl⟩
  · unfold State.writeData
    split <;> exact ⟨rfl, rfl, rfl, rfl⟩
  · exact ⟨rfl, rfl, rfl, rfl⟩
  · unfold State.portAccess at hq
    rcases State.begun_cases (s.setCore (s.core.touchBus (op.addr s.core))) op (op.addr s.core) with
      e | ⟨-, e⟩ <;> rw [e] at hq <;> rcases State.meet_cases hq with ⟨-, -, rfl⟩ | ⟨-, rfl⟩ | ⟨m, -, rfl⟩ <;>
        exact ⟨rfl, rfl, rfl, rfl⟩

/-- What an access makes of the running core: it sleeps, where no partner asks for the other half; or it finishes, with
its device state, and RAM or IOCS where it stores there, as the access left them. -/
theorem State.access_self {s t : State} {op : MemOp} {sl : Slot} (h : s.access op sl = .next t) :
    (place s.cur (op.addr s.core) = .port ∧
      (∀ d m, selects (op.addr s.core) d = true → neighbour s.cur d = some m →
        s.answers m d op.isStore = false) ∧
      ∃ x y, t.core = { s.core with disarmedBy := x, dev := y, blocked := some op } ∧
        (y ≠ s.core.dev → op.isStore = true ∧ deviceOf s.cur = .bus ∧ selects (op.addr s.core) .up = true)) ∨
    ∃ v ram iocsw dev link x,
      t.core = op.finish sl v
        { s.core with ram := ram, iocsw := iocsw, dev := dev, linkReady := link, disarmedBy := x } ∧
      (ram ≠ s.core.ram → op.isStore = true ∧ ∃ k, place s.cur (op.addr s.core) = .ram k) ∧
      (iocsw ≠ s.core.iocsw → op.isStore = true ∧ op.addr s.core = 0x15D#9) ∧
      (dev ≠ s.core.dev →
        (op.isStore = true ∧ op.addr s.core = 0x15D#9 ∧ deviceOf s.cur = .bus) ∨
        (op.isStore = true ∧ op.addr s.core = 0x141#9 ∧ (deviceOf s.cur = .bus ∨ deviceOf s.cur = .serdes)) ∨
        (op.isStore = true ∧ deviceOf s.cur = .bus ∧ selects (op.addr s.core) .up = true) ∨
        (waitsForPin s.cur (op.addr s.core) = true ∧ (deviceOf s.cur = .bus ∨ deviceOf s.cur = .serdes))) ∧
      (link ≠ s.core.linkReady →
        (op.isStore = true ∧ deviceOf s.cur = .serdes ∧
          (op.addr s.core = 0x15D#9 ∨ op.addr s.core = 0x141#9)) ∨
        waitsForPin s.cur (op.addr s.core) = true) := by
  have same : ∀ {α : Type} {p : Prop} (x : α), x ≠ x → p := fun _ h => absurd rfl h
  obtain ⟨x0, hx0⟩ := s.node_touch (op.addr s.core) s.cur
  have hst : s.core.touchBus (op.addr s.core) = { s.core with disarmedBy := x0 } := by
    rw [State.node_setCore_cur] at hx0
    exact hx0
  have hrest := (State.access_rest h).1
  have ht : t.core = t.node s.cur := by rw [← hrest]; rfl
  rcases State.access_cases h with
    ⟨k, hp, hs, e⟩ | ⟨k, hp, hs, e⟩ | ⟨k, hp, hs, e⟩ | ⟨hp, hs, e⟩ | ⟨hp, hs, e⟩ | ⟨hp, hs, e⟩ | ⟨hp, hs, e⟩ | ⟨hp, hq⟩
  · right
    refine ⟨0#18, s.core.ram.write k.toNat s.core.t, s.core.iocsw, s.core.dev, s.core.linkReady, x0, ?_,
      fun _ => ⟨hs, k, hp⟩, same _, same _, same _⟩
    rw [e, State.core_complete]
    unfold State.writeRam
    rw [State.core_setCore, State.core_setCore, hst]
  · right
    refine ⟨(s.setCore (s.core.touchBus (op.addr s.core))).readRam s.cur k, s.core.ram, s.core.iocsw, s.core.dev,
      s.core.linkReady, x0, ?_, same _, same _, same _, same _⟩
    rw [e, State.core_complete, State.core_setCore, hst]
    rfl
  · right
    refine ⟨Config.rom s.cur k, s.core.ram, s.core.iocsw, s.core.dev,
      s.core.linkReady, x0, ?_, same _, same _, same _, same _⟩
    rw [e, State.core_complete, State.core_setCore, hst]
    rfl
  · right
    obtain ⟨h1, -, -, -, h5⟩ :=
      State.writeIocs_spec (s.setCore (s.core.touchBus (op.addr s.core))) s.cur
        (s.setCore (s.core.touchBus (op.addr s.core))).core.t
    obtain ⟨x, hx⟩ := (h5 s.cur).resolve_right fun h => h.1 rfl
    obtain ⟨dev, link, hl, hd, hk⟩ := State.latchIocs_spec (s.setCore (s.core.touchBus (op.addr s.core))) s.cur
      (s.setCore (s.core.touchBus (op.addr s.core))).core.t
    rw [State.node_setCore_cur, hst] at hd hk
    have ha := addr_of_place_iocs hp
    refine ⟨0#18, s.core.ram, s.core.t, dev, link, x, ?_, same _, fun _ => ⟨hs, ha⟩,
      fun hne => .inl ⟨hs, ha, hd hne⟩, fun hne => .inl ⟨hs, hk hne, .inl ha⟩⟩
    rw [e, State.core_complete]
    congr 1
    rw [← State.node_cur, State.cur_setCore, h1]
    refine hx.trans ?_
    rw [hl, State.node_setNode_same, State.node_setCore_cur, State.core_setCore, hst]
  · right
    refine ⟨(s.setCore (s.core.touchBus (op.addr s.core))).readIocs s.cur, s.core.ram, s.core.iocsw, s.core.dev,
      s.core.linkReady, x0, ?_, same _, same _, same _, same _⟩
    rw [e, State.core_complete, State.core_setCore, hst]
    rfl
  · right
    obtain ⟨dev, link, hc, hd, hk⟩ := State.writeData_spec (s.setCore (s.core.touchBus (op.addr s.core)))
      (s.setCore (s.core.touchBus (op.addr s.core))).core.t
    rw [State.core_setCore, hst] at hc hd hk
    have ha := addr_of_place_data hp
    refine ⟨0#18, s.core.ram, s.core.iocsw, dev, link, x0, ?_, same _, same _,
      fun hne => .inr (.inl ⟨hs, ha, hd hne⟩), fun hne => .inl ⟨hs, hk hne, .inr ha⟩⟩
    rw [e, State.core_complete, State.core_setCore, hst, hc]
  · right
    refine ⟨(s.setCore (s.core.touchBus (op.addr s.core))).readData, s.core.ram, s.core.iocsw, s.core.dev,
      s.core.linkReady, x0, ?_, same _, same _, same _, same _⟩
    rw [e, State.core_complete, State.core_setCore, hst]
  · have hbeg : ∃ y, (s.setCore (s.core.touchBus (op.addr s.core))).begun op (op.addr s.core) =
        s.setCore { s.core with disarmedBy := x0, dev := y } ∧
        (y ≠ s.core.dev → op.isStore = true ∧ deviceOf s.cur = .bus ∧ selects (op.addr s.core) .up = true) := by
      rcases State.begun_cases (s.setCore (s.core.touchBus (op.addr s.core))) op (op.addr s.core) with e | ⟨hb, e⟩
      · exact ⟨s.core.dev, by rw [e, hst], same _⟩
      · exact ⟨_, by rw [e, State.setCore_setCore, State.core_setCore, hst], fun _ => hb⟩
    obtain ⟨y, hy, hdev⟩ := hbeg
    unfold State.portAccess at hq
    rw [hy] at hq
    have hans : ∀ m d, (s.setCore { s.core with disarmedBy := x0, dev := y }).answers m d op.isStore =
        s.answers m d op.isStore := by
      intro m d
      apply State.answers_congr
      apply State.req_congr <;> rw [State.node_setCore] <;> split <;> (try (rename_i e; subst e)) <;> rfl
    rcases State.meet_cases hq with ⟨hnone, -, e⟩ | ⟨hready, e⟩ | ⟨m, hm, e⟩
    · left
      refine ⟨hp, ?_, x0, y, ?_, hdev⟩
      · intro d m hsel hn
        cases hc : s.answers m d op.isStore
        · rfl
        · have : m ∈ (s.setCore { s.core with disarmedBy := x0, dev := y }).partners (op.addr s.core) op.isStore := by
            rw [State.mem_partners]
            exact ⟨d, hsel, hn, by rw [hans]; exact hc⟩
          rw [hnone] at this
          cases this
      · rw [e]
        unfold State.sleep
        rw [State.core_setCore, State.core_setCore]
    · right
      have hw : waitsForPin s.cur (op.addr s.core) = true := by
        unfold State.pinReady at hready
        exact (Bool.and_eq_true _ _ ▸ hready).1
      have hown : (s.setCore { s.core with disarmedBy := x0, dev := y }).node s.cur =
          { s.core with disarmedBy := x0, dev := y } := State.node_setCore_cur _ _
      refine ⟨(s.setCore { s.core with disarmedBy := x0, dev := y }).pinWord s.cur, s.core.ram,
        s.core.iocsw, (s.setCore { s.core with disarmedBy := x0, dev := y }).pinDevice s.cur op, false,
        if hasDetector s.cur then some (op.addr s.core) else x0, ?_, same _, same _, fun hne => ?_, fun _ => .inr hw⟩
      · rw [ht, e, State.cur_setCore]
        unfold State.pinCompletes
        rw [State.node_setNode_same, hown]
      · by_cases hy' : y = s.core.dev
        · refine .inr (.inr (.inr ⟨hw,
            State.pinDevice_spec (s.setCore { s.core with disarmedBy := x0, dev := y }) s.cur op ?_⟩))
          rw [hown]
          exact fun h => hne (h.trans hy')
        · exact .inr (.inr (.inl (hdev hy')))
    · right
      have hmem : m ∈ (s.setCore { s.core with disarmedBy := x0, dev := y }).partners (op.addr s.core) op.isStore := by
        rw [hm]; exact List.mem_singleton.2 rfl
      obtain ⟨d, -, hn, -⟩ := (State.mem_partners _ _ _ _).1 hmem
      have hne : m ≠ (s.setCore { s.core with disarmedBy := x0, dev := y }).cur := (neighbour_symm hn).2
      refine ⟨if op.isStore then s.core.t else ((s.setCore { s.core with disarmedBy := x0, dev := y }).node m).t,
        s.core.ram, s.core.iocsw, y, s.core.linkReady, x0, ?_, same _, same _,
        fun hne => .inr (.inr (.inl (hdev hne))), same _⟩
      rw [e]
      unfold State.rendezvous
      rw [State.core_complete, State.core_setNode_ne _ _ hne, State.core_setCore]

/-- What an access makes of another node: nothing but its detector, by a store to IOCS; or, where it is the partner, it
finishes the access it slept in, on a port that both select; or a store of node 04 to IOCS wakes it by its line. -/
theorem State.access_other {s t : State} {op : MemOp} {sl : Slot} (h : s.access op sl = .next t) {n : Node}
    (hn : n ≠ s.cur) :
    (∃ x, t.node n = { s.node n with disarmedBy := x } ∧
      (x ≠ (s.node n).disarmedBy → op.isStore = true ∧ op.addr s.core = 0x15D#9)) ∨
    (∃ other v d, (s.node n).blocked = some other ∧ selects (other.addr (s.node n)) d = true ∧
      selects (op.addr s.core) d = true ∧ neighbour s.cur d = some n ∧ s.answers n d op.isStore = true ∧
      t.node n = other.finish (s.node n).slot v (s.node n)) ∨
    (s.node n).WokenTo n (t.node n) := by
  have hst : (s.setCore (s.core.touchBus (op.addr s.core))).node n = s.node n := State.node_setCore_ne s _ hn
  have same : ∀ {p : Prop}, t.node n = s.node n →
      ∃ x, t.node n = { s.node n with disarmedBy := x } ∧ (x ≠ (s.node n).disarmedBy → p) :=
    fun h => ⟨_, h, fun hne => absurd rfl hne⟩
  have hc : ∀ (u : State) (v : Word), u.cur = s.cur → (u.complete op sl v).node n = u.node n := by
    intro u v hu
    rw [State.node_complete, if_neg (by rw [hu]; exact hn)]
  rcases State.access_cases h with
    ⟨k, hp, hs, e⟩ | ⟨k, hp, hs, e⟩ | ⟨k, hp, hs, e⟩ | ⟨hp, hs, e⟩ | ⟨hp, hs, e⟩ | ⟨hp, hs, e⟩ | ⟨hp, hs, e⟩ | ⟨hp, hq⟩
  · left
    refine same ?_
    rw [e]
    refine (hc _ _ (by rfl)).trans ?_
    unfold State.writeRam
    exact (State.node_setCore_ne (s.setCore _) _ hn).trans hst
  · left; exact same (by rw [e]; exact (hc _ _ (by rfl)).trans hst)
  · left; exact same (by rw [e]; exact (hc _ _ (by rfl)).trans hst)
  · obtain ⟨h1, -, -, -, h5⟩ :=
      State.writeIocs_spec (s.setCore (s.core.touchBus (op.addr s.core))) s.cur
        (s.setCore (s.core.touchBus (op.addr s.core))).core.t
    have hl : ((s.setCore (s.core.touchBus (op.addr s.core))).latchIocs s.cur
        (s.setCore (s.core.touchBus (op.addr s.core))).core.t).node n = s.node n := by
      unfold State.latchIocs
      rw [State.node_setNode_ne (s.setCore _) _ hn, hst]
    have ht := (congrArg (·.node n) e).trans (hc _ _ h1)
    have h := h5 n
    rw [hl] at h
    rcases h with ⟨x, hx⟩ | ⟨-, hw⟩
    · exact .inl ⟨x, ht.trans hx, fun _ => ⟨hs, addr_of_place_iocs hp⟩⟩
    · exact .inr (.inr (ht ▸ hw))
  · left; exact same (by rw [e]; exact (hc _ _ (by rfl)).trans hst)
  · left
    refine same ?_
    rw [e]
    unfold State.writeData
    split
    · exact (hc _ _ (by rfl)).trans ((State.node_setCore_ne (s.setCore _) _ hn).trans hst)
    · exact (hc _ _ (by rfl)).trans ((State.node_setCore_ne (s.setCore _) _ hn).trans hst)
    · exact (hc _ _ (by rfl)).trans hst
  · left; exact same (by rw [e]; exact (hc _ _ (by rfl)).trans hst)
  · have hbeg : ∃ c, (s.setCore (s.core.touchBus (op.addr s.core))).begun op (op.addr s.core) = s.setCore c ∧
        c.blocked = s.core.blocked ∧ c.t = s.core.t ∧ c.a = s.core.a ∧ c.b = s.core.b ∧ c.p = s.core.p := by
      rcases State.begun_cases (s.setCore (s.core.touchBus (op.addr s.core))) op (op.addr s.core) with
        e | ⟨-, e⟩
      · exact ⟨_, e, by simp, by simp, by simp, by simp, by simp⟩
      · rw [State.setCore_setCore, State.core_setCore] at e
        exact ⟨_, e, by simp, by simp, by simp, by simp, by simp⟩
    obtain ⟨c, hy, k1, k2, k3, k4, k5⟩ := hbeg
    unfold State.portAccess at hq
    rw [hy] at hq
    have hu : (s.setCore c).node n = s.node n := State.node_setCore_ne s _ hn
    rcases State.meet_cases hq with ⟨hnone, -, e⟩ | ⟨-, e⟩ | ⟨m, hm, e⟩
    · left
      refine same ?_
      rw [e]
      unfold State.sleep
      exact (State.node_setCore_ne (s.setCore _) _ hn).trans hu
    · left
      refine same ?_
      rw [e]
      unfold State.pinCompletes
      rw [State.cur_setCore]
      exact (State.node_setNode_ne _ _ hn).trans hu
    · have hmem : m ∈ (s.setCore c).partners (op.addr s.core) op.isStore := by
        rw [hm]; exact List.mem_singleton.2 rfl
      obtain ⟨d, hsel, hnb, ha⟩ := (State.mem_partners _ _ _ _).1 hmem
      by_cases hnm : n = m
      · right; left
        subst hnm
        have ha' : s.answers n d op.isStore = true := by
          rw [← ha]
          symm
          apply State.answers_congr
          apply State.req_congr <;> rw [hu]
        obtain ⟨other, hb, hso, -⟩ := State.answers_spec ha'
        refine ⟨other, if op.isStore then (s.setCore c).core.t else ((s.setCore c).node n).t, d, hb, hso, hsel, hnb, ha', ?_⟩
        rw [e]
        unfold State.rendezvous
        refine (hc _ _ (by rfl)).trans ((State.node_setNode_same _ _ _).trans ?_)
        rw [hu, hb]
        rfl
      · left
        refine same ?_
        rw [e]
        unfold State.rendezvous
        exact (hc _ _ (by rfl)).trans ((State.node_setNode_ne _ _ hnm).trans hu)

/-! ### Opcodes and steps -/

/-- A memory opcode is one bus access (R160). -/
theorem exec_memory {i : Instr} {op : MemOp} (h : memOpOf i = some op) (s : State) :
    exec i s = s.access op i.slot := by
  cases i <;> simp [memOpOf] at h <;> subst h <;> rfl

/-- Every other opcode runs, and touches the running core alone. -/
theorem exec_core {i : Instr} (h : memOpOf i = none) (s : State) : ∃ c, exec i s = .next (s.setCore c) := by
  cases i <;> first | exact ⟨_, rfl⟩ | simp [memOpOf] at h

/-- Such an opcode leaves the memory and the I/O of its core, and I, as they were. -/
theorem exec_core_keeps {i : Instr} (h : memOpOf i = none) {s t : State} (e : exec i s = .next t) :
    t.core.ram = s.core.ram ∧ t.core.iocsw = s.core.iocsw ∧ t.core.dev = s.core.dev ∧ t.core.i = s.core.i ∧
      t.core.linkReady = s.core.linkReady ∧ t.core.disarmedBy = s.core.disarmedBy ∧ t.core.ext = s.core.ext ∧
      t.core.blocked = s.core.blocked := by
  cases i <;> first
    | (simp [memOpOf] at h; done)
    | (injection e with e'
       subst e'
       rw [State.core_setCore]
       dsimp only
       first
         | (split <;> simp)
         | simp)

/-- The node that an event is aimed at, none for a reset. -/
def eventNode : Event → Option Node
  | .reset => none
  | .pin n _ _ => some n
  | .busPins n _ => some n
  | .vco n _ => some n
  | .serdesClock n _ => some n
  | .serdesWord n _ => some n
  | .serdesSent n => some n

/-- An event but a reset changes the environment, the device and the detector of a node, and nothing else of it; or the
node, asleep, wakes. -/
theorem State.applyEvent_node (s : State) {e : Event} (h : e ≠ .reset) (n : Node) :
    (∃ ext dev link x, (s.applyEvent e).node n =
      { s.node n with ext := ext, dev := dev, linkReady := link, disarmedBy := x }) ∨
    (s.node n).WokenTo n ((s.applyEvent e).node n) := by
  have hset : ∀ (u : State) (m : Node) (c : NodeState),
      (∃ ext dev link x, c = { u.node m with ext := ext, dev := dev, linkReady := link, disarmedBy := x }) →
      ∃ ext dev link x, (u.setNode m c).node n =
        { u.node n with ext := ext, dev := dev, linkReady := link, disarmedBy := x } := by
    intro u m c hc
    rw [State.node_setNode]
    split
    · rename_i e; subst e; exact hc
    · exact ⟨_, _, _, _, rfl⟩
  have hsame : ∃ ext dev link x, s.node n =
      { s.node n with ext := ext, dev := dev, linkReady := link, disarmedBy := x } := ⟨_, _, _, _, rfl⟩
  have hwake : ∀ (m : Node) (dev : Word) (link : Bool), (dev ≠ (s.node m).dev → deviceOf m = .serdes) →
      let u := s.setNode m { s.node m with dev := dev, linkReady := link }
      (∃ ext dev link x, (u.wake m).node n =
        { s.node n with ext := ext, dev := dev, linkReady := link, disarmedBy := x }) ∨
      (s.node n).WokenTo n ((u.wake m).node n) := by
    intro m dev link hdev u
    rcases State.wake_cases u m with hw | ⟨e, hw, hto⟩ <;> rw [hw]
    · exact .inl (hset _ _ _ ⟨_, _, _, _, rfl⟩)
    · rw [State.setNode_setNode]
      by_cases hm : n = m
      · subst hm
        rw [State.node_setNode_same] at hto ⊢
        exact .inr (NodeState.WokenTo.of_env (fun hne => .inr (hdev hne)) hto)
      · rw [State.node_setNode_ne _ _ hm]
        exact .inl hsame
  cases e with
  | reset => exact absurd rfl h
  | pin m q level =>
    simp only [State.applyEvent, State.applyPin]
    split
    · obtain ⟨e, hw, hto⟩ := State.wakeInputMoved_cases
        (s.setNode m { s.node m with ext := (s.node m).ext.withPin q level }) m
      rw [hw, State.setNode_setNode]
      by_cases hm : n = m
      · subst hm
        rw [State.node_setNode_same] at hto ⊢
        rcases hto with ⟨x, he⟩ | hto
        · exact .inl ⟨_, _, _, _, he⟩
        · exact .inr (NodeState.WokenTo.of_env (fun hne => absurd rfl hne) hto)
      · rw [State.node_setNode_ne _ _ hm]
        exact .inl hsame
    · exact .inl hsame
  | busPins m levels =>
    simp only [State.applyEvent, State.applyBusPins]
    split
    · rw [State.setNode_setNode, State.node_setNode_same]
      exact .inl (hset _ _ _ ⟨_, _, _, _, rfl⟩)
    · exact .inl hsame
  | vco m counts =>
    simp only [State.applyEvent, State.applyVco]
    split
    · exact .inl (hset _ _ _ ⟨_, _, _, _, rfl⟩)
    · exact .inl hsame
  | serdesClock m bit =>
    simp only [State.applyEvent, State.applySerdesClock]
    split
    · exact .inl (hset _ _ _ ⟨_, _, _, _, rfl⟩)
    · exact .inl hsame
  | serdesWord m w =>
    simp only [State.applyEvent, State.applySerdesWord]
    split
    · rename_i hs
      exact hwake m _ _ fun _ => hs.1
    · exact .inl hsame
  | serdesSent m =>
    simp only [State.applyEvent, State.applySerdesSent]
    split
    · rename_i hs
      exact hwake m _ _ fun _ => hs.1
    · exact .inl hsame

/-- An event leaves every node that it is not aimed at as it was. -/
theorem State.applyEvent_other (s : State) {e : Event} {n m : Node} (h : eventNode e = some m) (hm : n ≠ m) :
    (s.applyEvent e).node n = s.node n := by
  have hne : ∀ (u : State) (c : NodeState), (u.setNode m c).node n = u.node n :=
    fun u c => State.node_setNode_ne u c hm
  have hwake : ∀ u : State, (u.wake m).node n = u.node n := by
    intro u
    rcases State.wake_cases u m with hw | ⟨e, hw, -⟩ <;> rw [hw]
    exact hne _ _
  cases e with
  | reset => cases h
  | pin k q level =>
    cases h
    simp only [State.applyEvent, State.applyPin]
    split
    · obtain ⟨e, hw, -⟩ := State.wakeInputMoved_cases
        (s.setNode m { s.node m with ext := (s.node m).ext.withPin q level }) m
      rw [hw, hne, hne]
    · rfl
  | busPins k levels =>
    cases h
    simp only [State.applyEvent, State.applyBusPins]
    split
    · rw [hne, hne]
    · rfl
  | vco k counts =>
    cases h
    simp only [State.applyEvent, State.applyVco]
    split
    · exact hne _ _
    · rfl
  | serdesClock k bit =>
    cases h
    simp only [State.applyEvent, State.applySerdesClock]
    split
    · exact hne _ _
    · rfl
  | serdesWord k w =>
    cases h
    simp only [State.applyEvent, State.applySerdesWord]
    split
    · rw [hwake, hne]
    · rfl
  | serdesSent k =>
    cases h
    simp only [State.applyEvent, State.applySerdesSent]
    split
    · rw [hwake, hne]
    · rfl

/-- The events that can change the device register of a node that they do not wake (R333, R338, R341). -/
theorem State.applyEvent_dev (s : State) {e : Event} (h : e ≠ .reset) (n : Node)
    (hd : ((s.applyEvent e).node n).dev ≠ (s.node n).dev) :
    (∃ levels, e = .busPins n levels) ∨ (∃ k, e = .vco n k) ∨ (∃ bit, e = .serdesClock n bit) ∨
      (∃ w, e = .serdesWord n w) ∨ (s.node n).WokenTo n ((s.applyEvent e).node n) := by
  have hself : ∀ m, eventNode e = some m → n = m := fun m hm => by
    by_contra hne
    exact hd (by rw [s.applyEvent_other hm hne])
  cases e with
  | reset => exact absurd rfl h
  | busPins m levels => cases hself m rfl; exact .inl ⟨_, rfl⟩
  | vco m k => cases hself m rfl; exact .inr (.inl ⟨_, rfl⟩)
  | serdesClock m bit => cases hself m rfl; exact .inr (.inr (.inl ⟨_, rfl⟩))
  | serdesWord m w => cases hself m rfl; exact .inr (.inr (.inr (.inl ⟨_, rfl⟩)))
  | pin m q level =>
    cases hself m rfl
    refine .inr (.inr (.inr (.inr ?_)))
    simp only [State.applyEvent, State.applyPin] at hd ⊢
    split at hd
    · rename_i hp
      rw [if_pos hp]
      obtain ⟨e, hw, hto⟩ := State.wakeInputMoved_cases
        (s.setNode n { s.node n with ext := (s.node n).ext.withPin q level }) n
      rw [hw, State.setNode_setNode] at hd ⊢
      rw [State.node_setNode_same] at hto hd ⊢
      rcases hto with ⟨x, he⟩ | hto
      · exact absurd (by rw [he]) hd
      · exact NodeState.WokenTo.of_env (fun hne => absurd rfl hne) hto
    · exact absurd rfl hd
  | serdesSent m =>
    cases hself m rfl
    refine .inr (.inr (.inr (.inr ?_)))
    simp only [State.applyEvent, State.applySerdesSent] at hd ⊢
    split at hd
    · rename_i hs
      rw [if_pos hs]
      rcases State.wake_cases (s.setNode n { s.node n with linkReady := true }) n with hw | ⟨e, hw, hto⟩
      · rw [hw, State.node_setNode_same] at hd
        exact absurd rfl hd
      · rw [hw, State.setNode_setNode, State.node_setNode_same]
        rw [State.node_setNode_same] at hto
        exact NodeState.WokenTo.of_env (fun hne => absurd rfl hne) hto
    · exact absurd rfl hd

/-- The events that can change the readiness of a serdes link of a node that they do not wake (R342, R343). -/
theorem State.applyEvent_linkReady (s : State) {e : Event} (h : e ≠ .reset) (n : Node)
    (hd : ((s.applyEvent e).node n).linkReady ≠ (s.node n).linkReady) :
    (∃ w, e = .serdesWord n w) ∨ e = .serdesSent n ∨ (s.node n).WokenTo n ((s.applyEvent e).node n) := by
  have hself : ∀ m, eventNode e = some m → n = m := fun m hm => by
    by_contra hne
    exact hd (by rw [s.applyEvent_other hm hne])
  cases e with
  | reset => exact absurd rfl h
  | serdesWord m w => cases hself m rfl; exact .inl ⟨_, rfl⟩
  | serdesSent m => cases hself m rfl; exact .inr (.inl rfl)
  | pin m q level =>
    cases hself m rfl
    refine .inr (.inr ?_)
    simp only [State.applyEvent, State.applyPin] at hd ⊢
    split at hd
    · rename_i hp
      rw [if_pos hp]
      obtain ⟨e, hw, hto⟩ := State.wakeInputMoved_cases
        (s.setNode n { s.node n with ext := (s.node n).ext.withPin q level }) n
      rw [hw, State.setNode_setNode] at hd ⊢
      rw [State.node_setNode_same] at hto hd ⊢
      rcases hto with ⟨x, he⟩ | hto
      · exact absurd (by rw [he]) hd
      · exact NodeState.WokenTo.of_env (fun hne => absurd rfl hne) hto
    · exact absurd rfl hd
  | busPins m levels =>
    cases hself m rfl
    refine absurd ?_ hd
    simp only [State.applyEvent, State.applyBusPins]
    split
    · rw [State.setNode_setNode, State.node_setNode_same, State.node_setNode_same]
    · rfl
  | vco m k =>
    cases hself m rfl
    refine absurd ?_ hd
    simp only [State.applyEvent, State.applyVco]
    split
    · rw [State.node_setNode_same]
    · rfl
  | serdesClock m bit =>
    cases hself m rfl
    refine absurd ?_ hd
    simp only [State.applyEvent, State.applySerdesClock]
    split
    · rw [State.node_setNode_same]
    · rfl

/-- After a reset event every node is in its reset state (R386). -/
theorem State.applyReset_node (s : State) (n : Node) :
    s.applyReset.node n = NodeState.atReset n (Config.regAfterReset s.tick n) (s.node n).ext := by
  simp [State.applyReset, State.node]

/-- Every node at reset (R383). -/
theorem State.reset_node (n : Node) : State.reset.node n = NodeState.atReset n (fun _ => 0#18) Ext.undriven := by
  unfold State.reset State.node
  exact Vector.getElem_ofFn _

@[simp] theorem State.onTurn_cur (s : State) (n : Node) : (s.onTurn n).cur = n := rfl
@[simp] theorem State.onTurn_node (s : State) (n m : Node) : (s.onTurn n).node m = s.node m := rfl
@[simp] theorem State.onTurn_core (s : State) (n : Node) : (s.onTurn n).core = s.node n := rfl
@[simp] theorem State.taken_node (s : State) (m : Node) : s.taken.node m = s.node m := rfl

/-- What a step is, by who has the turn and what its core is doing. -/
theorem step_cases {s t : State} (h : step s = .next t) :
    (∃ n op, s.turn = .node n ∧ (s.node n).pending = some op ∧
      ∃ sl, (s.onTurn n).access op sl = .next t) ∨
    (∃ n i, s.turn = .node n ∧ (s.node n).fetching = false ∧ decode (s.node n).i (s.node n).slot = i ∧
      memOpOf i = none ∧ exec i (s.onTurn n) = .next t) ∨
    ∃ e, s.turn = .event e ∧ t = s.taken.applyEvent e := by
  unfold step at h
  split at h
  · rename_i n ht
    unfold State.coreStep at h
    rw [State.onTurn_core] at h
    cases hf : (s.node n).fetching with
    | true =>
      simp only [hf, if_true] at h
      exact .inl ⟨n, .instr, ht, by simp [NodeState.pending, hf], .s0, h⟩
    | false =>
      simp only [hf, Bool.false_eq_true, if_false] at h
      cases hm : memOpOf (decode (s.node n).i (s.node n).slot) with
      | some op =>
        rw [exec_memory hm] at h
        exact .inl ⟨n, op, ht, by simp [NodeState.pending, hf, hm], _, h⟩
      | none => exact .inr (.inl ⟨n, _, ht, hf, rfl, hm, h⟩)
  · rename_i e ht
    injection h with h
    exact .inr (.inr ⟨e, ht, h.symm⟩)

end Sys2Proof.Machine
end

