-- ==== Sys2Proof/Tests/Slice0.lean ====
section
/-! SUPPORT. Tests and witnesses. The expected results are the spec's own vectors (spec/95_test_vectors.md, E1 to E17 and
V1 to V20) and worked examples, each named in its docstring. -/

namespace Sys2Proof.Tests

open Sys2Proof Sys2Proof.Machine Sys2Proof.Statement

/-! ### Small states -/

/-- A core with zeros in its registers, P = $010 and a settled adder, awake, about to run slot 0. -/
def c0 : NodeState :=
  { t := 0, s := 0, ds := Vector.replicate 8 0, dp := 0, r := 0, rs := Vector.replicate 8 0, rp := 0, a := 0, b := 0
    p := 0x010, i := 0x2C9B2, slot := .s0, carry := false, iocsw := 0x15555, ram := [], settled := true
    disarmedBy := none, dev := 0, linkReady := false, fetching := false, blocked := none, ext := Ext.undriven }

/-- The chip with node n as `c`, every other node as `c0`, and node n to move. -/
def chip (n : Node) (c : NodeState) : State :=
  { nodes := (Vector.replicate 40 c0).set n.val c, cur := n, agenda := [.node n], tick := 0, epoch := 0 }

/-- The same with node m as `e`. -/
def chip2 (n : Node) (c : NodeState) (m : Node) (e : NodeState) : State := (chip n c).setNode m e

/-- The running core after an instruction. -/
def result (o : Host.Outcome State Fault Refusal) : Option NodeState :=
  match o with
  | .next t => some t.core
  | _ => none

/-- Why an outcome is a refusal. -/
def stop (o : Host.Outcome State Fault Refusal) : Option Refusal :=
  match o with
  | .refused r => some r
  | _ => none

/-- The core after one instruction on node 12. -/
def run (i : Instr) (c : NodeState) : Option NodeState := result (exec i (chip 12 c))

/-- Node n after one step of the chip. -/
def stepped (s : State) (n : Node) : Option NodeState :=
  match step s with
  | .next t => some (t.node n)
  | _ => none

/-! ### WellFormed: each check refuses an ill-formed term (R106) -/

theorem test_slot3_refuses :
    [Instr.coroutine .s3, .fetchAInc .s3, .fetchB .s3, .fetchA .s3, .storeAInc .s3, .storeB .s3, .storeA .s3,
      .twoStar .s3, .twoSlash .s3, .bitNot .s3, .bitAnd .s3, .bitXor .s3, .drop .s3, .pop .s3, .over .s3, .aFetch .s3,
      .push .s3, .bStore .s3, .aStore .s3].all (fun i => !i.wellFormed) = true := by decide

theorem test_slot3_admits :
    [Instr.ret .s3, .unext .s3, .fetchPInc .s3, .storePInc .s3, .plusStar .s3, .plus .s3, .dup .s3, .nop .s3].all
      (fun i => i.wellFormed) = true := by decide

/-! ### Decoding: the spec's own words (V1 to V3), every constructor -/

/-- V2 `. . . ;`, `. ; . .`. -/
theorem test_decode_ret : decode 0x2C9B5 .s3 = .ret .s3 ∧ decode 0x2D5B2 .s1 = .ret .s1 := by decide
/-- V2 `;: . . .`. -/
theorem test_decode_coroutine : decode 0x169B2 .s0 = .coroutine .s0 := by decide
/-- V3. -/
theorem test_decode_jump :
    decode 0x102AA .s0 = .jump (.slot0 0x2AA) ∧ decode 0x2D77F .s1 = .jump (.slot1 0x7F) ∧
      decode 0x2C943 .s2 = .jump (.slot2 3) := by decide
/-- V3. -/
theorem test_decode_call : decode 0x12038 .s0 = .call (.slot0 0x038) ∧ decode 0x05612 .s1 = .call (.slot1 0x12) := by
  decide
/-- V2 `2* unext . .`, `@a !b . unext`. -/
theorem test_decode_unext : decode 0x371B2 .s1 = .unext .s1 ∧ decode 0x03BB4 .s3 = .unext .s3 := by decide
/-- V3. -/
theorem test_decode_next : decode 0x1E010 .s0 = .next (.slot0 0x010) := by decide
/-- V3. -/
theorem test_decode_if : decode 0x18020 .s0 = .ifZero (.slot0 0x020) := by decide
/-- V3. -/
theorem test_decode_minus_if : decode 0x2D205 .s1 = .minusIf (.slot1 0x05) := by decide
/-- V1 `@p+ @p+ . +`, `and @b and @p+`. -/
theorem test_decode_fetch_p : decode 0x05DB0 .s0 = .fetchPInc .s0 ∧ decode 0x3FFFF .s3 = .fetchPInc .s3 := by decide
/-- V9's `@a+`, P4's `@a+ . + .`. -/
theorem test_decode_fetch_a_inc : decode 0x069F2 .s0 = .fetchAInc .s0 := by decide
/-- V2 `@b . . .`. -/
theorem test_decode_fetch_b : decode 0x009B2 .s0 = .fetchB .s0 := by decide
/-- V2 `. . @a +`. -/
theorem test_decode_fetch_a : decode 0x2C908 .s2 = .fetchA .s2 ∧ decode 0x2C908 .s3 = .plus .s3 := by decide
/-- V2 `!p+ . . !p+`. -/
theorem test_decode_store_p : decode 0x0C9B6 .s0 = .storePInc .s0 ∧ decode 0x0C9B6 .s3 = .storePInc .s3 := by decide
/-- V2 `@p+ !a+ . .`. -/
theorem test_decode_store_a_inc : decode 0x058B2 .s1 = .storeAInc .s1 := by decide
/-- V2 `@a !b . unext`. -/
theorem test_decode_store_b : decode 0x03BB4 .s1 = .storeB .s1 := by decide
/-- V2 `dup !a @a .`. -/
theorem test_decode_store_a : decode 0x25A0A .s1 = .storeA .s1 := by decide
/-- V2 `. +* . +*`. -/
theorem test_decode_plus_star : decode 0x2C5B1 .s1 = .plusStar .s1 ∧ decode 0x2C5B1 .s3 = .plusStar .s3 := by decide
/-- V2 `2* unext . .`. -/
theorem test_decode_two_star : decode 0x371B2 .s0 = .twoStar .s0 := by decide
/-- V2 `over a@ 2/ +*`. -/
theorem test_decode_two_slash : decode 0x20EC1 .s2 = .twoSlash .s2 := by decide
/-- V2 `dup dup not .`. -/
theorem test_decode_not : decode 0x24DCA .s2 = .bitNot .s2 := by decide
/-- V2 `+ . . .`. -/
theorem test_decode_plus : decode 0x3C9B2 .s0 = .plus .s0 := by decide
/-- E2 `and xor drop .`. -/
theorem test_decode_and_xor_drop :
    decode 0x3E3EA .s0 = .bitAnd .s0 ∧ decode 0x3E3EA .s1 = .bitXor .s1 ∧ decode 0x3E3EA .s2 = .drop .s2 := by decide
/-- V2 `dup dup dup dup`. -/
theorem test_decode_dup : decode 0x24D93 .s0 = .dup .s0 ∧ decode 0x24D93 .s3 = .dup .s3 := by decide
/-- V2 `push drop pop .`. -/
theorem test_decode_push_pop : decode 0x2E29A .s0 = .push .s0 ∧ decode 0x2E29A .s2 = .pop .s2 := by decide
/-- V2 `over a@ 2/ +*`. -/
theorem test_decode_over_a_fetch : decode 0x20EC1 .s0 = .over .s0 ∧ decode 0x20EC1 .s1 = .aFetch .s1 := by decide
/-- E1 `. . . .`. -/
theorem test_decode_nop : decode 0x2C9B2 .s0 = .nop .s0 ∧ decode 0x2C9B2 .s3 = .nop .s3 := by decide
/-- V2 `@p+ b! . .`, `@p+ a! . .`. -/
theorem test_decode_b_store_a_store : decode 0x04BB2 .s1 = .bStore .s1 ∧ decode 0x04AB2 .s1 = .aStore .s1 := by decide
/-- R116's examples. -/
theorem test_encode :
    encode (.jump (.slot0 0x0AA)) = 0x100AA ∧ encodeInto 0x05DB0 (.call (.slot1 0x12)) = 0x05612 ∧
      encode (.nop .s0) = 0x2C9B2 := by decide

/-! ### One instruction, from the spec's vectors -/

/-- V7. -/
theorem test_call :
    (run (.call (.slot0 0x038)) { c0 with p := 0x031, r := 0x3FFFF }).map
      (fun c => (c.p, c.r, c.rs[c.rp], c.fetching)) = some (0x038, 0x3FC31, 0x3FFFF, true) := by decide
/-- V3, the slot-1 jump at P = $234: bit 9 kept, bit 8 cleared. -/
theorem test_jump_slot1 : (run (.jump (.slot1 0x7F)) { c0 with p := 0x234 }).map (fun c => c.p) = some 0x27F := by
  decide
/-- V3, the slot-2 jump executed from the Right port. -/
theorem test_jump_slot2 : (run (.jump (.slot2 3)) { c0 with p := 0x1D5 }).map (fun c => c.p) = some 0x0D3 := by decide
/-- V7, `;` into Extended mode: the adder is not settled (R401). -/
theorem test_ret :
    (run (.ret .s1) { c0 with r := 0x00231, rs := Vector.replicate 8 7 }).map (fun c => (c.p, c.r, c.settled)) =
      some (0x231, 7, false) := by decide
/-- V7. -/
theorem test_coroutine :
    (run (.coroutine .s0) { c0 with p := 0x212, r := 0x3FC80 }).map (fun c => (c.p, c.r)) = some (0x080, 0x3FE12) := by
  decide
/-- V3. -/
theorem test_if :
    (run (.ifZero (.slot0 0x020)) { c0 with p := 0x011 }).map (fun c => c.p) = some 0x020 ∧
      (run (.ifZero (.slot0 0x020)) { c0 with p := 0x011, t := 1 }).map (fun c => c.p) = some 0x011 := by decide
/-- V3. -/
theorem test_minus_if :
    (run (.minusIf (.slot1 0x05)) { c0 with p := 0x041 }).map (fun c => c.p) = some 0x005 ∧
      (run (.minusIf (.slot1 0x05)) { c0 with p := 0x041, t := 0x20000 }).map (fun c => c.p) = some 0x041 := by decide
/-- V3. -/
theorem test_next_loops :
    (run (.next (.slot0 0x010)) { c0 with p := 0x014, r := 2 }).map (fun c => (c.p, c.r)) = some (0x010, 1) := by decide
/-- V3. -/
theorem test_next_falls_through :
    (run (.next (.slot0 0x010)) { c0 with p := 0x014, rs := Vector.replicate 8 9 }).map (fun c => (c.p, c.r)) =
      some (0x014, 9) := by decide
/-- R149's worked example. -/
theorem test_unext :
    (run (.unext .s1) { c0 with slot := .s1, r := 3 }).map (fun c => (c.slot, c.r, c.fetching)) =
      some (.s0, 2, false) ∧
    (run (.unext .s3) { c0 with slot := .s3 }).map (fun c => c.fetching) = some true := by decide
/-- V9: `@a` through an address with bits 17 to 9 set. -/
theorem test_fetch_a :
    (run (.fetchA .s0) { c0 with a := 0x3FE20, t := 5, ram := [(0x20, 0x111)] }).map (fun c => (c.t, c.s, c.a)) =
      some (0x111, 5, 0x3FE20) := by decide
/-- V9: `@a+` at the wrap. -/
theorem test_fetch_a_inc :
    (run (.fetchAInc .s0) { c0 with a := 0x0007F, ram := [(0x3F, 0x111)] }).map (fun c => (c.t, c.a)) =
      some (0x111, 0) := by decide
/-- V9. -/
theorem test_fetch_b :
    (run (.fetchB .s0) { c0 with b := 0x021, t := 5, ram := [(0x21, 0x222)] }).map (fun c => (c.t, c.s)) =
      some (0x222, 5) := by decide
/-- V9. -/
theorem test_fetch_p :
    (run (.fetchPInc .s0) { c0 with t := 5, ram := [(0x10, 0x333)] }).map (fun c => (c.t, c.s, c.p)) =
      some (0x333, 5, 0x011) := by decide
/-- V9. -/
theorem test_store_a :
    (run (.storeA .s0) { c0 with a := 0x20, t := 5, s := 6 }).map (fun c => (c.ram, c.t, c.a)) =
      some ([(0x20, 5)], 6, 0x20) := by decide
/-- V9. -/
theorem test_store_a_inc :
    (run (.storeAInc .s0) { c0 with a := 0x20, t := 5, s := 6 }).map (fun c => (c.ram, c.t, c.a)) =
      some ([(0x20, 5)], 6, 0x21) := by decide
/-- V9. -/
theorem test_store_b :
    (run (.storeB .s0) { c0 with b := 0x21, t := 5, s := 6 }).map (fun c => (c.ram, c.t)) = some ([(0x21, 5)], 6) := by
  decide
/-- V9. -/
theorem test_store_p :
    (run (.storePInc .s0) { c0 with t := 5, s := 6 }).map (fun c => (c.ram, c.t, c.p)) =
      some ([(0x10, 5)], 6, 0x011) := by decide
/-- V9, U3. -/
theorem test_store_rom : stop (exec (.storeA .s0) (chip 12 { c0 with a := 0x000A0 })) = some .storeToRom := by decide
/-- V13. -/
theorem test_plus_extended :
    (run (.plus .s1) { c0 with p := 0x210, carry := true, t := 0x3FFFF, s := 0x3FFFF }).map
      (fun c => (c.t, c.carry)) = some (0x3FFFF, true) := by decide
/-- V13. -/
theorem test_plus_standard :
    (run (.plus .s1) { c0 with carry := true, t := 0x1FFFF, s := 1, ds := Vector.replicate 8 4 }).map
      (fun c => (c.t, c.s, c.carry)) = some (0x20000, 4, true) := by decide
/-- V15. -/
theorem test_plus_star :
    (run (.plusStar .s1) { c0 with s := 3, a := 5 }).map (fun c => (c.t, c.a)) = some (1, 0x20002) ∧
      (run (.plusStar .s1) { c0 with t := 0x20000, s := 0x20000, a := 1 }).map (fun c => (c.t, c.a)) =
        some (0x20000, 0) := by decide
/-- V15, the carry in Extended mode. -/
theorem test_plus_star_extended :
    (run (.plusStar .s1) { c0 with p := 0x210, carry := true, s := 3, a := 5 }).map
      (fun c => (c.t, c.a, c.carry)) = some (2, 2, true) := by decide
/-- V12. -/
theorem test_two_star : (run (.twoStar .s0) { c0 with t := 0x3FFFF }).map (fun c => c.t) = some 0x3FFFE := by decide
/-- V12. -/
theorem test_two_slash : (run (.twoSlash .s0) { c0 with t := 0x20001 }).map (fun c => c.t) = some 0x30000 := by decide
/-- V11. -/
theorem test_not : (run (.bitNot .s0) { c0 with t := 0x15555 }).map (fun c => c.t) = some 0x2AAAA := by decide
/-- V11. -/
theorem test_and :
    (run (.bitAnd .s0) { c0 with t := 0x0FF0F, s := 0x33333, ds := Vector.replicate 8 4 }).map (fun c => (c.t, c.s)) =
      some (0x03303, 4) := by decide
/-- V11. -/
theorem test_xor :
    (run (.bitXor .s0) { c0 with t := 0x0FF0F, s := 0x33333 }).map (fun c => c.t) = some 0x3CC3C := by decide
/-- V5. -/
theorem test_drop :
    (run (.drop .s0) { c0 with t := 1, s := 2, ds := Vector.replicate 8 3 }).map (fun c => (c.t, c.s)) = some (2, 3) :=
  by decide
/-- R183's worked example. -/
theorem test_dup :
    (run (.dup .s0) { c0 with t := 7, s := 8 }).map (fun c => (c.t, c.s, c.ds[c.dp])) = some (7, 7, 8) := by decide
/-- R185's worked example. -/
theorem test_over :
    (run (.over .s0) { c0 with t := 2, s := 1 }).map (fun c => (c.t, c.s, c.ds[c.dp])) = some (1, 2, 1) := by decide
/-- V6. -/
theorem test_push :
    (run (.push .s0) { c0 with t := 0x11, s := 0x22, r := 0x33 }).map (fun c => (c.t, c.r, c.rs[c.rp])) =
      some (0x22, 0x11, 0x33) := by decide
/-- V6. -/
theorem test_pop :
    (run (.pop .s0) { c0 with t := 0x22, r := 0x11, rs := Vector.replicate 8 0x33 }).map (fun c => (c.t, c.s, c.r)) =
      some (0x11, 0x22, 0x33) := by decide
/-- V10. -/
theorem test_a_store :
    (run (.aStore .s0) { c0 with t := 0x3FFFF, s := 1 }).map (fun c => (c.a, c.t)) = some (0x3FFFF, 1) := by decide
/-- V10. -/
theorem test_a_fetch :
    (run (.aFetch .s0) { c0 with a := 0x12345, t := 1 }).map (fun c => (c.t, c.s, c.a)) =
      some (0x12345, 1, 0x12345) := by decide
/-- V10. -/
theorem test_b_store :
    (run (.bStore .s0) { c0 with t := 0x3FF45, s := 1 }).map (fun c => (c.b, c.t)) = some (0x145, 1) := by decide
/-- R180's worked example: only the slot pointer moves. -/
theorem test_nop : run (.nop .s0) c0 = some { c0 with slot := .s1 } := by decide

/-! ### Ports, IOCS and pins, from the spec's vectors -/

/-- The outside forces a high level on the pin at IOCS bit 17; a low one. -/
def high : Ext := { Ext.undriven with p17 := some true }
def low : Ext := { Ext.undriven with p17 := some false }

/-- A core that sleeps in `!a` to the Right port. -/
def writer : NodeState := { c0 with a := 0x1D5, t := 0x12345, i := 0x0A9B2, blocked := some .storeA }

/-- A core that sleeps in an instruction fetch from the Right port. -/
def reader : NodeState := { c0 with p := 0x1D5, fetching := true, blocked := some .instr }

/-- V18. -/
theorem test_selects :
    allDirs.filter (selects 0x155) = [] ∧ allDirs.filter (selects 0x165) = [.left, .up] ∧
      allDirs.filter (selects 0x1A5) = allDirs := by decide
/-- V19. -/
theorem test_neighbours :
    allDirs.map (neighbour 25) = [some 24, some 35, some 26, some 15] ∧
      allDirs.map (neighbour 39) = [some 38, some 29, none, none] := by decide
/-- V19: the Right neighbour of node 12 blocked writing, and blocked reading. -/
theorem test_iocs_pending :
    (chip2 12 c0 13 writer).iocsBit 12 15 = some true ∧ (chip2 12 c0 13 writer).iocsBit 12 16 = some true ∧
      (chip2 12 c0 13 reader).iocsBit 12 16 = some false := by decide
/-- V19: node 00 after reset, node 03 before and after node 04 raises its line. -/
theorem test_iocs_edges :
    [12, 11, 10, 9].map ((chip 0 c0).iocsBit 0) = [some false, some true, some false, some true] ∧
      (chip 3 c0).iocsBit 3 17 = some true ∧
      (chip2 3 c0 4 { c0 with iocsw := 0x15755 }).iocsBit 3 17 = some false := by decide
/-- V19: a pin driven high, and a pin pulled down. -/
theorem test_iocs_pin :
    (chip 10 { c0 with iocsw := 0x30000 }).iocsBit 10 17 = some true ∧ (chip 10 c0).iocsBit 10 17 = some false := by
  decide
/-- R279: a fetch from the Right port takes the word of the neighbour that is writing, and both go on. -/
theorem test_rendezvous :
    stepped (chip2 12 { reader with blocked := none } 13 writer) 12 =
        some { c0 with p := 0x1D5, i := 0x12345 } ∧
      (stepped (chip2 12 { reader with blocked := none } 13 writer) 13).map (fun c => (c.blocked, c.t, c.slot)) =
        some (none, 0, .s1) := by decide
/-- V20: node 32, wake on high, the pin high and then low. -/
theorem test_pin_wake :
    (chip 32 { c0 with ext := { Ext.undriven with p17 := some true } }).pinWakes 32 0x145 = true ∧
      (chip 32 { c0 with ext := { Ext.undriven with p17 := some false } }).pinWakes 32 0x145 = false := by decide
/-- V20, last row: a second access with the detector disarmed sleeps. -/
theorem test_pin_disarmed :
    (chip 32 { c0 with disarmedBy := some 0x145, ext := { Ext.undriven with p17 := some true } }).pinWakes 32 0x145 =
      false := by decide
/-- R342: the second word of a transmission waits for the first: a store to DATA, and turning the serdes on, leave the
link not ready, and the pin at its wake level does not complete UP while the node sends. -/
theorem test_serdes_waits :
    ((result (exec (.storeA .s0) (chip 1 { c0 with a := 0x141, t := 5, linkReady := true }))).map
      (fun c => (c.dev, c.linkReady)) = some (5, false)) ∧
    ((result (exec (.storeA .s0) (chip 1 { c0 with a := 0x15D, t := 0x20000, linkReady := true, ext := high }))).map
      (fun c => (c.iocsw, c.linkReady)) = some (0x20000, false)) ∧
    (chip 1 { c0 with iocsw := 0x20000, ext := high }).pinWakes 1 0x145 = false := by decide
/-- R402: a wake line that leaves its level arms the detector. -/
theorem test_pin_rearms :
    ((chip 32 { c0 with disarmedBy := some 0x145 }).applyPin 32 .p17 (some false)).core.disarmedBy = none ∧
      ((chip 32 { c0 with disarmedBy := some 0x145 }).applyPin 32 .p17 (some true)).core.disarmedBy = some 0x145 := by
  decide
/-- R289, R325, R326: the pin at its wake level completes the access that node 32 sleeps in, in the event that brings it
there, and disarms the detector; the pin gone again, and a level that is not the wake level, change nothing of that. -/
theorem test_pin_wakes_sleeper :
    let sleeper := { c0 with a := 0x145, blocked := some .storeA, t := 5, s := 6, ext := low }
    let woken := (chip 32 sleeper).applyPin 32 .p17 (some true)
    (woken.core.blocked, woken.core.t, woken.core.slot, woken.core.disarmedBy) = (none, 6, .s1, some 0x145) ∧
      (woken.applyPin 32 .p17 (some false)).core.blocked = none ∧
      ((chip 32 sleeper).applyPin 32 .p17 none).core.blocked = some .storeA := by decide
/-- R332, R334: node 04 raises the line to node 03, which sleeps in a store to UP: its word stays in the latch. -/
theorem test_node04_wakes_node03 :
    (let s := chip2 4 { c0 with a := 0x15D, t := 0x15755 } 3
       { c0 with a := 0x145, dev := 7, blocked := some .storeA }
     match exec (.storeA .s0) s with
     | .next t => some ((t.node 3).blocked, (t.node 3).dev, (t.node 3).slot)
     | _ => none) = some (none, 7, .s1) := by decide
/-- R343: a word that arrives goes to the read of UP in which node 01 sleeps. -/
theorem test_serdes_word_wakes :
    let t := (chip 1 { c0 with a := 0x145, blocked := some .fetchA }).applySerdesWord 1 0x12345
    (t.core.blocked, t.core.t, t.core.linkReady) = (none, 0x12345, false) := by decide
/-- R286, U6: two writers answer one multiport read. -/
theorem test_collision :
    stop (exec (.fetchA .s0) ((chip2 12 { c0 with a := 0x1F5 } 13 writer).setNode 11 { writer with a := 0x175 })) =
      some .portCollision := by decide

/-! ### The host's row words -/

/-- A row's word (`dup` in slot 0, stored bits 10010 at bits 17 to 13) decodes and runs as its instruction. -/
theorem test_table_word :
    decodeTableWord 24 0x24000 = some (.dup .s0) ∧
      (stepped (State.reset.withFetchWord 24 0x24000) 0).map (fun c => (c.t, c.dp, c.slot)) = some (0, 1, .s1) := by
  decide

/-! ### Witnesses: for each statement with hypotheses, states and operands that meet them -/

theorem nodes_of_chip (n m : Node) (c : NodeState) : (chip n c).node m = if m = n then c else c0 := by
  unfold chip State.node
  by_cases h : m = n
  · subst h; simp
  · rw [if_neg h]
    have : n.val ≠ m.val := fun e => h (Fin.ext e.symm)
    simp [this]

theorem witness_DecodeOfEncode :
    (Instr.ret .s3).wellFormed = true ∧ (Instr.call (.slot2 7)).wellFormed = true ∧
      (Instr.aStore .s2).wellFormed = true := by decide

theorem witness_ReservedBitsIgnored :
    (decode 0x100AA .s0).field?.isSome = true ∧ (0x100AA : Word) ≠ 0x11CAA ∧
      ∀ k : Fin 18, k.val < 10 ∨ 13 ≤ k.val → (0x11CAA : Word).getLsbD k = (0x100AA : Word).getLsbD k := by decide

theorem witness_BranchTargets :
    canon 0x100AA .s0 = 0x02 ∧ canon 0x2D77F .s1 = 0x02 ∧ canon 0x05D4D .s2 = 0x03 ∧ canon 0x2C9B2 .s0 = 0x1C := by
  decide

theorem witness_MemoryMap :
    (0x000 : Addr).getLsbD 8 = false ∧ (0x0FF : Addr).getLsbD 8 = false ∧ (0x0FF : Addr).getLsbD 7 = true ∧
      (0x100 : Addr).getLsbD 8 = true := by decide

theorem witness_IoMap :
    [(0x15D : Addr), 0x141, 0x1D5, 0x1F5, 0x175, 0x145, 0x155, 0x100, 0x1FF].all (fun a => a.getLsbD 8) = true := by
  decide

theorem witness_PortSelection :
    [(0x105 : Addr), 0x155, 0x1A5, 0x1F5].all (fun a => a.getLsbD 8 && a.extractLsb' 0 4 == 5) = true := by decide

theorem witness_NeighbourPattern :
    neighbour 0 .right = some 1 ∧ neighbour 38 .left = some 37 ∧ neighbour 39 .down = some 29 ∧
      neighbour 29 .up = some 19 := by decide

/-- Node 12 with a fetch from RAM, from the last address of ROM, and with an opcode, to move. -/
theorem witness_StepRunsDecoded :
    (chip 12 c0).turn = .node 12 ∧ ((chip 12 c0).node 12).fetching = false ∧
      (decode ((chip 12 c0).node 12).i ((chip 12 c0).node 12).slot).wellFormed = true ∧
      ((chip 12 { c0 with fetching := true }).node 12).fetching = true ∧
      ((chip 12 { c0 with fetching := true }).node 12).p.getLsbD 8 = false := by decide

theorem witness_StepRunsDecoded_next :
    ∃ t, step (chip 12 { c0 with fetching := true }) = .next t ∧
      ∃ u : State, u.node 12 = t.node 12 ∧ u.turn = .node 12 :=
  ⟨_, rfl, { ((chip 12 { c0 with fetching := true }).onTurn 12).complete .instr .s0 (Config.ramUnwritten 0 12 0x10#6)
    with agenda := [.node 12] }, rfl, rfl⟩

theorem witness_InstructionFetch :
    let s := chip 12 { c0 with fetching := true, p := 0x2FF }
    s.turn = .node 12 ∧ (s.node 12).fetching = true ∧ (s.node 12).p.getLsbD 8 = false := by decide

/-- The hypotheses of `FetchFollows`, at both ends of the address space. -/
theorem witness_FetchFollows :
    [(0x000 : PAddr), 0x0FF, 0x200].all (fun p =>
      let s := chip 12 { c0 with fetching := true, p := p }
      s.core.fetching && !s.core.p.getLsbD 8) = true := by decide

theorem witness_ResetEvent : ({ chip 12 c0 with agenda := [.event .reset] } : State).turn = .event .reset := by decide

/-- A chip in which node 12 sleeps and every other node is awake meets both invariants, and it can step. -/
theorem witness_invariants :
    (chip 12 reader).MemoryCanonical ∧ (chip 12 reader).HandshakesSound ∧ (chip 12 reader).Goes ∧
      (chip 12 reader).Asleep 12 := by
  have hn := nodes_of_chip 12
  have hb : ∀ n, ((chip 12 reader).node n).blocked = if n = 12 then some .instr else none := by
    intro n; rw [hn]; split <;> rfl
  refine ⟨?_, ⟨?_, ?_, ?_⟩, ⟨_, rfl⟩, ?_⟩
  · intro n; rw [hn]; split <;> rfl
  · intro n op h
    rw [hb] at h
    split at h
    · rename_i e; subst e; injection h with h; subst h; rfl
    · cases h
  · intro n d m v _ h1 h2
    have key : ∀ n, n ≠ 12 → (chip 12 reader).req n d = .idle := by
      intro n e; apply State.req_awake; rw [hb, if_neg e]
    have e1 : n = 12 := by by_contra e; rw [key n e] at h1; cases h1
    have e2 : m = 12 := by by_contra e; rw [key m e] at h2; cases h2
    subst e1 e2
    rw [h1] at h2
    cases h2
  · intro n op h
    rw [hb] at h
    split at h
    · rename_i e; subst e; injection h with h; subst h; exact fun hw => absurd hw (by decide)
    · cases h
  · unfold State.Asleep; rw [hb]; simp

/-- Node 32 sleeps on its pin, which is off its wake level. -/
theorem witness_NoReadySleeper :
    let s := chip 32 { c0 with a := 0x145, blocked := some .fetchA, ext := low }
    s.NoReadySleeper ∧ s.Asleep 32 ∧ waitsForPin 32 0x145 = true := by
  refine ⟨?_, by unfold State.Asleep; decide, by decide⟩
  intro n op h
  rw [nodes_of_chip] at h
  split at h
  · rename_i e; subst e; injection h with h; subst h; exact fun _ => by decide
  · cases h

theorem witness_stacks :
    ((List.range 10).map (BitVec.ofNat 18)).length = 10 ∧ ((List.range 9).map (BitVec.ofNat 18)).length = 9 := by decide

/-- Settled: by the opcode before; in slot 3 by a memory opcode in slot 2 and by one in slot 1 (V17). -/
theorem witness_Settled :
    Settled .s0 (chip 12 c0).core ∧
      Settled .s3 (chip 12 { c0 with settled := false, i := 0x2C908 }).core ∧
      Settled .s3 (chip 12 { c0 with settled := false, i := 0x371B0 }).core := by
  refine ⟨.inl (by decide), .inr ⟨rfl, .inr (by decide)⟩, .inr ⟨rfl, .inl (by decide)⟩⟩

/-- Unsettled (V17): `dup` in slot 2 before an add in slot 3; a changed T before an add in slot 2. -/
theorem witness_UnsettledAdds :
    ¬ Settled .s3 (chip 12 { c0 with settled := false, i := 0x24D90 }).core ∧
      ¬ Settled .s2 (chip 12 { c0 with settled := false, i := 0x05DF2 }).core ∧
      (chip 12 { c0 with settled := false, i := 0x05DF2 }).core.p.getLsbD 9 = false := by
  refine ⟨?_, ?_, by decide⟩
  · rintro (h | ⟨-, h⟩)
    · exact absurd h (by decide)
    · revert h; decide
  · rintro (h | ⟨h, -⟩)
    · exact absurd h (by decide)
    · cases h

theorem witness_EighteenStepMultiply :
    (chip 12 { c0 with s := 0x20000, a := 0x3FFFF }).core.t = 0#18 ∧
      (chip 12 { c0 with s := 0x20000, a := 0x3FFFF }).core.p.getLsbD 9 = false := by decide

/-- A transfer that completes and changes P9, a `call`, a `;:`, and a fetch. -/
theorem witness_ExtendedModeTable :
    (∃ t, exec (.jump (.slot0 0x210)) (chip 12 c0) = .next t ∧ t.core.p.getLsbD 9 ≠ (chip 12 c0).core.p.getLsbD 9) ∧
      (∃ t, exec (.call (.slot0 0x3FF)) (chip 12 c0) = .next t) ∧ (∃ t, exec (.coroutine .s2) (chip 12 c0) = .next t) ∧
      ∃ t, (chip 12 c0).fetchStep = .next t :=
  ⟨⟨_, rfl, by decide⟩, ⟨_, rfl⟩, ⟨_, rfl⟩, ⟨_, rfl⟩⟩

/-- Pointers at both ends of RAM and ROM. -/
theorem witness_LoadsFromMemory :
    [(0x000 : Addr), 0x07F, 0x080, 0x0FF].all (fun a => !(chip 12 { c0 with b := a }).core.b.getLsbD 8) = true := by
  decide

theorem witness_StoresToRam :
    [(0x000 : Addr), 0x07F].all (fun a =>
      !(chip 12 { c0 with b := a }).core.b.getLsbD 8 && !(chip 12 { c0 with b := a }).core.b.getLsbD 7) = true := by
  decide

/-- A store to the last RAM address, and its other name (R61). -/
theorem witness_LoadAfterStore :
    let c := (chip 12 { c0 with a := 0x7F, b := 0x3F }).core
    c.a.getLsbD 8 = false ∧ c.a.getLsbD 7 = false ∧ c.b.getLsbD 8 = false ∧ c.b.getLsbD 7 = false ∧
      c.a.extractLsb' 0 6 = c.b.extractLsb' 0 6 := by decide

theorem witness_StoreToRomStops :
    memOpOf (.storeB .s0) = some .storeB ∧ MemOp.storeB.isStore = true ∧
      [(0x080 : Addr), 0x0FF].all (fun a => !a.getLsbD 8 && a.getLsbD 7) = true := by decide

/-- An undefined address for an opcode, and for a fetch. -/
theorem witness_UndefinedIoStops :
    memOpOf (.fetchB .s0) = some .fetchB ∧
      place 12 (MemOp.fetchB.addr (chip 12 { c0 with b := 0x155 }).core) = .undefined ∧
      place 12 ((chip 12 { c0 with p := 0x141, fetching := true }).core.p.extractLsb' 0 9) = .undefined := by decide

/-- A store to IOCS; one on node 03 that turns the bus to input, and one that does not; a serdes turned on; node 04
taking node 03's line off its level, and to it, with node 03 asleep. -/
theorem witness_IocsStore :
    memOpOf (.storeA .s0) = some .storeA ∧ MemOp.storeA.isStore = true ∧
      MemOp.storeA.addr (chip 12 { c0 with a := 0x15D }).core = 0x15D ∧
      (let s := chip 3 { c0 with a := 0x15D, ext := { Ext.undriven with bus := some 0x3FFFF } }
       OnBus s.cur ∧ s.core.iocsw.getLsbD 12 = true ∧ s.core.t.getLsbD 12 = false ∧ s.core.ext.bus = some 0x3FFFF) ∧
      (chip 3 { c0 with a := 0x15D, t := 0x01000 }).core.t.getLsbD 12 = true ∧
      (let s := chip 31 { c0 with a := 0x15D, t := 0x20000, linkReady := true }
       OnSerdes s.cur ∧ s.core.t.getLsbD 17 ≠ s.core.iocsw.getLsbD 17) ∧
      (let s := chip2 4 { c0 with a := 0x15D, iocsw := 0x15755 } 3 { c0 with disarmedBy := some 0x145 }
       s.cur = 4 ∧ OnBus 3 ∧ (s.node 3).disarmedBy = some 0x145) ∧
      (let s := chip2 4 { c0 with a := 0x15D, t := 0x15755 } 3 { c0 with a := 0x145, blocked := some .storeA }
       s.cur = 4 ∧ (s.node 3).blocked = some .storeA ∧ PinSelected 3 (MemOp.storeA.addr (s.node 3)) ∧
         s.core.t.getLsbD 9 = true) := by decide

theorem witness_MissingNeighbourBits : neighbour 0 .left = none ∧ neighbour 39 .up = none := by decide

/-- A node with a neighbour in a direction, and a pin with a level. -/
theorem witness_IocsReadBits :
    neighbour 12 .right = some 13 ∧ (chip2 12 c0 13 reader).req 13 .right = .reading ∧
      (chip2 12 c0 13 writer).req 13 .right = .writing 0x12345 ∧ pinRead 10 .p17 = true ∧
      (chip 10 c0).pinLevel 10 .p17 = some false := by decide

/-- By an opcode, and by a fetch, in both halves of P. -/
theorem witness_IocsLoad :
    memOpOf (.fetchA .s0) = some .fetchA ∧ MemOp.fetchA.isStore = false ∧
      MemOp.fetchA.addr (chip 12 { c0 with a := 0x15D }).core = 0x15D ∧
      [(0x15D : PAddr), 0x35D].all (fun p =>
        let s := chip 12 { c0 with fetching := true, p := p }
        decide (s.turn = .node 12) && (s.node 12).fetching && decide ((s.node 12).p.extractLsb' 0 9 = 0x15D)) = true := by
  decide

/-- DATA on a node of each device, and both modes of a bus; by an opcode and by a fetch. -/
theorem witness_DataAccess :
    [(1 : Node), 3, 5, 31, 36, 37, 39].all (fun n => decide (place n 0x141 = .data)) = true ∧
      memOpOf (.storeA .s0) = some .storeA ∧ memOpOf (.fetchA .s0) = some .fetchA ∧
      MemOp.fetchA.addr (chip 3 { c0 with a := 0x141 }).core = 0x141 ∧
      (chip 3 c0).core.iocsw.getLsbD 12 = true ∧
      (chip 3 { c0 with iocsw := 0x14555 }).core.iocsw.getLsbD 12 = false ∧ OnSerdes 1 ∧ OnBus 5 ∧ Analog 39 ∧
      (let s := chip 3 { c0 with fetching := true, p := 0x141 }
       s.turn = .node 3 ∧ (s.node 3).fetching = true ∧ (s.node 3).p.extractLsb' 0 9 = 0x141) := by
  decide

/-- On node 03: a store that begins off the level, and one that begins at it; one that goes on; a read at the level
with the pins driven, in output mode, and with the detector disarmed. -/
theorem witness_BusUp :
    (let s := chip 3 { c0 with a := 0x145 }
     OnBus s.cur ∧ MemOp.storeA.addr s.core = 0x145 ∧ s.core.blocked ≠ some .storeA ∧
       s.core.iocsw.getLsbD 12 = true ∧ (s.node 4).iocsw.getLsbD 9 = s.core.iocsw.getLsbD 11) ∧
      (let s := chip 3 { c0 with a := 0x145, iocsw := 0x15D55 }
       s.core.blocked ≠ some .storeA ∧ (s.node 4).iocsw.getLsbD 9 ≠ s.core.iocsw.getLsbD 11 ∧
         s.core.disarmedBy ≠ some 0x145) ∧
      (let s := chip 3 { c0 with a := 0x145, iocsw := 0x15D55, blocked := some .storeA }
       s.core.blocked = some .storeA ∧ (s.node 4).iocsw.getLsbD 9 ≠ s.core.iocsw.getLsbD 11 ∧
         s.core.disarmedBy ≠ some 0x145) ∧
      (let s := chip 5 { c0 with a := 0x145, iocsw := 0x14D55, ext := { Ext.undriven with bus := some 0x3FFFF } }
       OnBus s.cur ∧ MemOp.fetchA.isStore = false ∧ (s.node 4).iocsw.getLsbD 7 ≠ s.core.iocsw.getLsbD 11 ∧
         s.core.disarmedBy ≠ some 0x145 ∧ s.core.iocsw.getLsbD 12 = false ∧ s.core.ext.bus = some 0x3FFFF) ∧
      (chip 3 { c0 with iocsw := 0x15D55 }).core.iocsw.getLsbD 12 = true ∧
      ¬ (chip 3 { c0 with disarmedBy := some 0x145 }).core.disarmedBy ≠ some 0x145 := by decide

/-- Node 31 with a ready link; sending and not ready; receiving, not ready, with pin 17 at its level, off it, and with
the detector disarmed. -/
theorem witness_SerdesUp :
    (let s := chip 31 { c0 with a := 0x145, linkReady := true }
     MemOp.storeA.addr s.core = 0x145 ∧ s.core.linkReady = true ∧ OnSerdes s.cur) ∧
      (let s := chip 31 { c0 with a := 0x145, iocsw := 0x20000 }
       s.core.linkReady = false ∧ s.core.iocsw.getLsbD 17 = true) ∧
      (let s := chip 31 { c0 with a := 0x145, ext := high }
       s.core.linkReady = false ∧ s.core.iocsw.getLsbD 17 = false ∧ s.pinLevel s.cur .p17 = some true ∧
         true ≠ s.core.iocsw.getLsbD 11 ∧ s.core.disarmedBy ≠ some 0x145) ∧
      (let s := chip 31 { c0 with a := 0x145, ext := low }
       s.pinLevel s.cur .p17 = some false ∧ ¬ false ≠ s.core.iocsw.getLsbD 11) ∧
      ¬ (chip 31 { c0 with disarmedBy := some 0x145 }).core.disarmedBy ≠ some 0x145 := by decide

theorem noPins_of_right (n : Node) : ¬ PinSelected n 0x1D5 := by
  rintro (⟨h, -⟩ | ⟨h, -⟩) <;> exact absurd h (by decide)

theorem only_right {d : Dir} (h : selects 0x1D5 d = true) : d = .right := by
  cases d
  · rfl
  · exact absurd h (by decide)
  · exact absurd h (by decide)
  · exact absurd h (by decide)

/-- Where every other node is awake, nobody answers. -/
theorem noOffer_chip (n : Node) (c : NodeState) (a : Addr) (store : Bool) : NoOffer (chip n c) n a store := by
  intro d m _ hn ho
  have hm : ((chip n c).node m).blocked = none := by
    rw [nodes_of_chip, if_neg (neighbour_symm hn).2]
    rfl
  unfold Offers at ho
  rw [State.req_awake hm] at ho
  cases store <;> simp at ho

/-- A core with its pin high, low, and low with the level inverted, that accesses LEFT and UP at once. -/
def leftUp (e : Ext) : NodeState := { c0 with a := 0x165, ext := e }

/-- The pin of node 10, alone and with its Up port, and of node 39: at the wake level; off it; with the detector
disarmed; node 04's line to node 05; a ready link and one that sends. -/
theorem witness_PinWake :
    (PinSelected 10 0x165 ∧ PinSelected 10 0x175 ∧ PinSelected 39 0x165 ∧ PinSelected 5 0x145 ∧ PinSelected 1 0x145) ∧
      NoOffer (chip 10 (leftUp high)) 10 0x165 false ∧
      PinReady (chip 10 (leftUp high)) 10 0x165 ∧ PinIdle (chip 10 (leftUp low)) 10 0x165 ∧
      PinIdle (chip 10 { leftUp high with disarmedBy := some 0x165 }) 10 0x165 ∧
      PinReady (chip 39 { leftUp high with disarmedBy := some 0x165 }) 39 0x165 ∧
      PinIdle (chip 5 { c0 with a := 0x145 }) 5 0x145 ∧
      PinReady (chip 1 { c0 with a := 0x145, linkReady := true }) 1 0x145 ∧
      PinIdle (chip 1 { c0 with a := 0x145, iocsw := 0x20000, ext := high }) 1 0x145 := by
  refine ⟨⟨.inl (by decide), .inl (by decide), .inl (by decide), .inr (by decide), .inr (by decide)⟩,
    noOffer_chip 10 _ _ _, ?_, ?_, ?_, ?_, ?_, .inl ⟨.inl rfl, rfl⟩, ?_⟩
  · exact .inr ⟨fun h => absurd h.1 (by decide), true, by decide, by decide, .inr (by decide)⟩
  · exact ⟨fun h => absurd h.1 (by decide), .inr ⟨false, by decide, fun h => absurd h.1 (by decide)⟩⟩
  · refine ⟨fun h => absurd h.1 (by decide), .inr ⟨true, by decide, ?_⟩⟩
    rintro ⟨-, h | h⟩
    · exact absurd h (by decide)
    · exact h (by decide)
  · exact .inr ⟨fun h => absurd h.1 (by decide), true, by decide, by decide, .inl (by decide)⟩
  · exact ⟨fun h => absurd h.1 (by decide), .inr ⟨false, by decide, fun h => absurd h.1 (by decide)⟩⟩
  · exact ⟨fun h => absurd h.2 (by decide), .inl ⟨.inl rfl, by decide⟩⟩

/-- Node 12 stores to its Right port, and node 13 is awake; node 10 accesses LEFT and UP with its pin off the level. -/
theorem witness_PortAccessSleeps :
    (let s := chip 12 { c0 with a := 0x1D5 }
     memOpOf (.storeA .s0) = some .storeA ∧ place s.cur (MemOp.storeA.addr s.core) = .port ∧
       ¬ PinSelected s.cur (MemOp.storeA.addr s.core) ∧ NoOffer s s.cur (MemOp.storeA.addr s.core) true) ∧
      (let s := chip 10 (leftUp low)
       place s.cur (MemOp.storeA.addr s.core) = .port ∧ PinIdle s s.cur (MemOp.storeA.addr s.core) ∧
         NoOffer s s.cur (MemOp.storeA.addr s.core) true) :=
  ⟨⟨rfl, by decide, noPins_of_right 12, noOffer_chip 12 _ _ _⟩,
    by decide, witness_PinWake.2.2.2.1, noOffer_chip 10 _ _ _⟩

/-- Node 12 reads its Right port, in which node 13 sleeps with a word. -/
theorem witness_Rendezvous :
    let s := chip2 12 { c0 with a := 0x1D5 } 13 writer
    memOpOf (.fetchA .s0) = some .fetchA ∧ ¬ PinSelected s.cur (MemOp.fetchA.addr s.core) ∧
      selects (MemOp.fetchA.addr s.core) .right = true ∧ neighbour s.cur .right = some 13 ∧ Offers s 13 .right false ∧
      (s.node 13).blocked = some .storeA ∧
      ∀ d' m', selects (MemOp.fetchA.addr s.core) d' = true → neighbour s.cur d' = some m' →
        Offers s m' d' false → d' = .right :=
  ⟨rfl, noPins_of_right 12, by decide, by decide, ⟨0x12345, by decide⟩, by decide, fun _ _ h _ _ => only_right h⟩

/-- Node 10 reads LEFT and UP at once, with node 20 writing UP, and its own pin at the wake level, and off it. -/
theorem witness_Rendezvous_pin :
    (let s := chip2 10 (leftUp high) 20 { writer with a := 0x145 }
     selects (MemOp.fetchA.addr s.core) .up = true ∧ neighbour s.cur .up = some 20 ∧
       s.req 20 .up = .writing 0x12345 ∧ (s.node 20).blocked = some .storeA ∧
       (∀ d', selects (MemOp.fetchA.addr s.core) d' = true → (neighbour s.cur d').isSome = true → d' = .up) ∧
       s.pinLevel 10 .p17 = some true ∧ s.core.disarmedBy ≠ some 0x165) ∧
      (let s := chip2 10 (leftUp low) 20 { writer with a := 0x145 }
       s.req 20 .up = .writing 0x12345 ∧ s.pinLevel 10 .p17 = some false) := by
  refine ⟨⟨by decide, by decide, by decide, by decide, ?_, by decide, by decide⟩, by decide, by decide⟩
  intro d' h1 h2
  revert h1 h2
  cases d' <;> decide

/-- Node 12 fetches from its Right port: with node 13 awake, and with node 13 writing; node 10 fetches from its pin, and
from LEFT and UP at once, with the pin at its level and node 20 writing. -/
theorem witness_FetchFromPort :
    (let s := chip 12 { reader with blocked := none }
     s.turn = .node 12 ∧ (s.node 12).fetching = true ∧ place 12 ((s.node 12).p.extractLsb' 0 9) = .port ∧
       NoOffer s 12 ((s.node 12).p.extractLsb' 0 9) false) ∧
      ¬ PinSelected 12 ((chip 12 reader).core.p.extractLsb' 0 9) ∧
      (let s := chip2 12 reader 13 writer
       s.turn = .node 12 ∧ (s.node 12).fetching = true ∧ s.req 13 .right = .writing 0x12345 ∧
         (s.node 13).blocked = some .storeA ∧ neighbour 12 .right = some 13) ∧
      (let s := chip 10 { c0 with p := 0x175, fetching := true, ext := high }
       (s.node 10).fetching = true ∧ place 10 0x175 = .port ∧ PinSelected 10 0x175 ∧ PinReady s 10 0x175 ∧
         NoOffer s 10 0x175 false) ∧
      (let s := chip2 10 { c0 with p := 0x165, fetching := true, ext := high } 20 { writer with a := 0x145 }
       s.turn = .node 10 ∧ (s.node 10).fetching = true ∧ place 10 0x165 = .port ∧ PinSelected 10 0x165 ∧
         selects 0x165 .up = true ∧ neighbour 10 .up = some 20 ∧ s.req 20 .up = .writing 0x12345 ∧
         (s.node 20).blocked = some .storeA ∧
         ∀ d', selects 0x165 d' = true → (neighbour 10 d').isSome = true → d' = .up) :=
  ⟨⟨by decide, by decide, by decide, noOffer_chip 12 _ _ _⟩, noPins_of_right 12, by decide,
    ⟨by decide, by decide, .inl (by decide),
      .inr ⟨fun h => absurd h.1 (by decide), true, by decide, by decide, .inr (by decide)⟩, noOffer_chip 10 _ _ _⟩,
    by decide, by decide, by decide, .inl (by decide), by decide, by decide, by decide, by decide,
    fun d' => by cases d' <;> decide⟩

/-- Node 12 reads Right and Left at once, with both neighbours writing; and fetches from there. -/
theorem witness_MultiportCollisionStops :
    (let s := (chip2 12 { c0 with a := 0x1F5 } 13 writer).setNode 11 { writer with a := 0x175 }
     memOpOf (.fetchA .s0) = some .fetchA ∧ selects (MemOp.fetchA.addr s.core) .right = true ∧
       neighbour s.cur .right = some 13 ∧ Offers s 13 .right false ∧
       selects (MemOp.fetchA.addr s.core) .left = true ∧ neighbour s.cur .left = some 11 ∧ Offers s 11 .left false) ∧
      (let s := (chip2 12 { reader with p := 0x1F5 } 13 writer).setNode 11 { writer with a := 0x175 }
       s.turn = .node 12 ∧ (s.node 12).fetching = true ∧ selects ((s.node 12).p.extractLsb' 0 9) .right = true ∧
         Offers s 13 .right false ∧ selects ((s.node 12).p.extractLsb' 0 9) .left = true ∧ Offers s 11 .left false) :=
  ⟨⟨rfl, by decide, by decide, ⟨0x12345, by decide⟩, by decide, by decide, ⟨0x12345, by decide⟩⟩,
    by decide, by decide, by decide, ⟨0x12345, by decide⟩, by decide, ⟨0x12345, by decide⟩⟩

/-- Nodes 12 and 13 both read the port between them. -/
theorem witness_BothReadOrWriteHang :
    let s := chip2 12 reader 13 reader
    s.SleepsInItsAccess ∧ neighbour 12 .right = some 13 ∧ Hung s 12 13 .right ∧ OnlyPort s 12 .right ∧
      OnlyPort s 13 .right ∧ s.turn = .node 12 := by
  have hn : ∀ n, (chip2 12 reader 13 reader).node n = if n = 12 ∨ n = 13 then reader else c0 := by
    intro n
    unfold chip2
    rw [State.node_setNode, nodes_of_chip]
    by_cases h : n = 13
    · rw [if_pos h, if_pos (.inr h)]
    · rw [if_neg h]
      by_cases h' : n = 12
      · rw [if_pos h', if_pos (.inl h')]
      · rw [if_neg h', if_neg (by rintro (e | e) <;> contradiction)]
  have ho : ∀ n, n = 12 ∨ n = 13 → OnlyPort (chip2 12 reader 13 reader) n .right := by
    intro n h op hb d hs
    rw [hn, if_pos h] at hb hs
    injection hb with hb
    subst hb
    exact only_right hs
  refine ⟨?_, by decide, .inl ⟨by decide, by decide⟩, ho 12 (.inl rfl), ho 13 (.inr rfl), rfl⟩
  intro n op h
  rw [hn] at h ⊢
  split at h
  · rename_i e
    rw [if_pos e]
    injection h with h
    subst h
    rfl
  · cases h

/-- A step of node 12, awake, from a state in which no core sleeps: `b!`. -/
theorem witness_RegisterWriters :
    decode 0x289B2 .s0 = .bStore .s0 ∧ (chip 12 { c0 with i := 0x289B2, t := 5 }).SleepsInItsAccess ∧
      (chip 12 { c0 with i := 0x289B2, t := 5 }).turn ≠ .event .reset ∧
      (chip 12 { c0 with i := 0x289B2, t := 5 }).Goes := by
  refine ⟨by decide, ?_, (fun h => by cases h), ⟨_, rfl⟩⟩
  intro n op h
  rw [nodes_of_chip] at h
  split at h <;> cases h

/-- Node 12 jumps into Extended mode. -/
theorem witness_ExtendedModeByTransfersOnly :
    ∃ t, step (chip 12 { c0 with i := 0x102AA }) = .next t ∧
      (t.node 12).extended ≠ ((chip 12 { c0 with i := 0x102AA }).node 12).extended :=
  ⟨_, rfl, by decide⟩

/-- A store to RAM word $20 of node 12, seen at RAM word $21 of it, at $20 of node 13, and in ROM. -/
theorem witness_MemoryFrame :
    ∃ t, exec (.storeA .s0) (chip 12 { c0 with a := 0x20 }) = .next t ∧
      place 12 (MemOp.storeA.addr (chip 12 { c0 with a := 0x20 }).core) = .ram 0x20 ∧
      place 12 0x021 ≠ .ram 0x20 ∧ place 12 0x0A0 ≠ .ram 0x20 ∧ place 13 0x020 = .ram 0x20 :=
  ⟨_, rfl, by decide, by decide, by decide, by decide⟩

/-- A pin with control bits that nothing outside drives, and one that the outside drives; a bus in output and in input
mode; a serdes that sends and one that receives. -/
theorem witness_IocsFields :
    pinDriven 38 .p17 = true ∧ ((chip 38 c0).node 38).ext.at .p17 = none ∧
      ((chip 38 { c0 with ext := high }).node 38).ext.at .p17 = some true ∧
      (chip 3 { c0 with dev := 7 }).busOutputLevels 3 = some 7 ∧
      (chip 5 { c0 with iocsw := 0 }).busOutputLevels 5 = none ∧
      (chip 1 { c0 with iocsw := 0x20000, dev := 0x20000 }).serdesPad 1 = some true ∧
      (chip 31 { c0 with dev := 0x20000 }).serdesPad 31 = none := by decide

/-- One event of each kind, for nodes that have the device: a counter that wraps, a serdes that receives and one that
sends, a bus in output and in input mode, a pin whose level is off the wake level; and sleepers that a pin, a word that
arrives and a word that is sent wake. -/
theorem witness_DeviceClocks :
    ({ chip 36 c0 with agenda := [.event (.vco 36 262144)] } : State).turn = .event (.vco 36 262144) ∧
      ({ chip 31 c0 with agenda := [.event (.serdesClock 31 true)] } : State).turn = .event (.serdesClock 31 true) ∧
      ((chip 31 c0).node 31).iocsw.getLsbD 17 = false ∧
      ({ chip 1 c0 with agenda := [.event (.serdesWord 1 5)] } : State).turn = .event (.serdesWord 1 5) ∧
      ({ chip 1 c0 with agenda := [.event (.serdesSent 1)] } : State).turn = .event (.serdesSent 1) ∧
      ((chip 1 { c0 with iocsw := 0x20000 }).node 1).iocsw.getLsbD 17 = true ∧
      ({ chip 3 c0 with agenda := [.event (.busPins 3 (some 7))] } : State).turn = .event (.busPins 3 (some 7)) ∧
      ((chip 3 c0).node 3).iocsw.getLsbD 12 = true ∧
      ((chip 5 { c0 with iocsw := 0 }).node 5).iocsw.getLsbD 12 = false ∧
      ({ chip 32 c0 with agenda := [.event (.pin 32 .p17 (some false))] } : State).turn =
        .event (.pin 32 .p17 (some false)) ∧ pinRead 32 .p17 = true ∧
      (let c := { c0 with a := 0x145, blocked := some .fetchA, ext := high }
       PinSelected 32 (MemOp.fetchA.addr c) ∧ wakeInput (chip 32 c) 32 = some true ∧
         WakeHolds (chip 32 c) 32 (MemOp.fetchA.addr c) true) ∧
      (let c := { c0 with a := 0x145, blocked := some .fetchA, linkReady := true }
       PinSelected 1 (MemOp.fetchA.addr c) ∧ LinkReady (chip 1 c) 1) ∧
      let c := { c0 with a := 0x145, iocsw := 0x20000, blocked := some .storeA, linkReady := true }
      PinSelected 1 (MemOp.storeA.addr c) ∧ LinkReady (chip 1 c) 1 := by decide

end Sys2Proof.Tests
end

/-! # The data stack's ring (R22 to R28)

Proves `Obligations.DataStackRing`. Two facts carry it: popping is a walk down the ring that writes nothing
(`dpop_iterate_add_two`), so it repeats with the ring's period, and a push hides nothing of the nine words that were on
top before it (`dpop_iterate_dpush_t`), so pushed words come back last in first out. -/

namespace Sys2Proof.Machine

/-! ### Positions in a ring of eight -/

theorem ringSub_zero (d : Fin 8) : d - Fin.ofNat 8 0 = d := sub_zero d

theorem ringSub_succ (d : Fin 8) (j : Nat) : d - Fin.ofNat 8 (j + 1) = d - Fin.ofNat 8 j - 1 := by
  rw [Fin.ext_iff]
  simp only [Fin.sub_def, Fin.ofNat_eq_cast, Fin.val_natCast, Fin.val_one]
  omega

/-- The register above `d` is, around the ring, the seventh below it: `d` and the six below it are others. -/
theorem ringSucc_ne_sub (d : Fin 8) {k : Nat} (hk : k < 7) : (d + 1).val ≠ (d - Fin.ofNat 8 k).val := by
  simp only [Fin.sub_def, Fin.add_def, Fin.ofNat_eq_cast, Fin.val_natCast, Fin.val_one]
  omega

/-! ### Popping -/

/-- The core with ring register `d` in T and the one below it in S, as popping leaves them. -/
def NodeState.ringOnTop (c : NodeState) (d : Fin 8) : NodeState :=
  { c with t := c.ds[d], s := c.ds[d - 1], dp := d - 1 - 1 }

theorem NodeState.dpop_dpop (c : NodeState) : c.dpop.dpop = c.ringOnTop c.dp := rfl

theorem NodeState.dpop_ringOnTop (c : NodeState) (d : Fin 8) : (c.ringOnTop d).dpop = c.ringOnTop (d - 1) := rfl

@[simp] theorem NodeState.ringOnTop_t (c : NodeState) (d : Fin 8) : (c.ringOnTop d).t = c.ds[d] := rfl

/-- From the second pop on, T and S are the ring read downwards; the ring itself is never written. -/
theorem NodeState.dpop_iterate_add_two (c : NodeState) (j : Nat) :
    NodeState.dpop^[j + 2] c = c.ringOnTop (c.dp - Fin.ofNat 8 j) := by
  induction j with
  | zero => rw [ringSub_zero, ← dpop_dpop, Function.iterate_succ_apply, Function.iterate_one]
  | succ j ih => rw [Function.iterate_succ_apply', ih, dpop_ringOnTop, ringSub_succ]

/-- R28: once T and S have been read off, the whole core repeats with every eight pops. -/
theorem NodeState.dpop_iterate_mod_eight (c : NodeState) (j : Nat) :
    NodeState.dpop^[j % 8 + 2] c = NodeState.dpop^[j + 2] c := by
  have wraps : Fin.ofNat 8 (j % 8) = Fin.ofNat 8 j := Fin.ext (Nat.mod_mod j 8)
  rw [dpop_iterate_add_two, dpop_iterate_add_two, wraps]

/-! ### Popping what was pushed -/

/-- A push moves the nine words on top down by one; it overwrites the tenth. -/
theorem NodeState.dpop_iterate_dpush_t (c : NodeState) (v : Word) {j : Nat} (hj : j < 9) :
    (NodeState.dpop^[j + 1] (c.dpush v)).t = (NodeState.dpop^[j] c).t := by
  match j with
  | 0 => rfl
  | 1 => simp
  | k + 2 =>
    have apart : (c.dp + 1).val ≠ (c.dp - Fin.ofNat 8 k).val := ringSucc_ne_sub c.dp (by omega)
    have below : c.dp + 1 - Fin.ofNat 8 (k + 1) = c.dp - Fin.ofNat 8 k := by
      rw [ringSub_succ, sub_right_comm, add_sub_cancel_right]
    rw [dpop_iterate_add_two, dpop_iterate_add_two, dpush_dp, below, ringOnTop_t, ringOnTop_t, dpush_ds]
    exact Vector.getElem_set_ne _ _ apart

/-- The pops show the last ten pushed words, `ws` being the pushed words with the last one first. -/
theorem NodeState.dpop_iterate_foldr_dpush_t (c : NodeState) (ws : List Word) {j : Nat} (hj : j < ws.length)
    (h10 : j < 10) : (NodeState.dpop^[j] (ws.foldr (fun v d => d.dpush v) c)).t = ws[j] := by
  induction ws generalizing j with
  | nil => cases hj
  | cons v ws ih =>
    cases j with
    | zero => rfl
    | succ j =>
      rw [List.foldr_cons, dpop_iterate_dpush_t _ _ (by omega)]
      exact ih (Nat.lt_of_succ_lt_succ hj) (by omega)

/-- Settles O19: last in first out for the ten words T, S and the ring can hold, the ring's period after them. -/
theorem dataStackRing : Obligations.DataStackRing := by
  intro c vs h
  constructor
  · intro j hj
    have hlen : j < vs.reverse.length := by simpa [h] using hj
    rw [List.foldl_eq_foldr_reverse, NodeState.dpop_iterate_foldr_dpush_t c vs.reverse hlen hj]
    simp [h]
  · intro j
    calc (NodeState.dpop^[j + 10] (vs.foldl NodeState.dpush c)).t
      _ = (NodeState.dpop^[(j + 8) % 8 + 2] (vs.foldl NodeState.dpush c)).t := by
        rw [NodeState.dpop_iterate_mod_eight]
      _ = (NodeState.dpop^[j % 8 + 2] (vs.foldl NodeState.dpush c)).t := by rw [Nat.add_mod_right]

end Sys2Proof.Machine

/-! # The memory map (R61)

Proves `Obligations.MemoryMap`. Its reading half turns on bit 6 alone: neither the choice of RAM or ROM (bit 7) nor the
word number (bits 5 to 0) looks at it, so an address and its mirror read alike (`State.peek_mirror`). Its I/O half is
`isMemory_place`: what names a word of RAM or ROM has bit 8 clear. -/

namespace Sys2Proof.Machine

/-! ### The mirror of an address -/

/-- The other address of the same word of RAM or ROM: bit 6 flipped. -/
def mirror (a : Addr) : Addr := a ^^^ 0x40#9

theorem mirror_bit7 (a : Addr) : (mirror a).getLsbD 7 = a.getLsbD 7 := by
  have flips : (0x40#9).getLsbD 7 = false := by decide
  rw [mirror, BitVec.getLsbD_xor, flips, Bool.xor_false]

theorem wordIndex_mirror (a : Addr) : wordIndex (mirror a) = wordIndex a := by
  have flips : (0x40#9).extractLsb' 0 6 = 0#6 := by decide
  unfold wordIndex
  rw [mirror, BitVec.extractLsb'_xor, flips, BitVec.xor_zero]

/-- R61: each word of RAM and ROM is mapped twice. -/
theorem State.peek_mirror (s : State) (n : Node) (a : Addr) : s.peek n (mirror a) = s.peek n a := by
  unfold State.peek
  rw [mirror_bit7, wordIndex_mirror]

/-! ### What is not memory -/

/-- Whether a place is a word of RAM or ROM. -/
def Place.isMemory : Place → Bool
  | .ram _ | .rom _ => true
  | .iocs | .data | .port | .undefined => false

/-- Bit 8 alone tells memory from I/O (R61). -/
theorem isMemory_place (n : Node) (a : Addr) : (place n a).isMemory = !a.getLsbD 8 := by
  cases h8 : a.getLsbD 8 with
  | false =>
    rw [place_memory n a h8]
    split <;> rfl
  | true =>
    unfold place
    rw [h8, if_neg (by decide)]
    repeat' split
    all_goals rfl

/-- Settles O8, by the mirror of an address below the I/O addresses and by `isMemory_place` among them. -/
theorem memoryMap : Obligations.MemoryMap := by
  intro n a
  constructor
  · intro h8
    exact ⟨place_memory n a h8, fun s => s.peek_mirror n a⟩
  · intro h8 k
    have notMemory : (place n a).isMemory = false := by rw [isMemory_place, h8, Bool.not_true]
    constructor <;> intro hplace <;> rw [hplace] at notMemory <;> cases notMemory

end Sys2Proof.Machine

/-! # Branch opcodes and the fetch after them (R140 to R147)

Proves `Obligations.UnconditionalBranches` and `Obligations.ConditionalBranches`. The statements put words together
from fields and count in `Nat`, the model masks and shifts; the first two parts tie the one to the other
(`withLow10_eq_linked`, `branchTarget_eq_target`, `incr_eq_bump`). The fetch that follows every transfer is one case of
a read of RAM or ROM (`State.access_read_memory`). Each opcode then has one equation, in the statements' words; for the
transfer, the fall through and the stacks these are the model's own, field by field, and need no lemma. -/

namespace Sys2Proof.Machine

open Sys2Proof.Statement

/-! ### Fields of words and addresses -/

/-- Replacing the low field of a word keeps the bits above it and puts the field below them. -/
theorem setField_zero_eq_append {m n : Nat} (x : BitVec (m + n)) (v : BitVec n) :
    setField x 0 v = x.extractLsb' n m ++ v := by
  apply eq_of_bits
  intro k hk
  rw [getLsbD_setField, BitVec.getLsbD_append]
  by_cases hlow : k < n
  · rw [if_pos ⟨Nat.zero_le k, by omega, hk⟩, if_pos hlow, Nat.sub_zero]
  · have hhigh : k - n < m := by omega
    have hback : n + (k - n) = k := by omega
    rw [if_neg (by omega), if_neg hlow, BitVec.getLsbD_extractLsb', hback, decide_eq_true hhigh, Bool.true_and]

/-- R141, R144: the return address that `call` and `;:` leave in R. -/
theorem withLow10_eq_linked (c : NodeState) : withLow10 c.r c.p = linked c :=
  setField_zero_eq_append (m := 8) (n := 10) c.r c.p

/-- Clearing bit 8 of P leaves P9 above a zero (R107). -/
theorem extractLsb'_clearBit8 (p : PAddr) : (setField p 8 0#1).extractLsb' 8 2 = p.extractLsb' 9 1 ++ 0#1 := by
  rw [← BitVec.extractLsb'_append_extractLsb'_eq_extractLsb' (start₂ := 9) (len₂ := 1) (len₁ := 1) rfl,
    extractLsb'_setField_ne _ _ _ _ (by decide), extractLsb'_setField _ _ _ (by decide)]

/-- R107: the target of a branch, the fields put together. -/
theorem branchTarget_eq_target (p : PAddr) (f : AddrField) : branchTarget p f = target p f := by
  cases f with
  | slot0 a => rfl
  | slot1 a =>
    calc branchTarget p (.slot1 a)
      _ = (setField p 8 0#1).extractLsb' 8 2 ++ a := setField_zero_eq_append (m := 2) (n := 8) (setField p 8 0#1) a
      _ = target p (.slot1 a) := by rw [extractLsb'_clearBit8]; rfl
  | slot2 a =>
    have hmiddle : (setField p 8 0#1).extractLsb' 3 7 = p.extractLsb' 9 1 ++ 0#1 ++ p.extractLsb' 3 5 := by
      rw [← BitVec.extractLsb'_append_extractLsb'_eq_extractLsb' (start₂ := 8) (len₂ := 2) (len₁ := 5) rfl,
        extractLsb'_clearBit8, extractLsb'_setField_ne _ _ _ _ (by decide)]
    calc branchTarget p (.slot2 a)
      _ = (setField p 8 0#1).extractLsb' 3 7 ++ a := setField_zero_eq_append (m := 7) (n := 3) (setField p 8 0#1) a
      _ = target p (.slot2 a) := by rw [hmiddle]; rfl

/-! ### Arithmetic -/

/-- The successor within a block of 128 words has the low seven bits of `n + 1` and the upper bits of `n`. -/
theorem testBit_succ_in_block (n k : Nat) :
    (n / 128 * 128 + (n + 1) % 128).testBit k = if k < 7 then (n + 1).testBit k else n.testBit k := by
  rw [Nat.mul_comm, Nat.testBit_two_pow_mul_add (i := 7) _ (Nat.mod_lt _ (by decide))]
  split
  · next hlow => rw [Nat.testBit_mod_two_pow (j := 7), decide_eq_true hlow, Bool.true_and]
  · next hhigh => rw [Nat.testBit_div_two_pow (n := 7), Nat.sub_add_cancel (Nat.le_of_not_lt hhigh)]

/-- R71 as arithmetic: under the mask of seven bits stands `p + 1`, outside it `p`. -/
theorem incr_eq_bump {w : Nat} (p : BitVec w) : incr p = bump p := by
  unfold incr bump
  split
  · rfl
  · apply eq_of_bits
    intro k hk
    have hmask : (BitVec.ofNat w 0x7F).getLsbD k = decide (k < 7) := by
      rw [BitVec.getLsbD_ofNat, decide_eq_true hk, Bool.true_and]
      exact Nat.testBit_two_pow_sub_one 7 k
    have hsucc : (p + 1).getLsbD k = (p.toNat + 1).testBit k := by
      simp [BitVec.getLsbD, hk]
    have hsame : p.getLsbD k = p.toNat.testBit k := rfl
    rw [BitVec.getLsbD_ofNat, testBit_succ_in_block, BitVec.getLsbD_or, BitVec.getLsbD_and, BitVec.getLsbD_and,
      BitVec.getLsbD_not, hmask, hsucc, hsame]
    by_cases hlow : k < 7 <;> simp [hk, hlow]

/-- A count that is not 0 goes down without a borrow (R147). -/
theorem sub_one_eq_ofNat {r : Word} (h : r ≠ 0#18) : r - 1#18 = BitVec.ofNat 18 (r.toNat - 1) := by
  bv_omega

/-! ### The fetch -/

theorem NodeState.touchBus_eq_touched (c : NodeState) (a : Addr) : c.touchBus a = touched c a := by
  unfold NodeState.touchBus touched
  split <;> rfl

/-- What the address space reads as does not depend on the detectors (R66). -/
theorem State.peek_touchBus (s : State) (a b : Addr) (n : Node) :
    (s.setCore (s.core.touchBus a)).peek n b = s.peek n b := by
  obtain ⟨x, htouch⟩ := s.node_touch a n
  have hram : ((s.setCore (s.core.touchBus a)).node n).ram = (s.node n).ram := by rw [htouch]
  exact State.peek_congr hram rfl b

/-- R66: a read of RAM or ROM completes with the word there, whichever opcode or fetch makes it. -/
theorem State.access_read_memory (s : State) {op : MemOp} (sl : Slot) (hread : op.isStore = false)
    (h8 : (op.addr s.core).getLsbD 8 = false) :
    s.access op sl =
      .next ((s.setCore (s.core.touchBus (op.addr s.core))).complete op sl (s.peek s.cur (op.addr s.core))) := by
  rw [← s.peek_touchBus (op.addr s.core)]
  unfold State.access State.peek
  simp only [place_memory _ _ h8, hread]
  cases (op.addr s.core).getLsbD 7 <;> rfl

/-- R14: the next step of a core that is to fetch is the fetch. -/
theorem State.coreStep_fetching {s : State} (h : s.core.fetching = true) : s.coreStep = s.fetchStep := by
  unfold State.coreStep
  rw [if_pos h]

/-- R73: the fetch that follows a transfer completes where P addresses RAM or ROM. -/
theorem fetchFollows : FetchFollows := by
  intro s hfetching h8
  have haddr : (MemOp.instr.addr s.core).getLsbD 8 = false := by
    simpa [MemOp.addr] using h8
  rw [State.coreStep_fetching hfetching, State.fetchStep, s.access_read_memory .s0 rfl haddr, State.complete,
    State.core_setCore, State.setCore_setCore, NodeState.touchBus_eq_touched]
  simp only [MemOp.finish, incr_eq_bump]
  rfl

/-! ### The branch opcodes -/

/-- `RunsWithField` from one row of the opcode map and the opcode's equation. -/
theorem runsWithField_of {code : BitVec 5} {op : AddrField → Instr} {effect : AddrField → NodeState → NodeState}
    (hrow : ∀ sl f, decodeOpcode code sl f = op f)
    (hexec : ∀ f s, exec (op f) s = .next (s.setCore (effect f s.core))) : RunsWithField code op effect := by
  refine ⟨fun w sl hcode => ?_, hexec⟩
  rw [decode, hcode, hrow]

/-- `Runs` likewise, for an opcode without a field. -/
theorem runs_of {code : BitVec 5} {op : Slot → Instr} {effect : Slot → NodeState → NodeState}
    (hrow : ∀ sl f, decodeOpcode code sl f = op sl)
    (hexec : ∀ sl s, exec (op sl) s = .next (s.setCore (effect sl s.core))) : Runs code op effect := by
  refine ⟨fun w sl hcode => ?_, hexec⟩
  rw [decode, hcode, hrow]

/-- R141. -/
theorem exec_call (f : AddrField) (s : State) :
    exec (.call f) s = .next (s.setCore (goesTo (rpushed s.core (linked s.core)) (target s.core.p f))) := by
  rw [← withLow10_eq_linked, ← branchTarget_eq_target]
  rfl

/-- R142. -/
theorem exec_ret (sl : Slot) (s : State) :
    exec (.ret sl) s = .next (s.setCore (goesTo (rpopped s.core) (s.core.r.extractLsb' 0 10))) := rfl

/-- R143. -/
theorem exec_jump (f : AddrField) (s : State) :
    exec (.jump f) s = .next (s.setCore (goesTo s.core (target s.core.p f))) := by
  rw [← branchTarget_eq_target]
  rfl

/-- R145: taken at T = 0, and only there. -/
theorem exec_ifZero (f : AddrField) (s : State) :
    exec (.ifZero f) s =
      .next (s.setCore (if s.core.t = 0#18 then goesTo s.core (target s.core.p f) else goesOn s.core)) := by
  rw [← branchTarget_eq_target]
  rfl

/-- R147: the loop ends at R = 0; else R counts down, which borrows nothing there. -/
theorem exec_next (f : AddrField) (s : State) :
    exec (.next f) s =
      .next (s.setCore (if s.core.r = 0#18 then goesOn (rpopped s.core)
        else goesTo { s.core with r := BitVec.ofNat 18 (s.core.r.toNat - 1) } (target s.core.p f))) := by
  have hexec : exec (.next f) s = .next (s.setCore (if s.core.r = 0#18 then goesOn (rpopped s.core)
      else goesTo { s.core with r := s.core.r - 1#18 } (branchTarget s.core.p f))) := rfl
  rw [hexec, branchTarget_eq_target]
  by_cases hr : s.core.r = 0#18
  · rw [if_pos hr, if_pos hr]
  · rw [if_neg hr, if_neg hr, sub_one_eq_ofNat hr]

/-- Settles O30, by the fetch and the equations of the three opcodes. -/
theorem unconditionalBranches : Obligations.UnconditionalBranches :=
  ⟨fetchFollows, runsWithField_of (fun _ _ => rfl) exec_call, runs_of (fun _ _ => rfl) exec_ret,
    runsWithField_of (fun _ _ => rfl) exec_jump⟩

/-- Settles O32, by the fetch and the equations of the two opcodes. -/
theorem conditionalBranches : Obligations.ConditionalBranches :=
  ⟨fetchFollows, runsWithField_of (fun _ _ => rfl) exec_ifZero, runsWithField_of (fun _ _ => rfl) exec_next⟩

end Sys2Proof.Machine

/-! # Stack opcodes (R180 to R185)

Proves `Obligations.StackOpcodes`. The statements write the pushes, the pops and the end of an opcode out as record
updates; the first two parts say, once for each operation of the model, that it is that update. An opcode's equation
then replaces the one by the other. The slots differ only in how an opcode ends (`NodeState.unsettles_advance`). -/

namespace Sys2Proof.Machine

open Sys2Proof.Statement

/-! ### The stacks in the statements' words -/

/-- R24. -/
theorem NodeState.dpush_eq_pushed (c : NodeState) (v : Word) : c.dpush v = pushed c v := rfl

/-- R25. -/
theorem NodeState.dpop_eq_popped (c : NodeState) : c.dpop = popped c := rfl

/-- R30. -/
theorem NodeState.rpush_eq_rpushed (c : NodeState) (v : Word) : c.rpush v = rpushed c v := rfl

/-- R30. -/
theorem NodeState.rpop_eq_rpopped (c : NodeState) : c.rpop = rpopped c := rfl

/-! ### The end of an opcode -/

/-- R108, R396: going on after an opcode that helps a following add. -/
theorem NodeState.helps_advance (c : NodeState) (sl : Slot) : c.helps.advance sl = ends sl true c := by
  cases sl with
  | s0 | s1 | s2 | s3 => rfl

/-- R108, R396: going on after an opcode that does not. -/
theorem NodeState.unsettles_advance (c : NodeState) (sl : Slot) : c.unsettles.advance sl = ends sl false c := by
  cases sl with
  | s0 | s1 | s2 | s3 => rfl

/-! ### The stack opcodes -/

/-- R180. -/
theorem exec_nop (sl : Slot) (s : State) : exec (.nop sl) s = .next (s.setCore (ends sl true s.core)) := by
  rw [← NodeState.helps_advance]
  rfl

/-- R181: what is pushed on the return stack is T of before the pop. -/
theorem exec_push (sl : Slot) (s : State) :
    exec (.push sl) s = .next (s.setCore (ends sl false (rpushed (popped s.core) s.core.t))) := by
  rw [← NodeState.dpop_eq_popped, ← NodeState.rpush_eq_rpushed, ← NodeState.unsettles_advance]
  rfl

/-- R182: what is pushed on the data stack is R of before the pop. -/
theorem exec_pop (sl : Slot) (s : State) :
    exec (.pop sl) s = .next (s.setCore (ends sl false (pushed (rpopped s.core) s.core.r))) := by
  rw [← NodeState.rpop_eq_rpopped, ← NodeState.dpush_eq_pushed, ← NodeState.unsettles_advance]
  rfl

/-- R183. -/
theorem exec_dup (sl : Slot) (s : State) :
    exec (.dup sl) s = .next (s.setCore (ends sl false (pushed s.core s.core.t))) := by
  rw [← NodeState.dpush_eq_pushed, ← NodeState.unsettles_advance]
  rfl

/-- R184. -/
theorem exec_drop (sl : Slot) (s : State) :
    exec (.drop sl) s = .next (s.setCore (ends sl false (popped s.core))) := by
  rw [← NodeState.dpop_eq_popped, ← NodeState.unsettles_advance]
  rfl

/-- R185. -/
theorem exec_over (sl : Slot) (s : State) :
    exec (.over sl) s = .next (s.setCore (ends sl false (pushed s.core s.core.s))) := by
  rw [← NodeState.dpush_eq_pushed, ← NodeState.unsettles_advance]
  rfl

/-- Settles O21, by each opcode's row of the opcode map and its equation. -/
theorem stackOpcodes : Obligations.StackOpcodes :=
  ⟨runs_of (fun _ _ => rfl) exec_nop, runs_of (fun _ _ => rfl) exec_push, runs_of (fun _ _ => rfl) exec_pop,
    runs_of (fun _ _ => rfl) exec_dup, runs_of (fun _ _ => rfl) exec_drop, runs_of (fun _ _ => rfl) exec_over⟩

end Sys2Proof.Machine

/-! # Register opcodes on A (R190, R191)

Proves `Obligations.RegisterOpcodes`. Both opcodes pair one operation of the data stack with A: the operation is the
statement's record update (`NodeState.dpop_eq_popped`, `NodeState.dpush_eq_pushed`), and what follows it is the common
end of an opcode (`NodeState.unsettles_advance`). `a!` stores the T of before its pop. -/

namespace Sys2Proof.Machine

open Sys2Proof.Statement

/-- R190: all 18 bits of T of before the pop go to A. -/
theorem exec_aStore (sl : Slot) (s : State) :
    exec (.aStore sl) s = .next (s.setCore (ends sl false { popped s.core with a := s.core.t })) := by
  rw [← NodeState.dpop_eq_popped, ← NodeState.unsettles_advance]
  rfl

/-- R191: A is pushed and keeps its value. -/
theorem exec_aFetch (sl : Slot) (s : State) :
    exec (.aFetch sl) s = .next (s.setCore (ends sl false (pushed s.core s.core.a))) := by
  rw [← NodeState.dpush_eq_pushed, ← NodeState.unsettles_advance]
  rfl

/-- Settles O22, by each opcode's row of the opcode map and its equation. -/
theorem registerOpcodes : Obligations.RegisterOpcodes :=
  ⟨runs_of (fun _ _ => rfl) exec_aStore, runs_of (fun _ _ => rfl) exec_aFetch⟩

end Sys2Proof.Machine

/-! # Bit-wise opcodes (R200 to R202)

Proves `Obligations.BitwiseOpcodes`. The words that go to T stand alike in the model and in the statement; what is to be
shown of `and` and `xor` is that the rest of the core is popped once (`NodeState.dpop_eq_popped`), and of all three that
they end as an opcode that does not help a following add (`NodeState.unsettles_advance`). `not` pops nothing. -/

namespace Sys2Proof.Machine

open Sys2Proof.Statement

/-- R200: T is complemented where it stands. -/
theorem exec_bitNot (sl : Slot) (s : State) :
    exec (.bitNot sl) s = .next (s.setCore (ends sl false { s.core with t := s.core.t ^^^ 0x3FFFF#18 })) := by
  rw [← NodeState.unsettles_advance]
  rfl

/-- R201: both operands are those of before the pop. -/
theorem exec_bitAnd (sl : Slot) (s : State) :
    exec (.bitAnd sl) s =
      .next (s.setCore (ends sl false { popped s.core with t := s.core.s &&& s.core.t })) := by
  rw [← NodeState.dpop_eq_popped, ← NodeState.unsettles_advance]
  rfl

/-- R202: likewise. -/
theorem exec_bitXor (sl : Slot) (s : State) :
    exec (.bitXor sl) s =
      .next (s.setCore (ends sl false { popped s.core with t := s.core.s ^^^ s.core.t })) := by
  rw [← NodeState.dpop_eq_popped, ← NodeState.unsettles_advance]
  rfl

/-- Settles O24, by each opcode's row of the opcode map and its equation. -/
theorem bitwiseOpcodes : Obligations.BitwiseOpcodes :=
  ⟨runs_of (fun _ _ => rfl) exec_bitNot, runs_of (fun _ _ => rfl) exec_bitAnd, runs_of (fun _ _ => rfl) exec_bitXor⟩

end Sys2Proof.Machine

/-! # Shifts (R210, R211)

Proves `Obligations.Shifts`. The statements give T as arithmetic, the signed half and the double; the model moves bits.
The first part ties the one to the other for words of every width. The rest of the core ends as after every opcode that
does not help a following add (`NodeState.unsettles_advance`). -/

namespace Sys2Proof.Machine

open Sys2Proof.Statement

/-! ### One place right and left as arithmetic -/

/-- R210: `Int` division by two rounds toward minus infinity, as the copied sign bit does. -/
theorem sshiftRight_one_eq_ofInt {w : Nat} (x : BitVec w) : x.sshiftRight 1 = BitVec.ofInt w (x.toInt / 2) := by
  rw [BitVec.sshiftRight, Int.shiftRight_eq_div_pow]
  rfl

/-- R211: the bit that leaves at the top is what the double loses modulo `2 ^ w`. -/
theorem shiftLeft_one_eq_ofNat {w : Nat} (x : BitVec w) : x <<< 1 = BitVec.ofNat w (2 * x.toNat) := by
  apply BitVec.eq_of_toNat_eq
  rw [BitVec.toNat_shiftLeft, BitVec.toNat_ofNat, Nat.shiftLeft_eq, pow_one, Nat.mul_comm]

/-! ### The two opcodes -/

/-- R210: nothing but T is shifted; its lowest bit does not go to C. -/
theorem exec_twoSlash (sl : Slot) (s : State) :
    exec (.twoSlash sl) s =
      .next (s.setCore (ends sl false { s.core with t := BitVec.ofInt 18 (s.core.t.toInt / 2) })) := by
  rw [← sshiftRight_one_eq_ofInt, ← NodeState.unsettles_advance]
  rfl

/-- R211: nothing but T is shifted; its highest bit does not go to C. -/
theorem exec_twoStar (sl : Slot) (s : State) :
    exec (.twoStar sl) s =
      .next (s.setCore (ends sl false { s.core with t := BitVec.ofNat 18 (2 * s.core.t.toNat) })) := by
  rw [← shiftLeft_one_eq_ofNat, ← NodeState.unsettles_advance]
  rfl

/-- Settles O25, by each opcode's row of the opcode map and its equation. -/
theorem shifts : Obligations.Shifts :=
  ⟨runs_of (fun _ _ => rfl) exec_twoSlash, runs_of (fun _ _ => rfl) exec_twoStar⟩

end Sys2Proof.Machine

/-! # The ports that an address selects (R272)

Proves `Obligations.PortSelection`. R272 says it in one sentence for all four ports: $155 selects none, and flipping a
port's bit of it selects that port (`selects_iff_flipped`). The rest is the value of each of the four bits in $155. -/

namespace Sys2Proof.Machine

/-- R272: the bit of a port address that stands for a direction. -/
def portBit : Dir → Nat
  | .right => 7
  | .down => 6
  | .left => 5
  | .up => 4

/-- R272: "When the bits are 0101, no port is selected. Flipping a bit selects its port." -/
theorem selects_iff_flipped {a : Addr} (h8 : a.getLsbD 8 = true) (hlow : a.extractLsb' 0 4 = 5#4) (d : Dir) :
    selects a d = true ↔ a.getLsbD (portBit d) ≠ (0x155#9).getLsbD (portBit d) := by
  unfold selects
  rw [h8, hlow, beq_self_eq_true, Bool.and_true, Bool.true_and]
  cases d with
  | right => exact Bool.ne_false_iff.symm
  | down => exact Bool.not_iff_not
  | left => exact Bool.ne_false_iff.symm
  | up => exact Bool.not_iff_not

/-- Settles O10: bits 7 and 5 of $155 are clear, so they select when set; bits 6 and 4 are set, so they select when
clear. -/
theorem portSelection : Obligations.PortSelection := by
  intro a h8 hlow
  have flipped := selects_iff_flipped h8 hlow
  exact ⟨(flipped .right).trans Bool.ne_false_iff, (flipped .down).trans Bool.eq_false_iff.symm,
    (flipped .left).trans Bool.ne_false_iff, (flipped .up).trans Bool.eq_false_iff.symm⟩

end Sys2Proof.Machine

/-! # The status bits of a direction without a neighbour (R350)

Proves `Obligations.MissingNeighbourBits`. The two bits of a direction in a read of IOCS are its status lines
(`State.readIocs_readBit`, `State.readIocs_writeBit`); where no neighbour drives a line, it is the inverse of the latch
bit (`State.readPending_of_missing`, `State.writePending_of_missing`), in every state and so at reset, where the latch
holds $15555. -/

namespace Sys2Proof.Machine

open Sys2Proof.Statement

/-- R311: the read bit of a direction is its read line. -/
theorem State.readIocs_readBit (s : State) (n : Node) (d : Dir) :
    (s.readIocs n).getLsbD (readBit d) = s.readPending n d (readBit d) := by
  have hbit : readBit d < 18 := by cases d <;> decide
  have hline : s.iocsBit n (readBit d) = some (s.readPending n d (readBit d)) := by cases d <;> rfl
  rw [s.readIocs_bit n _ hbit, hline, Option.getD_some]

/-- R311: the bit below the read bit of a direction is its write line. -/
theorem State.readIocs_writeBit (s : State) (n : Node) (d : Dir) :
    (s.readIocs n).getLsbD (readBit d - 1) = s.writePending n d (readBit d - 1) := by
  have hbit : readBit d - 1 < 18 := by cases d <;> decide
  have hline : s.iocsBit n (readBit d - 1) = some (s.writePending n d (readBit d - 1)) := by cases d <;> rfl
  rw [s.readIocs_bit n _ hbit, hline, Option.getD_some]

theorem State.readPending_of_missing {n : Node} {d : Dir} (h : neighbour n d = none) (s : State) (bit : Nat) :
    s.readPending n d bit = !(s.node n).iocsw.getLsbD bit := by
  unfold State.readPending
  rw [h]

theorem State.writePending_of_missing {n : Node} {d : Dir} (h : neighbour n d = none) (s : State) (bit : Nat) :
    s.writePending n d bit = !(s.node n).iocsw.getLsbD bit := by
  unfold State.writePending
  rw [h]

/-- R383: the control register of every node at reset. -/
theorem State.reset_iocsw (n : Node) : (State.reset.node n).iocsw = 0x15555#18 := by
  rw [State.reset_node]
  rfl

/-- The read bits of $15555 are set, and the write bits below them are clear. -/
theorem resetLatch_bits (d : Dir) :
    (0x15555#18).getLsbD (readBit d) = true ∧ (0x15555#18).getLsbD (readBit d - 1) = false := by
  cases d <;> decide

/-- Settles O42, by the two lines of the direction; at reset they invert the latch bits 1 and 0. -/
theorem missingNeighbourBits : Obligations.MissingNeighbourBits := by
  intro n d missing
  have readInverse (s : State) : (s.readIocs n).getLsbD (readBit d) = !(s.node n).iocsw.getLsbD (readBit d) :=
    (s.readIocs_readBit n d).trans (s.readPending_of_missing missing _)
  have writeInverse (s : State) :
      (s.readIocs n).getLsbD (readBit d - 1) = !(s.node n).iocsw.getLsbD (readBit d - 1) :=
    (s.readIocs_writeBit n d).trans (s.writePending_of_missing missing _)
  obtain ⟨hread, hwrite⟩ := resetLatch_bits d
  refine ⟨fun s => ⟨readInverse s, writeInverse s⟩, ?_, ?_⟩
  · rw [readInverse, State.reset_iocsw, hread, Bool.not_true]
  · rw [writeInverse, State.reset_iocsw, hwrite, Bool.not_false]

end Sys2Proof.Machine

/-! # The instruction word (R102 to R116)

Proves `Obligations.DecodeOfEncode`, `EveryWordIsLegal`, `EncodingFunction`, `ReservedBitsIgnored`, `SpecWordsDecode`
and `BranchTargets`. Decoding after encoding is `canon_encodeInto` and `addrField_putField`, put together by
`decodeOpcode_opcode`. The other way round, a field put back where it was read changes nothing (`setField_extractLsb'`),
and slot 3 delivers multiples of 4, among which there is no opcode with a field (`canon_s3_low`). -/

namespace Sys2Proof

/-! ### Decoding what was encoded -/

/-- An address field of an instruction is put into the word after its opcode. -/
theorem encodeInto_of_field {i : Instr} {f : AddrField} (h : i.field? = some f) (w : Word) :
    encodeInto w i = putField (putOpcode w i.slot i.opcode) f := by
  rw [encodeInto, h]

theorem encodeInto_of_no_field {i : Instr} (h : i.field? = none) (w : Word) :
    encodeInto w i = putOpcode w i.slot i.opcode := by
  rw [encodeInto, h]

/-- R103, R107: an instruction put into a word, whatever else the word holds, decodes to itself. -/
theorem decode_encodeInto (i : Instr) (hw : i.wellFormed = true) (w : Word) : decode (encodeInto w i) i.slot = i := by
  rw [decode, canon_encodeInto i hw w]
  refine decodeOpcode_opcode i _ fun f hf => ?_
  rw [encodeInto_of_field hf, slot_of_field i f hf, addrField_putField]

/-- The word of an instruction alone is that instruction put into some word (R116). -/
theorem encode_eq_encodeInto (i : Instr) : ∃ w, encode i = encodeInto w i := by
  unfold encode
  split
  · exact ⟨_, rfl⟩
  · exact ⟨_, rfl⟩

/-- Settles O1. -/
theorem decodeOfEncode : Obligations.DecodeOfEncode := by
  intro i hw
  obtain ⟨w, hencode⟩ := encode_eq_encodeInto i
  exact ⟨decode_encodeInto i hw, hencode ▸ decode_encodeInto i hw w⟩

/-! ### The opcode map, slot by slot -/

/-- The values of the five opcodes with an address field (R107). -/
def fieldCodes : List (BitVec 5) := [0x02#5, 0x03#5, 0x05#5, 0x06#5, 0x07#5]

/-- The 32 values of an opcode, one by one. -/
theorem forall_code {P : BitVec 5 → Prop} (h : ∀ k : Fin 32, P (BitVec.ofFin k)) (c : BitVec 5) : P c :=
  h ⟨c.toNat, c.isLt⟩

/-- R107: the five opcodes take the field that the decoder reads, the others none. -/
theorem field?_decodeOpcode (sl : Slot) (f : AddrField) (c : BitVec 5) :
    (decodeOpcode c sl f).field? = if c ∈ fieldCodes then some f else none := by
  revert c
  refine forall_code fun k => ?_
  fin_cases k <;> rfl

/-- The slot of a decoded instruction is the slot read, and for an opcode with a field the field's. -/
theorem slot_decodeOpcode (sl : Slot) (f : AddrField) (c : BitVec 5) :
    (decodeOpcode c sl f).slot = if c ∈ fieldCodes then f.slot else sl := by
  revert c
  refine forall_code fun k => ?_
  fin_cases k <;> rfl

/-- In slots 0 to 2 every opcode is well-formed (R115). -/
theorem wellFormed_decodeOpcode {sl : Slot} (h : sl.notLast = true) (f : AddrField) (c : BitVec 5) :
    (decodeOpcode c sl f).wellFormed = true := by
  revert c
  refine forall_code fun k => ?_
  cases sl with
  | s0 | s1 | s2 => fin_cases k <;> rfl
  | s3 => cases h

/-- The values of the eight opcodes that slot 3 can hold (R106). -/
def slot3Codes : List (BitVec 5) := [0x00#5, 0x04#5, 0x08#5, 0x0C#5, 0x10#5, 0x14#5, 0x18#5, 0x1C#5]

/-- They are the multiples of 4 (R102). -/
theorem mem_slot3Codes : ∀ c : BitVec 5, c.extractLsb' 0 2 = 0#2 → c ∈ slot3Codes := by decide

/-- In slot 3 the multiples of 4 are well-formed (R106). -/
theorem wellFormed_decodeOpcode_s3 (f : AddrField) (c : BitVec 5) (h : c.extractLsb' 0 2 = 0#2) :
    (decodeOpcode c .s3 f).wellFormed = true := by
  have hmem := mem_slot3Codes c h
  simp only [slot3Codes, List.mem_cons, List.not_mem_nil, or_false] at hmem
  rcases hmem with rfl | rfl | rfl | rfl | rfl | rfl | rfl | rfl <;> rfl

/-- R102: the two bits that slot 3 does not store are read as 0. -/
theorem canon_s3_low (w : Word) : (canon w .s3).extractLsb' 0 2 = 0#2 := by
  apply eq_of_bits
  intro k hk
  simp [canon, hk]

/-- An opcode with a field is no multiple of 4 (R106). -/
theorem not_mem_fieldCodes : ∀ c : BitVec 5, c.extractLsb' 0 2 = 0#2 → c ∉ fieldCodes := by decide

theorem canon_s3_not_mem_fieldCodes (w : Word) : canon w .s3 ∉ fieldCodes :=
  not_mem_fieldCodes _ (canon_s3_low w)

/-- The slot of a decoded instruction is the one it was read from. -/
theorem slot_decode (w : Word) (sl : Slot) : (decode w sl).slot = sl := by
  rw [decode, slot_decodeOpcode]
  split
  · next hfield =>
    cases sl with
    | s0 | s1 | s2 => rfl
    | s3 => exact absurd hfield (canon_s3_not_mem_fieldCodes w)
  · rfl

/-- R113: every word decodes to an opcode that may stand in the slot. -/
theorem wellFormed_decode (w : Word) (sl : Slot) : (decode w sl).wellFormed = true := by
  cases sl with
  | s0 | s1 | s2 => exact wellFormed_decodeOpcode rfl _ _
  | s3 => exact wellFormed_decodeOpcode_s3 _ _ (canon_s3_low w)

/-! ### Putting back what was read -/

/-- A field put back where it was read. -/
theorem setField_extractLsb' {w n : Nat} (x : BitVec w) (lo : Nat) : setField x lo (x.extractLsb' lo n) = x := by
  apply eq_of_bits
  intro k hk
  rw [getLsbD_setField, BitVec.getLsbD_extractLsb']
  split
  · next hin =>
    have hoff : k - lo < n := by omega
    have hback : lo + (k - lo) = k := by omega
    rw [hback, decide_eq_true hoff, Bool.true_and]
  · rfl

/-- The opcode value of a slot put back (R103). -/
theorem putOpcode_canon (w : Word) (sl : Slot) : putOpcode w sl (canon w sl) = w := by
  cases sl with
  | s0 | s1 | s2 => simp only [putOpcode, canon, BitVec.xor_assoc, BitVec.xor_self, BitVec.xor_zero,
      setField_extractLsb']
  | s3 =>
    have hstored : (canon w .s3).extractLsb' 2 3 = w.extractLsb' 0 3 ^^^ 0x5#3 := by
      apply eq_of_bits
      intro k hk
      have hk5 : 2 + k < 5 := by omega
      have hnot : ¬ 2 + k < 2 := by omega
      simp only [canon, BitVec.getLsbD_extractLsb', BitVec.getLsbD_shiftLeft, BitVec.getLsbD_setWidth, hk, hk5, hnot,
        decide_true, decide_false, Bool.true_and, Bool.not_false, Nat.add_sub_cancel_left]
      rw [decide_eq_true (by omega), Bool.true_and]
    rw [putOpcode, hstored, BitVec.xor_assoc, BitVec.xor_self, BitVec.xor_zero, setField_extractLsb']

/-- An address field put back (R107). -/
theorem putField_addrField (w : Word) (sl : Slot) : putField w (addrField w sl) = w := by
  cases sl <;> simp [putField, addrField, fieldWord, Config.addrFieldXor, setField_extractLsb']

/-- R113: no bit of a slot or of a field is lost in decoding. -/
theorem encodeInto_decode (w : Word) (sl : Slot) : encodeInto w (decode w sl) = w := by
  have hopcode : putOpcode w (decode w sl).slot (decode w sl).opcode = w := by
    rw [slot_decode, decode, opcode_decodeOpcode, putOpcode_canon]
  cases hfield : (decode w sl).field? with
  | none => rw [encodeInto_of_no_field hfield, hopcode]
  | some f =>
    have hf : addrField w sl = f := by
      rw [decode, field?_decodeOpcode] at hfield
      split at hfield
      · exact Option.some.inj hfield
      · cases hfield
    rw [encodeInto_of_field hfield, hopcode, ← hf, putField_addrField]

/-- Settles O2. -/
theorem everyWordIsLegal : Obligations.EveryWordIsLegal := fun w sl =>
  ⟨wellFormed_decode w sl, slot_decode w sl, opcode_decodeOpcode _ _ _, encodeInto_decode w sl⟩

/-! ### The spec's encoding function -/

/-- A field of a word put together from fields, where it lies within the upper part. -/
theorem extractLsb'_append_high {m n : Nat} (x : BitVec m) (y : BitVec n) (lo len : Nat) :
    (x ++ y).extractLsb' (n + lo) len = x.extractLsb' lo len := by
  apply eq_of_bits
  intro k hk
  have hge : ¬ n + lo + k < n := by omega
  have hsub : n + lo + k - n = lo + k := by omega
  rw [BitVec.getLsbD_extractLsb', BitVec.getLsbD_extractLsb', BitVec.getLsbD_append, if_neg hge, hsub]

/-- The same, where it lies within the lower part. -/
theorem extractLsb'_append_low {m n : Nat} (x : BitVec m) (y : BitVec n) {lo len : Nat} (h : lo + len ≤ n) :
    (x ++ y).extractLsb' lo len = y.extractLsb' lo len := by
  apply eq_of_bits
  intro k hk
  have hlt : lo + k < n := by omega
  rw [BitVec.getLsbD_extractLsb', BitVec.getLsbD_extractLsb', BitVec.getLsbD_append, if_pos hlt]

/-- The upper part of a word put together from two. -/
theorem extractLsb'_append_fst {m n : Nat} (x : BitVec m) (y : BitVec n) : (x ++ y).extractLsb' n m = x :=
  (extractLsb'_append_high x y 0 m).trans BitVec.extractLsb'_eq_self

/-- The lower part of a word put together from two. -/
theorem extractLsb'_append_snd {m n : Nat} (x : BitVec m) (y : BitVec n) : (x ++ y).extractLsb' 0 n = y :=
  (extractLsb'_append_low x y (by rw [Nat.zero_add])).trans BitVec.extractLsb'_eq_self

/-- The four slots of a word put together from them, from the top down (R100). -/
theorem extractLsb'_slots (c0 c1 c2 : BitVec 5) (c3 : BitVec 3) :
    (c0 ++ c1 ++ c2 ++ c3).extractLsb' 13 5 = c0 ∧ (c0 ++ c1 ++ c2 ++ c3).extractLsb' 8 5 = c1 ∧
      (c0 ++ c1 ++ c2 ++ c3).extractLsb' 3 5 = c2 ∧ (c0 ++ c1 ++ c2 ++ c3).extractLsb' 0 3 = c3 := by
  have drop3 : ∀ lo, (c0 ++ c1 ++ c2 ++ c3).extractLsb' (3 + lo) 5 = (c0 ++ c1 ++ c2).extractLsb' lo 5 :=
    fun lo => extractLsb'_append_high _ c3 lo 5
  have drop2 : ∀ lo, (c0 ++ c1 ++ c2).extractLsb' (5 + lo) 5 = (c0 ++ c1).extractLsb' lo 5 :=
    fun lo => extractLsb'_append_high _ c2 lo 5
  refine ⟨?_, ?_, ?_, extractLsb'_append_snd _ c3⟩
  · exact (drop3 10).trans ((drop2 5).trans (extractLsb'_append_fst c0 c1))
  · exact (drop3 5).trans ((drop2 0).trans (extractLsb'_append_snd c0 c1))
  · exact (drop3 0).trans (extractLsb'_append_snd _ c2)

/-- The stored bits of a slot and the pattern of the slot give the canonical value back (R103). -/
theorem xor_xor_pattern {n : Nat} (c pattern : BitVec n) : c ^^^ pattern ^^^ pattern = c := by
  rw [BitVec.xor_assoc, BitVec.xor_self, BitVec.xor_zero]

/-- The address field of a word is its low bits (R111, D1). -/
theorem fieldWord_eq (w : Word) : fieldWord w = w := rfl

/-- A value moved up stands above zeros. -/
theorem shiftLeft_setWidth_eq_append {m : Nat} (x : BitVec m) (n : Nat) :
    (x.setWidth (m + n)) <<< n = x ++ 0#n := by
  apply eq_of_bits
  intro k hk
  rw [BitVec.getLsbD_shiftLeft, BitVec.getLsbD_append, BitVec.getLsbD_setWidth]
  by_cases hlow : k < n
  · simp [hlow]
  · have hsub : k - n < m + n := by omega
    simp [hlow, hk, hsub]

/-- R116, the line without a branch: the pattern $15555 is the pattern of the four slots. -/
theorem canon_of_slots (c0 c1 c2 : BitVec 5) (c3 : BitVec 3) :
    let w : Word := (c0 ++ c1 ++ c2 ++ c3) ^^^ 0x15555#18
    canon w .s0 = c0 ∧ canon w .s1 = c1 ∧ canon w .s2 = c2 ∧ canon w .s3 = c3 ++ 0#2 := by
  intro w
  obtain ⟨h0, h1, h2, h3⟩ := extractLsb'_slots c0 c1 c2 c3
  have read (lo len : Nat) :
      w.extractLsb' lo len = (c0 ++ c1 ++ c2 ++ c3).extractLsb' lo len ^^^ (0x15555#18).extractLsb' lo len :=
    BitVec.extractLsb'_xor
  have p0 : (0x15555#18).extractLsb' 13 5 = 0x0A#5 := by decide
  have p1 : (0x15555#18).extractLsb' 8 5 = 0x15#5 := by decide
  have p2 : (0x15555#18).extractLsb' 3 5 = 0x0A#5 := by decide
  have p3 : (0x15555#18).extractLsb' 0 3 = 0x5#3 := by decide
  refine ⟨?_, ?_, ?_, ?_⟩
  · rw [canon, read, h0, p0, xor_xor_pattern]
  · rw [canon, read, h1, p1, xor_xor_pattern]
  · rw [canon, read, h2, p2, xor_xor_pattern]
  · rw [canon, read, h3, p3, xor_xor_pattern]
    exact shiftLeft_setWidth_eq_append c3 2

/-- Settles O3: the line without a branch is `canon_of_slots`, in the other three the fields stand plain. -/
theorem encodingFunction : Obligations.EncodingFunction := by
  refine ⟨canon_of_slots, ?_, ?_, ?_⟩
  · intro c0 reserved a w
    have h0 : w.extractLsb' 13 5 = c0 ^^^ 0x0A#5 :=
      (extractLsb'_append_high _ a 3 5).trans (extractLsb'_append_fst _ reserved)
    have ha : w.extractLsb' 0 10 = a := extractLsb'_append_snd _ a
    exact ⟨by rw [canon, h0, xor_xor_pattern], by rw [addrField, fieldWord_eq, ha]⟩
  · intro c0 c1 a w
    have h0 : w.extractLsb' 13 5 = c0 ^^^ 0x0A#5 :=
      (extractLsb'_append_high _ a 5 5).trans (extractLsb'_append_fst _ (c1 ^^^ 0x15#5))
    have h1 : w.extractLsb' 8 5 = c1 ^^^ 0x15#5 :=
      (extractLsb'_append_high _ a 0 5).trans (extractLsb'_append_snd (c0 ^^^ 0x0A#5) _)
    have ha : w.extractLsb' 0 8 = a := extractLsb'_append_snd _ a
    exact ⟨by rw [canon, h0, xor_xor_pattern], by rw [canon, h1, xor_xor_pattern],
      by rw [addrField, fieldWord_eq, ha]⟩
  · intro c0 c1 c2 a w
    obtain ⟨h0, h1, h2, ha⟩ := extractLsb'_slots (c0 ^^^ 0x0A#5) (c1 ^^^ 0x15#5) (c2 ^^^ 0x0A#5) a
    refine ⟨?_, ?_, ?_, ?_⟩
    · rw [canon, h0, xor_xor_pattern]
    · rw [canon, h1, xor_xor_pattern]
    · rw [canon, h2, xor_xor_pattern]
    · rw [addrField, fieldWord_eq, ha]

/-! ### The reserved bits and the branch targets -/

/-- A field of a word is its bits. -/
theorem extractLsb'_congr {w n : Nat} {x y : BitVec w} {lo : Nat}
    (h : ∀ k, k < n → x.getLsbD (lo + k) = y.getLsbD (lo + k)) : x.extractLsb' lo n = y.extractLsb' lo n := by
  apply eq_of_bits
  intro k hk
  rw [BitVec.getLsbD_extractLsb', BitVec.getLsbD_extractLsb', h k hk]

/-- Settles O4: slot 0 reads bits 17 to 13, its address field bits 9 to 0. -/
theorem reservedBitsIgnored : Obligations.ReservedBitsIgnored := by
  intro w w' _ hsame
  have hslot : canon w' .s0 = canon w .s0 := by
    rw [canon, canon, extractLsb'_congr fun k _ => hsame (13 + k) (by omega)]
  have hfield : addrField w' .s0 = addrField w .s0 := by
    rw [addrField, addrField, fieldWord_eq, fieldWord_eq, extractLsb'_congr fun k hk => hsame (0 + k) (by omega)]
  rw [decode, decode, hslot, hfield]

/-- Settles O5: closed words. -/
theorem specWordsDecode : Obligations.SpecWordsDecode := by
  unfold Obligations.SpecWordsDecode
  decide

/-- Settles O6, by the five codes with a field, of which slot 3 can hold none, and `branchTarget_eq_target`. -/
theorem branchTargets : Obligations.BranchTargets := by
  refine ⟨fun w sl => field?_decodeOpcode sl _ _, fun w => ?_, fun w p => ⟨?_, ?_, ?_⟩⟩
  · rw [decode, field?_decodeOpcode, if_neg (canon_s3_not_mem_fieldCodes w)]
  · exact Machine.branchTarget_eq_target p _
  · exact Machine.branchTarget_eq_target p _
  · exact Machine.branchTarget_eq_target p _

end Sys2Proof

/-! # What a step makes of each node

One inversion of `step`, node by node (`step_node`): a node either makes its own access or runs its own opcode, or is
reset, or keeps all but its I/O state, or is woken by its pin or device, or finishes the access it slept in with the
running node as its partner. -/

namespace Sys2Proof.Machine

open Sys2Proof.Statement

/-! ### The running node's opcodes -/

/-- An opcode that is no bus access leaves the chip beside its core alone. -/
theorem exec_core_rest {i : Instr} (h : memOpOf i = none) {s t : State} (e : exec i s = .next t) :
    t = s.setCore t.core := by
  obtain ⟨c, hc⟩ := exec_core h s
  rw [hc] at e
  injection e with e
  rw [← e, State.core_setCore]

theorem exec_core_other {i : Instr} (h : memOpOf i = none) {s t : State} (e : exec i s = .next t) {m : Node}
    (hm : m ≠ s.cur) : t.node m = s.node m := by
  rw [exec_core_rest h e, State.node_setCore_ne s _ hm]

theorem exec_core_cur {i : Instr} (h : memOpOf i = none) {s t : State} (e : exec i s = .next t) : t.cur = s.cur := by
  rw [exec_core_rest h e, State.cur_setCore]

/-! ### The inversion -/

/-- Node state `e` is `c` but for the I/O state: the pins, the device, the link and the detector. -/
def NodeState.KeepsCore (c e : NodeState) : Prop :=
  ∃ ext dev link x, e = { c with ext := ext, dev := dev, linkReady := link, disarmedBy := x }

theorem NodeState.KeepsCore.refl (c : NodeState) : c.KeepsCore c := ⟨_, _, _, _, rfl⟩

/-- What a step from `s` to `t` makes of node n. -/
inductive NodeStep (s t : State) (n : Node) : Prop where
  /-- Its own step, a bus access. -/
  | access (op : MemOp) (sl : Slot) (turn : s.turn = .node n) (pending : (s.node n).pending = some op)
      (runs : (s.onTurn n).access op sl = .next t)
  /-- Its own step, another opcode. -/
  | opcode (i : Instr) (turn : s.turn = .node n) (running : opcodeOf (s.node n) = some i) (notMemory : memOpOf i = none)
      (runs : exec i (s.onTurn n) = .next t)
  /-- A reset of the chip. -/
  | reset (turn : s.turn = .event .reset) (result : t = s.taken.applyReset)
  /-- Another node's step, or an event, which leaves its core. -/
  | keeps (turn : s.turn ≠ .node n) (result : (s.node n).KeepsCore (t.node n))
  /-- Another node's step, or an event, by which its pin or device wakes it. -/
  | wakes (turn : s.turn ≠ .node n) (result : (s.node n).WokenTo n (t.node n))
  /-- The step of its neighbour k, over the link that both accesses select. -/
  | partner (k : Node) (op other : MemOp) (v : Word) (d : Dir) (turn : s.turn = .node k)
      (pending : (s.node k).pending = some op) (blocked : (s.node n).blocked = some other)
      (selected : selects (other.addr (s.node n)) d = true) (selectedBack : selects (op.addr (s.node k)) d = true)
      (link : neighbour k d = some n) (matching : s.answers n d op.isStore = true)
      (result : t.node n = other.finish (s.node n).slot v (s.node n))

/-- The pending access of a core that is not fetching is its opcode's. -/
theorem opcodeOf_of_not_fetching {c : NodeState} (h : c.fetching = false) :
    opcodeOf c = some (decode c.i c.slot) := by
  rw [opcodeOf, h]
  rfl

theorem step_node {s t : State} (h : step s = .next t) (n : Node) : NodeStep s t n := by
  rcases step_cases h with ⟨k, op, hturn, hpending, sl, hrun⟩ | ⟨k, i, hturn, hfetch, hi, hmem, hrun⟩ | ⟨e, hturn, rfl⟩
  · by_cases hk : n = k
    · subst hk
      exact .access op sl hturn hpending hrun
    · have hother : s.turn ≠ .node n := by
        rw [hturn]
        exact fun e => hk (Turn.node.inj e).symm
      rcases State.access_other hrun (n := n) hk with ⟨x, hx, -⟩ | ⟨other, v, d, hb, hs, hs', hl, ha, hr⟩ | hw
      · exact .keeps hother ⟨_, _, _, x, hx⟩
      · exact .partner k op other v d hturn hpending hb hs hs' hl ha hr
      · exact .wakes hother hw
  · by_cases hk : n = k
    · subst hk
      exact .opcode i hturn (by rw [opcodeOf_of_not_fetching hfetch, hi]) hmem hrun
    · have hother : s.turn ≠ .node n := by
        rw [hturn]
        exact fun e => hk (Turn.node.inj e).symm
      exact .keeps hother (by rw [exec_core_other hmem hrun hk]; exact .refl _)
  · have hother : s.turn ≠ .node n := by rw [hturn]; exact fun e => nomatch e
    by_cases he : e = .reset
    · subst he
      exact .reset hturn rfl
    · rcases s.taken.applyEvent_node he n with hk | hw
      · exact .keeps hother hk
      · exact .wakes hother hw

/-! ### A step of the node's own -/

/-- After an access the running node is the node that made it. -/
theorem core_of_access {s t : State} {n : Node} {op : MemOp} {sl : Slot} (h : (s.onTurn n).access op sl = .next t) :
    t.core = t.node n := by
  have hcur : t.cur = n := (State.access_rest h).1
  rw [← hcur]
  rfl

theorem core_of_exec {s t : State} {n : Node} {i : Instr} (hm : memOpOf i = none)
    (h : exec i (s.onTurn n) = .next t) : t.core = t.node n := by
  have hcur : t.cur = n := exec_core_cur hm h
  rw [← hcur]
  rfl

/-- An opcode that is no bus access is not one that a core sleeps in. -/
theorem pending_of_opcode {c : NodeState} {i : Instr} (h : opcodeOf c = some i) (hm : memOpOf i = none) :
    c.pending = none := by
  unfold opcodeOf at h
  split at h
  · cases h
  · next hf =>
    rw [NodeState.pending, if_neg hf, Option.some.inj h, hm]

/-- R276: a core that sleeps in its own access runs no other opcode. -/
theorem not_blocked_of_opcode {s : State} (hs : s.SleepsInItsAccess) {n : Node} {i : Instr}
    (h : opcodeOf (s.node n) = some i) (hm : memOpOf i = none) : (s.node n).blocked = none := by
  cases hb : (s.node n).blocked with
  | none => rfl
  | some op =>
    have hp := hs n op hb
    rw [pending_of_opcode h hm] at hp
    cases hp

/-! ### The memory stays in its canonical form (R61) -/

/-- Settles O16: only a store writes a RAM, at a word number of six bits; a reset empties it. -/
theorem stepKeepsMemoryCanonical : Obligations.StepKeepsMemoryCanonical := by
  intro s t hs hstep n
  cases step_node hstep n with
  | access op sl turn pending runs =>
    rcases State.ram_access runs n with hsame | ⟨k, -, -, -, hwrite⟩
    · rw [hsame]; exact hs n
    · rw [hwrite]; exact Ram.wf_write _ (hs n) k.isLt
  | opcode i turn running notMemory runs =>
    rw [← core_of_exec notMemory runs, (exec_core_keeps notMemory runs).1]
    exact hs n
  | reset turn result =>
    rw [result, State.applyReset_node]
    rfl
  | keeps turn result =>
    obtain ⟨ext, dev, link, x, he⟩ := result
    rw [he]
    exact hs n
  | wakes turn result =>
    rw [result.ram]
    exact hs n
  | partner k op other v d turn pending blocked selected selectedBack link matching result =>
    rw [result, MemOp.finish_ram]
    exact hs n

/-! ### A sleeper (R276) -/

theorem NodeState.KeepsCore.sameCore {c e : NodeState} (h : c.KeepsCore e) : SameCore e c := by
  obtain ⟨ext, dev, link, x, rfl⟩ := h
  exact ⟨rfl, rfl, rfl, rfl, rfl, rfl, rfl, rfl, rfl, rfl, rfl, rfl, rfl, rfl, rfl, rfl, rfl⟩

theorem NodeState.KeepsCore.blocked {c e : NodeState} (h : c.KeepsCore e) : e.blocked = c.blocked := by
  obtain ⟨ext, dev, link, x, rfl⟩ := h
  rfl

theorem NodeState.KeepsCore.pending {c e : NodeState} (h : c.KeepsCore e) : e.pending = c.pending := by
  obtain ⟨ext, dev, link, x, rfl⟩ := h
  rfl

theorem NodeState.KeepsCore.addr {c e : NodeState} (h : c.KeepsCore e) (op : MemOp) : op.addr e = op.addr c := by
  obtain ⟨ext, dev, link, x, rfl⟩ := h
  exact op.addr_congr rfl rfl rfl

/-- A node at reset is awake. -/
theorem State.applyReset_blocked (s : State) (n : Node) : (s.applyReset.node n).blocked = none := by
  rw [State.applyReset_node]
  rfl

/-- Whatever its own access makes of a core, it is awake after it, or sleeps in it with its core as before. -/
theorem access_own {s t : State} {n : Node} {op : MemOp} {sl : Slot} (h : (s.onTurn n).access op sl = .next t) :
    (t.node n).blocked = none ∨
      (place n (op.addr (s.node n)) = .port ∧
        (∀ d m, selects (op.addr (s.node n)) d = true → neighbour n d = some m →
          s.answers m d op.isStore = false) ∧
        ∃ x dev, t.node n = { s.node n with disarmedBy := x, dev := dev, blocked := some op }) := by
  rcases State.access_self h with ⟨hport, hnone, x, dev, he, -⟩ | ⟨v, ram, iocsw, dev, link, x, he, -⟩
  · rw [core_of_access h] at he
    exact .inr ⟨hport, hnone, x, dev, he⟩
  · rw [core_of_access h] at he
    rw [he]
    exact .inl (MemOp.finish_blocked _ _ _ _)

/-- What a step makes of a sleeper: it is awake, or its core is as it was. -/
theorem step_sleeper {s t : State} {n : Node} {op : MemOp} (hs : s.SleepsInItsAccess)
    (hb : (s.node n).blocked = some op) (hstep : step s = .next t) :
    (t.node n).blocked = none ∨ (s.node n).KeepsCore (t.node n) := by
  cases step_node hstep n with
  | access op' sl turn pending runs =>
    obtain rfl : op = op' := Option.some.inj ((hs n op hb).symm.trans pending)
    refine (access_own runs).imp id ?_
    rintro ⟨-, -, x, dev, he⟩
    exact ⟨(s.node n).ext, dev, (s.node n).linkReady, x, by rw [he, ← hb]⟩
  | opcode i turn running notMemory runs =>
    rw [not_blocked_of_opcode hs running notMemory] at hb
    cases hb
  | reset turn result => exact .inl (by rw [result, State.applyReset_blocked])
  | keeps turn result => exact .inr result
  | wakes turn result => exact .inl result.blocked
  | partner k op' other v d turn pending blocked selected selectedBack link matching result =>
    exact .inl (by rw [result, MemOp.finish_blocked])

/-- Settles O54, by `step_sleeper`. -/
theorem sleepingCoreWaits : Obligations.SleepingCoreWaits := by
  intro s t n hs hasleep hstep
  obtain ⟨op, hb⟩ := Option.ne_none_iff_exists'.1 hasleep
  refine (step_sleeper hs hb hstep).imp (fun hawake h => h hawake) fun hkeeps => ?_
  exact ⟨hkeeps.blocked, hkeeps.sameCore⟩

end Sys2Proof.Machine

/-! # Port accesses in the statements' words

The statements say of a port access whether a neighbour offers the other half (`Offers`), whether its pin or device is
ready or idle (`PinReady`, `PinIdle`), and what it leaves (`SleepsIn`, `PinCompleted`, `Transferred`); the model computes
these with `answers`, `wakeState`, `sleep`, `pinCompletes` and `rendezvous`. This part ties each of the one to the other,
once; the statements on ports cite it. -/

namespace Sys2Proof.Machine

open Sys2Proof.Statement

/-! ### The nodes' tables -/

theorem deviceOf_bus (n : Node) : deviceOf n = .bus ↔ OnBus n := by revert n; decide
theorem deviceOf_serdes (n : Node) : deviceOf n = .serdes ↔ OnSerdes n := by revert n; decide
theorem deviceOf_adc (n : Node) : deviceOf n = .adc ↔ Analog n := by revert n; decide

theorem not_onSerdes_of_onBus (n : Node) : OnBus n → ¬ OnSerdes n := by revert n; decide
theorem not_onBus_of_onSerdes (n : Node) : OnSerdes n → ¬ OnBus n := by revert n; decide
theorem not_analog_of_onBus (n : Node) : OnBus n → ¬ Analog n := by revert n; decide
theorem not_analog_of_onSerdes (n : Node) : OnSerdes n → ¬ Analog n := by revert n; decide

theorem sideNode_iff (n : Node) : sideNode n = true ↔ n ∈ ([10, 19, 20, 29] : List Node) := by revert n; decide

/-- R402: the analog nodes have no detector. -/
theorem hasDetector_iff (n : Node) : hasDetector n = true ↔ ¬ Analog n := by
  rw [hasDetector, decide_eq_true_iff, ne_eq, deviceOf_adc]

/-- R325: the nodes that wait for a pin or device at their LEFT, and at their UP. -/
theorem wakesFrom_left (n : Node) : wakesFrom n .left = true ↔ n ∈ ([10, 19, 20, 29, 39] : List Node) := by
  revert n; decide
theorem wakesFrom_up (n : Node) :
    wakesFrom n .up = true ↔ n ∈ ([1, 3, 4, 5, 31, 32, 33, 36, 37, 38, 39] : List Node) := by
  revert n; decide

/-- Some direction is selected whose pin or device the access waits for. -/
theorem waitsForPin_iff (n : Node) (a : Addr) :
    waitsForPin n a = true ↔ ∃ d, selects a d = true ∧ wakesFrom n d = true := by
  simp only [waitsForPin, List.any_eq_true, Bool.and_eq_true]
  refine ⟨fun ⟨d, _, h⟩ => ⟨d, h⟩, fun ⟨d, h⟩ => ⟨d, ?_, h⟩⟩
  cases d <;> decide

/-- R289, R325. -/
theorem pinSelected_iff (n : Node) (a : Addr) : PinSelected n a ↔ waitsForPin n a = true := by
  rw [waitsForPin_iff, PinSelected, ← wakesFrom_left, ← wakesFrom_up]
  constructor
  · rintro (h | h)
    · exact ⟨.left, h⟩
    · exact ⟨.up, h⟩
  · rintro ⟨d, h⟩
    cases d with
    | left => exact .inl h
    | up => exact .inr h
    | right | down => cases h.2

/-- An address that selects a direction with a neighbour, a wake pin or a device is a port (R69, R274). -/
theorem place_of_selected {n : Node} {a : Addr} {d : Dir} (hs : selects a d = true)
    (hd : ((neighbour n d).isSome || wakesFrom n d) = true) : place n a = .port := by
  have hlow : a.extractLsb' 0 4 = 5#4 := by
    simp only [selects, Bool.and_eq_true, beq_iff_eq] at hs
    exact hs.1.2
  have hmem : d ∈ allDirs.filter (selects a) := List.mem_filter.2 ⟨by cases d <;> decide, hs⟩
  have hdefined : portDefined n a = true := by
    unfold portDefined
    split
    · next hnil => rw [hnil] at hmem; cases hmem
    · next e hone =>
      rw [hone, List.mem_singleton] at hmem
      exact hmem ▸ hd
    · rfl
  unfold place
  rw [bit8_of_selects hs, if_neg (by decide), if_neg (by rintro rfl; exact absurd hlow (by decide)),
    if_neg (by rintro rfl; exact absurd hlow (by decide)), if_pos hdefined]

theorem place_of_waitsForPin {n : Node} {a : Addr} (h : waitsForPin n a = true) : place n a = .port := by
  obtain ⟨d, hs, hd⟩ := (waitsForPin_iff n a).1 h
  exact place_of_selected hs (by rw [hd, Bool.or_true])

/-! ### Completion -/

/-- R108, R396, R398: going on after a memory opcode. -/
theorem NodeState.afterMemory_eq_ends (c : NodeState) (sl : Slot) (throughP : Bool) :
    c.afterMemory sl throughP = ends sl (throughP && decide (sl = .s3)) c := by
  cases sl with
  | s0 | s1 | s2 | s3 => rfl

/-- R73, R161 to R168: the register effects of an access. -/
theorem MemOp.finish_eq_finished (op : MemOp) (sl : Slot) (v : Word) (c : NodeState) :
    op.finish sl v c = finished op sl v c := by
  cases op <;>
    simp only [MemOp.finish, finished, NodeState.afterMemory_eq_ends, incr_eq_bump, Bool.false_and, Bool.true_and] <;> rfl

/-- An access that completes does not touch the I/O state. -/
theorem MemOp.finish_io (op : MemOp) (sl : Slot) (v : Word) (c : NodeState) (dev : Word) (link : Bool)
    (x : Option Addr) :
    op.finish sl v { c with dev := dev, linkReady := link, disarmedBy := x } =
      { op.finish sl v c with dev := dev, linkReady := link, disarmedBy := x } := by
  cases op with
  | instr => rfl
  | fetchA | storeA | fetchAInc | storeAInc | fetchB | storeB | fetchPInc | storePInc => cases sl <;> rfl

theorem MemOp.finish_setDev (op : MemOp) (sl : Slot) (v : Word) (c : NodeState) (dev : Word) :
    op.finish sl v { c with dev := dev } = { op.finish sl v c with dev := dev } := by
  cases op with
  | instr => rfl
  | fetchA | storeA | fetchAInc | storeAInc | fetchB | storeB | fetchPInc | storePInc => cases sl <;> rfl

/-! ### Offers -/

/-- R277 to R279. -/
theorem offers_iff (s : State) (m : Node) (d : Dir) (store : Bool) :
    Offers s m d store ↔ s.answers m d store = true := by
  unfold Offers State.answers
  cases store <;> cases s.req m d <;> simp

/-- What a node asks for where it sleeps, over the selected ports with a neighbour (R273). -/
theorem State.req_blocked {s : State} {n : Node} {op : MemOp} (h : (s.node n).blocked = some op) (d : Dir) :
    s.req n d = if selects (op.addr (s.node n)) d && (neighbour n d).isSome then
      (if op.isStore then .writing (s.node n).t else .reading) else .idle := by
  rw [State.req, h]

/-- R273: over a link a node asks to read where it sleeps in a read that selects it. -/
theorem State.req_eq_reading {s : State} {n m : Node} {d : Dir} (hl : neighbour n d = some m) :
    s.req n d = .reading ↔
      ∃ op, (s.node n).blocked = some op ∧ selects (op.addr (s.node n)) d = true ∧ op.isStore = false := by
  cases hb : (s.node n).blocked with
  | none => simp [State.req_awake hb]
  | some op =>
    rw [State.req_blocked hb, hl]
    cases hs : selects (op.addr (s.node n)) d <;> cases hw : op.isStore <;> simp [hs, hw]

/-- R273: and to write its T where it sleeps in a store. -/
theorem State.req_eq_writing {s : State} {n m : Node} {d : Dir} {v : Word} (hl : neighbour n d = some m) :
    s.req n d = .writing v ↔
      ∃ op, (s.node n).blocked = some op ∧ selects (op.addr (s.node n)) d = true ∧ op.isStore = true ∧
        (s.node n).t = v := by
  cases hb : (s.node n).blocked with
  | none => simp [State.req_awake hb]
  | some op =>
    rw [State.req_blocked hb, hl]
    cases hs : selects (op.addr (s.node n)) d <;> cases hw : op.isStore <;> simp [hs, hw]

/-- The partner of an access over one port. -/
def State.partnerAt (s : State) (a : Addr) (store : Bool) (d : Dir) : Option Node :=
  if selects a d then (neighbour s.cur d).filter fun m => s.answers m d store else none

theorem State.partners_eq (s : State) (a : Addr) (store : Bool) :
    s.partners a store = allDirs.filterMap (s.partnerAt a store) := by
  unfold State.partners
  congr 1
  funext d
  unfold State.partnerAt
  split
  · cases neighbour s.cur d <;> rfl
  · rfl

theorem State.partnerAt_eq_some {s : State} {a : Addr} {store : Bool} {d : Dir} {m : Node}
    (h : s.partnerAt a store d = some m) :
    selects a d = true ∧ neighbour s.cur d = some m ∧ Offers s m d store := by
  unfold State.partnerAt at h
  split at h
  · next hs =>
    obtain ⟨hn, ha⟩ := Option.filter_eq_some_iff.1 h
    exact ⟨hs, hn, (offers_iff s m d store).2 ha⟩
  · cases h

/-- Two different directions offer the other half of an access (R286, R287). -/
def Collides (s : State) (a : Addr) (store : Bool) : Prop :=
  ∃ d d' m m', d ≠ d' ∧ selects a d = true ∧ neighbour s.cur d = some m ∧ Offers s m d store ∧
    selects a d' = true ∧ neighbour s.cur d' = some m' ∧ Offers s m' d' store

/-- The partners of an access: none; one, over one direction; or several, over different ones. -/
theorem State.partners_cases (s : State) (a : Addr) (store : Bool) :
    (s.partners a store = [] ∧ NoOffer s s.cur a store) ∨
    (∃ m d, s.partners a store = [m] ∧ selects a d = true ∧ neighbour s.cur d = some m ∧ Offers s m d store) ∨
    (∃ m m' rest, s.partners a store = m :: m' :: rest) ∧ Collides s a store := by
  match hp : s.partners a store with
  | [] =>
    refine .inl ⟨rfl, fun d m hs hn ho => ?_⟩
    have hmem := (s.mem_partners a store m).2 ⟨d, hs, hn, (offers_iff s m d store).1 ho⟩
    rw [hp] at hmem
    cases hmem
  | [m] =>
    obtain ⟨d, hs, hn, ha⟩ := (s.mem_partners a store m).1 (by rw [hp]; exact List.mem_singleton.2 rfl)
    exact .inr (.inl ⟨m, d, rfl, hs, hn, (offers_iff s m d store).2 ha⟩)
  | m :: m' :: rest =>
    refine .inr (.inr ⟨⟨m, m', rest, rfl⟩, ?_⟩)
    by_contra hno
    have hpair : (s.partners a store).Pairwise fun _ _ => False := by
      rw [State.partners_eq, List.pairwise_filterMap]
      refine List.Pairwise.imp ?_ (show allDirs.Pairwise (· ≠ ·) by decide)
      intro d d' hne k hk k' hk'
      obtain ⟨hs, hn, ho⟩ := State.partnerAt_eq_some hk
      obtain ⟨hs', hn', ho'⟩ := State.partnerAt_eq_some hk'
      exact hno ⟨d, d', k, k', hne, hs, hn, ho, hs', hn', ho'⟩
    rw [hp] at hpair
    exact List.rel_of_pairwise_cons hpair List.mem_cons_self

/-- Where no selected port offers the other half there is no partner. -/
theorem State.partners_of_noOffer {s : State} {a : Addr} {store : Bool} (h : NoOffer s s.cur a store) :
    s.partners a store = [] := by
  rcases s.partners_cases a store with ⟨hp, -⟩ | ⟨m, d, -, hs, hn, ho⟩ | ⟨-, d, _, m, _, -, hs, hn, ho, -⟩
  · exact hp
  · exact absurd ho (h d m hs hn)
  · exact absurd ho (h d m hs hn)

/-- Where exactly one does, its neighbour is the partner. -/
theorem State.partners_of_offer {s : State} {a : Addr} {store : Bool} {m : Node} {d : Dir} (hs : selects a d = true)
    (hn : neighbour s.cur d = some m) (ho : Offers s m d store)
    (hone : ∀ d' m', selects a d' = true → neighbour s.cur d' = some m' → Offers s m' d' store → d' = d) :
    s.partners a store = [m] := by
  rcases s.partners_cases a store with ⟨-, h⟩ | ⟨m', d', hp, hs', hn', ho'⟩ |
    ⟨-, d1, d2, m1, m2, hne, hs1, hn1, ho1, hs2, hn2, ho2⟩
  · exact absurd ho (h d m hs hn)
  · obtain rfl := hone d' m' hs' hn' ho'
    rw [hp, Option.some.inj (hn'.symm.trans hn)]
  · exact absurd ((hone d1 m1 hs1 hn1 ho1).trans (hone d2 m2 hs2 hn2 ho2).symm) hne

/-- Two directions that offer it are two partners (R346: a link has one direction). -/
theorem State.partners_of_collides {s : State} {a : Addr} {store : Bool} (h : Collides s a store) :
    ∃ m m' rest, s.partners a store = m :: m' :: rest := by
  obtain ⟨d, d', m, m', hne, hs, hn, ho, hs', hn', ho'⟩ := h
  have hm := (s.mem_partners a store m).2 ⟨d, hs, hn, (offers_iff s m d store).1 ho⟩
  have hm' := (s.mem_partners a store m').2 ⟨d', hs', hn', (offers_iff s m' d' store).1 ho'⟩
  match s.partners a store, hm, hm' with
  | [k], hm, hm' =>
    obtain rfl := List.mem_singleton.1 hm
    obtain rfl := List.mem_singleton.1 hm'
    exact absurd (neighbour_inj hn hn') hne
  | k :: k' :: rest, _, _ => exact ⟨k, k', rest, rfl⟩

/-! ### Pins and devices -/

/-- The wake input (R326, R334). -/
theorem State.wakeLevel_eq_wakeInput (s : State) (n : Node) : s.wakeLevel n = wakeInput s n := by
  unfold State.wakeLevel State.wakeLine wakeInput
  simp only [deviceOf_bus]
  by_cases h3 : n = 3
  · rw [if_pos (.inl h3), if_pos h3, if_pos h3]
  · by_cases h5 : n = 5
    · rw [if_pos (.inr h5), if_neg h3, if_neg h3, if_pos h5]
    · rw [if_neg (by rintro (h | h) <;> contradiction), if_neg h3, if_neg h5]

/-- R326, D14. -/
theorem wakeCondition_iff (n : Node) (iocsw : Word) (w : Bool) :
    wakeCondition n iocsw w = true ↔ AtWakeLevel n iocsw w := by
  unfold wakeCondition AtWakeLevel
  simp only [← sideNode_iff]
  split
  · rfl
  · exact bne_iff_ne

/-- R326, R402: the wake input at its level with the detector armed. -/
theorem wakeHolds_iff (s : State) (n : Node) (a : Addr) (w : Bool) :
    (wakeCondition n (s.node n).iocsw w && (!hasDetector n || (s.node n).disarmedBy != some a)) = true ↔
      WakeHolds s n a w := by
  have hdetector : (!hasDetector n) = true ↔ Analog n := by
    rw [Bool.not_eq_true', ← Bool.not_eq_true, hasDetector_iff, not_not]
  rw [Bool.and_eq_true, wakeCondition_iff, Bool.or_eq_true, hdetector, bne_iff_ne, WakeHolds]

theorem State.padsDriven_iff (s : State) (n : Node) : s.padsDriven n = true ↔ Sending s n := by
  rw [State.padsDriven, Bool.and_eq_true, decide_eq_true_iff, deviceOf_serdes, NodeState.serdesSending, Sending]

/-- What completes an access by pin or device, in the statements' words, `LinkReady` and `Sending` decided first. -/
theorem State.wakeState_eq (s : State) (n : Node) (a : Addr) :
    (LinkReady s n → s.wakeState n a = some true) ∧
    (¬ LinkReady s n → Sending s n → s.wakeState n a = some false) ∧
    (¬ LinkReady s n → ¬ Sending s n → s.wakeState n a = (wakeInput s n).map fun w =>
      wakeCondition n (s.node n).iocsw w && (!hasDetector n || (s.node n).disarmedBy != some a)) := by
  unfold State.wakeState
  simp only [deviceOf_serdes, State.padsDriven_iff, State.wakeLevel_eq_wakeInput]
  exact ⟨fun h => if_pos h, fun h h' => by rw [if_neg h, if_pos h'], fun h h' => by rw [if_neg h, if_neg h']⟩

/-- R325, R326, R342, R343, R402: what is ready. -/
theorem State.wakeState_eq_true (s : State) (n : Node) (a : Addr) :
    s.wakeState n a = some true ↔ PinReady s n a := by
  obtain ⟨hready, hsending, hpin⟩ := s.wakeState_eq n a
  by_cases hl : LinkReady s n
  · exact ⟨fun _ => .inl hl, fun _ => hready hl⟩
  by_cases hs : Sending s n
  · rw [hsending hl hs]
    refine ⟨fun h => (by cases h), ?_⟩
    rintro (h | ⟨h, -⟩)
    · exact absurd h hl
    · exact absurd hs h
  · rw [hpin hl hs, Option.map_eq_some_iff]
    constructor
    · rintro ⟨w, hw, hcond⟩
      exact .inr ⟨hs, w, hw, (wakeHolds_iff s n a w).1 hcond⟩
    · rintro (h | ⟨-, w, hw, hholds⟩)
      · exact absurd h hl
      · exact ⟨w, hw, (wakeHolds_iff s n a w).2 hholds⟩

/-- The same of what is idle. -/
theorem State.wakeState_eq_false (s : State) (n : Node) (a : Addr) :
    s.wakeState n a = some false ↔ PinIdle s n a := by
  obtain ⟨hready, hsending, hpin⟩ := s.wakeState_eq n a
  by_cases hl : LinkReady s n
  · rw [hready hl]
    exact ⟨fun h => (by cases h), fun ⟨h, _⟩ => absurd hl h⟩
  by_cases hs : Sending s n
  · exact ⟨fun _ => ⟨hl, .inl hs⟩, fun _ => hsending hl hs⟩
  · rw [hpin hl hs, Option.map_eq_some_iff]
    constructor
    · rintro ⟨w, hw, hcond⟩
      refine ⟨hl, .inr ⟨w, hw, fun h => ?_⟩⟩
      rw [(wakeHolds_iff s n a w).2 h] at hcond
      cases hcond
    · rintro ⟨-, h | ⟨w, hw, hno⟩⟩
      · exact absurd h hs
      · exact ⟨w, hw, Bool.eq_false_iff.2 fun h => hno ((wakeHolds_iff s n a w).1 h)⟩

/-- A pin or a device is looked at only where the access selects it. -/
theorem State.pinReady_of_not_selected {s : State} {n : Node} {a : Addr} (h : ¬ PinSelected n a) :
    s.pinReady n a = false := by
  rw [pinSelected_iff, Bool.not_eq_true] at h
  rw [State.pinReady, h, Bool.false_and]

theorem State.pinReady_of_ready {s : State} {n : Node} {a : Addr} (hsel : PinSelected n a) (h : PinReady s n a) :
    s.pinReady n a = true := by
  rw [State.pinReady, (pinSelected_iff n a).1 hsel, State.pinWakes, (s.wakeState_eq_true n a).2 h]
  rfl

theorem State.pinReady_of_idle {s : State} {n : Node} {a : Addr} (h : PinIdle s n a) : s.pinReady n a = false := by
  rw [State.pinReady, State.pinWakes, (s.wakeState_eq_false n a).2 h]
  exact Bool.and_false _

theorem State.pinSelected_of_pinReady {s : State} {n : Node} {a : Addr} (h : s.pinReady n a = true) :
    PinSelected n a := by
  by_contra hno
  rw [State.pinReady_of_not_selected hno] at h
  cases h

end Sys2Proof.Machine

/-! # What a port access does (R276 to R289, R325 to R343)

A port access uses the bus, begins its store and then meets what is there (`State.access_port`, `State.started`). From
there it sleeps, or its pin or device completes it, or it transfers a word to or from its one partner, or two partners
stop the run: one theorem each, in the statements' words. -/

namespace Sys2Proof.Machine

open Sys2Proof.Statement

/-! ### The start of a port access -/

/-- The chip in which a port access to `a` meets its partner: the bus has been used, and a store to a bus has begun. -/
def State.started (s : State) (op : MemOp) (a : Addr) : State := (s.setCore (s.core.touchBus a)).begun op a

theorem State.access_port {s : State} {op : MemOp} (sl : Slot) (h : place s.cur (op.addr s.core) = .port) :
    s.access op sl = (s.started op (op.addr s.core)).meet op sl (op.addr s.core) := by
  unfold State.access
  simp only [State.cur_setCore, h]
  rfl

/-- R332, R402: the start of an access touches the detector and the bus latch. -/
theorem State.started_eq (s : State) (op : MemOp) (a : Addr) :
    ∃ dev, Latched s.cur s.core op a dev ∧ s.started op a = s.setCore { touched s.core a with dev := dev } := by
  unfold State.started State.begun State.beginStore
  rw [State.core_setCore, NodeState.touchBus_eq_touched]
  by_cases hb : s.core.blocked = some op
  · rw [if_pos (show (touched s.core a).blocked = some op from hb)]
    exact ⟨s.core.dev, by rw [Latched, if_neg fun h => h.2.2.2 hb], rfl⟩
  · rw [if_neg (show (touched s.core a).blocked ≠ some op from hb)]
    split
    · next hstore =>
      simp only [Bool.and_eq_true, decide_eq_true_eq, State.cur_setCore, deviceOf_bus] at hstore
      obtain ⟨⟨hstore, hbus⟩, hup⟩ := hstore
      refine ⟨_, ?_, State.setCore_setCore s _ _⟩
      rw [Latched, if_pos ⟨hstore, hbus, hup, hb⟩]
      intro hout
      unfold State.busWritten NodeState.busOutput
      rw [State.cur_setCore, State.node_setCore_cur, if_pos (show (touched s.core a).iocsw.getLsbD 12 = true from hout)]
      rfl
    · next hstore =>
      simp only [Bool.and_eq_true, decide_eq_true_eq, State.cur_setCore, deviceOf_bus] at hstore
      exact ⟨s.core.dev, by rw [Latched, if_neg fun h => hstore ⟨⟨h.1, h.2.1⟩, h.2.2.1⟩], rfl⟩

theorem State.started_cur (s : State) (op : MemOp) (a : Addr) : (s.started op a).cur = s.cur := by
  obtain ⟨dev, -, he⟩ := s.started_eq op a
  rw [he, State.cur_setCore]

theorem State.started_tick (s : State) (op : MemOp) (a : Addr) : (s.started op a).tick = s.tick := by
  obtain ⟨dev, -, he⟩ := s.started_eq op a
  rw [he, State.tick_setCore]

theorem State.started_other (s : State) (op : MemOp) (a : Addr) {m : Node} (hm : m ≠ s.cur) :
    (s.started op a).node m = s.node m := by
  obtain ⟨dev, -, he⟩ := s.started_eq op a
  rw [he, State.node_setCore_ne s _ hm]

/-- Every node, before and after the start of an access, is alike but for its detector and its device. -/
theorem State.started_node (s : State) (op : MemOp) (a : Addr) (m : Node) :
    ∃ dev, (s.started op a).node m = { touched (s.node m) a with dev := dev } ∨
      (s.started op a).node m = s.node m := by
  obtain ⟨dev, -, he⟩ := s.started_eq op a
  by_cases hm : m = s.cur
  · subst hm
    exact ⟨dev, .inl (by rw [he, State.node_setCore_cur, State.node_cur])⟩
  · exact ⟨dev, .inr (s.started_other op a hm)⟩

theorem State.started_req (s : State) (op : MemOp) (a : Addr) (m : Node) (d : Dir) :
    (s.started op a).req m d = s.req m d := by
  obtain ⟨dev, he⟩ := s.started_node op a m
  rcases he with he | he
  · exact State.req_congr (by rw [he]; rfl) (by rw [he]; rfl) (by rw [he]; rfl) (by rw [he]; rfl) (by rw [he]; rfl) d
  · exact State.req_congr (by rw [he]) (by rw [he]) (by rw [he]) (by rw [he]) (by rw [he]) d

theorem State.started_partners (s : State) (op : MemOp) (a : Addr) (store : Bool) :
    (s.started op a).partners a store = s.partners a store := by
  rw [State.partners_eq, State.partners_eq]
  congr 1
  funext d
  simp only [State.partnerAt, State.started_cur, State.answers, State.started_req]

/-! ### What wakes a node depends on -/

theorem State.pinLevel_congr {s t : State} {n : Node} (hi : (t.node n).iocsw = (s.node n).iocsw)
    (he : (t.node n).ext = (s.node n).ext) (q : Pin) : t.pinLevel n q = s.pinLevel n q := by
  rw [State.pinLevel, State.pinLevel, hi, he]

/-- R326, R334: a wake input depends on its pins, its control bits and, on the buses, on the latch of node 04. -/
theorem State.wakeLevel_congr {s t : State} {n : Node} (hi : (t.node n).iocsw = (s.node n).iocsw)
    (he : (t.node n).ext.p17 = (s.node n).ext.p17)
    (h4 : OnBus n → (t.node 4).iocsw = (s.node 4).iocsw) : t.wakeLevel n = s.wakeLevel n := by
  unfold State.wakeLevel
  split
  · next hbus =>
    rw [State.wakeLine, State.wakeLine, h4 ((deviceOf_bus n).1 hbus)]
  · rw [State.pinLevel, State.pinLevel, hi, Ext.at, Ext.at, he]

/-- What completes an access by pin or device depends on these, the link and the detector. -/
theorem State.wakeState_congr {s t : State} {n : Node} {a : Addr} (hi : (t.node n).iocsw = (s.node n).iocsw)
    (he : (t.node n).ext.p17 = (s.node n).ext.p17) (hl : (t.node n).linkReady = (s.node n).linkReady)
    (hx : (t.node n).disarmedBy = some a ↔ (s.node n).disarmedBy = some a)
    (h4 : OnBus n → (t.node 4).iocsw = (s.node 4).iocsw) : t.wakeState n a = s.wakeState n a := by
  have harmed : ((t.node n).disarmedBy != some a) = ((s.node n).disarmedBy != some a) :=
    Bool.eq_iff_iff.2 (by rw [bne_iff_ne, bne_iff_ne]; exact not_congr hx)
  rw [State.wakeState, State.wakeState, State.wakeLevel_congr hi he h4, State.padsDriven, State.padsDriven,
    NodeState.serdesSending, NodeState.serdesSending, hi, hl, harmed]

/-- R402: a use of the bus at `a` does not arm a detector that `a` disarmed. -/
theorem touched_disarmedBy (c : NodeState) (a : Addr) : (touched c a).disarmedBy = some a ↔ c.disarmedBy = some a := by
  unfold touched
  by_cases h : c.disarmedBy = some a <;> simp [h]

theorem State.started_wakeState (s : State) (op : MemOp) (a : Addr) (n : Node) :
    (s.started op a).wakeState n a = s.wakeState n a := by
  obtain ⟨dev4, h4⟩ := s.started_node op a 4
  have h4 : ((s.started op a).node 4).iocsw = (s.node 4).iocsw := by
    rcases h4 with h | h
    · rw [h]; rfl
    · rw [h]
  obtain ⟨dev, he⟩ := s.started_node op a n
  rcases he with he | he
  · exact State.wakeState_congr (by rw [he]; rfl) (by rw [he]; rfl) (by rw [he]; rfl)
      (by rw [he]; exact touched_disarmedBy (s.node n) a) fun _ => h4
  · exact State.wakeState_congr (by rw [he]) (by rw [he]) (by rw [he]) (by rw [he]) fun _ => h4

theorem State.started_pinReady (s : State) (op : MemOp) (a : Addr) (n : Node) :
    (s.started op a).pinReady n a = s.pinReady n a := by
  rw [State.pinReady, State.pinReady, State.pinWakes, State.pinWakes, s.started_wakeState, s.started_tick]

/-! ### Where it ends -/

/-- R276. -/
theorem State.started_sleep (s : State) (op : MemOp) (a : Addr) : SleepsIn s op a ((s.started op a).sleep op) := by
  obtain ⟨dev, hlatched, he⟩ := s.started_eq op a
  refine ⟨dev, hlatched, ?_⟩
  rw [he, State.sleep, State.setCore_setCore, State.core_setCore]

/-- R325 to R328, R332, R342, R343, R402: node n, which is `c` but for a store that has begun. -/
theorem State.pinCompletes_spec {s : State} {n : Node} {c : NodeState} {op : MemOp} {a : Addr} {dev : Word}
    (hc : s.node n = { c with dev := dev }) (hlatched : Latched n c op a dev) (sl : Slot) :
    ∃ e, s.pinCompletes n op sl a = s.setNode n e ∧ CompletedByPin n c op sl a e := by
  have hkept : ¬ (OnBus n ∧ op.isStore = true) → dev = c.dev := by
    intro hno
    rwa [Latched, if_neg fun h => hno ⟨h.2.1, h.1⟩] at hlatched
  have hdetector : (if hasDetector n = true then some a else (s.node n).disarmedBy) =
      if Analog n then c.disarmedBy else some a := by
    simp only [hasDetector_iff, hc, ite_not]
  refine ⟨_, rfl, s.pinWord n, s.pinDevice n op, ?_, ?_, ?_, ?_, ?_⟩
  · rw [hdetector, MemOp.finish_io, hc, MemOp.finish_setDev, MemOp.finish_eq_finished]
  · intro hbus hserdes
    rw [← deviceOf_bus] at hbus
    rw [← deviceOf_serdes] at hserdes
    rw [State.pinDevice]
    split
    · contradiction
    · contradiction
    · rw [hc]
      exact hkept fun h => hbus ((deviceOf_bus n).2 h.1)
  · intro hserdes
    have hdev := hkept fun h => not_onBus_of_onSerdes n hserdes h.1
    rw [← deviceOf_serdes] at hserdes
    rw [State.pinWord, State.pinDevice, hserdes, hc, hdev]
    exact ⟨rfl, rfl⟩
  · intro hbus hstore
    rw [← deviceOf_bus] at hbus
    rw [State.pinDevice, hbus, hc]
    simpa only [hstore, if_true] using hlatched
  · intro hbus hread
    have hdev := hkept fun h => by rw [hread] at h; exact absurd h.2 (by decide)
    rw [← deviceOf_bus] at hbus
    have hword : s.pinWord n = s.busNow n := by rw [State.pinWord, hbus]
    refine ⟨?_, fun hout => ?_, fun pins hin hpins => ?_⟩
    · rw [hword, State.pinDevice, hbus, hread]
      rfl
    · rw [hword, State.busNow, NodeState.busOutput, hc, if_pos hout]
      exact hdev
    · rw [hword, State.busNow, NodeState.busOutput, State.capturedBus, hc]
      simp only [hin, hpins, Config.busPinXor]
      exact BitVec.xor_zero

theorem State.started_pinCompletes (s : State) (op : MemOp) (sl : Slot) (a : Addr) :
    PinCompleted s op sl a ((s.started op a).pinCompletes s.cur op sl a) := by
  obtain ⟨dev, hlatched, he⟩ := s.started_eq op a
  have hc : (s.started op a).node s.cur = { touched s.core a with dev := dev } := by rw [he, State.node_setCore_cur]
  obtain ⟨e, hcompletes, hspec⟩ := State.pinCompletes_spec (c := touched s.core a) hc hlatched sl
  refine ⟨e, ?_, hspec⟩
  rw [hcompletes, he, State.setCore, State.setNode_setNode]
  rfl

/-- R279, R288. -/
theorem State.started_rendezvous {s : State} {m : Node} {other : MemOp} (hm : m ≠ s.cur)
    (hb : (s.node m).blocked = some other) (op : MemOp) (sl : Slot) (a : Addr) :
    Transferred s op sl a m other ((s.started op a).rendezvous op sl m) := by
  obtain ⟨dev, hlatched, he⟩ := s.started_eq op a
  refine ⟨dev, hlatched, ?_⟩
  have hpartner : (s.started op a).node m = s.node m := s.started_other op a hm
  have hcur : (s.started op a).cur = s.cur := s.started_cur op a
  have hcore : (s.started op a).core = { touched s.core a with dev := dev } := by rw [he, State.core_setCore]
  have hword : (if op.isStore = true then (s.started op a).core.t else (s.node m).t) =
      if op.isStore = true then s.core.t else (s.node m).t := by rw [hcore]; rfl
  unfold State.rendezvous
  simp only [hpartner, hb, Option.getD_some, hword]
  have hfinish : ∀ v, op.finish sl v (s.started op a).core = { finished op sl v (touched s.core a) with dev := dev } := by
    intro v
    rw [hcore, MemOp.finish_setDev, MemOp.finish_eq_finished]
  rw [State.complete, State.core_setNode_ne _ _ (by rw [hcur]; exact hm), hfinish, MemOp.finish_eq_finished, he]
  refine State.ext_nodes (fun k => ?_) rfl rfl rfl rfl
  simp only [State.node_setCore, State.node_setNode, State.cur_setCore, State.cur_setNode]
  by_cases hk : k = s.cur
  · simp only [hk, if_true]
  · simp only [hk, if_false]

/-! ### The four ends of a port access -/

/-- Nobody answers, and no pin or device is ready: it sleeps. -/
theorem State.access_sleeps {s : State} {op : MemOp} (sl : Slot) (hport : place s.cur (op.addr s.core) = .port)
    (hno : NoOffer s s.cur (op.addr s.core) op.isStore) (hpin : s.pinReady s.cur (op.addr s.core) = false) :
    ∃ t, s.access op sl = .next t ∧ SleepsIn s op (op.addr s.core) t := by
  refine ⟨_, ?_, s.started_sleep op (op.addr s.core)⟩
  rw [State.access_port sl hport, State.meet, State.started_partners, State.partners_of_noOffer hno]
  simp only [State.started_cur, State.started_pinReady, hpin]
  rfl

/-- Nobody answers, and the pin or the device is ready: that completes it. -/
theorem State.access_pinCompleted {s : State} {op : MemOp} (sl : Slot)
    (hno : NoOffer s s.cur (op.addr s.core) op.isStore) (hpin : s.pinReady s.cur (op.addr s.core) = true) :
    ∃ t, s.access op sl = .next t ∧ PinCompleted s op sl (op.addr s.core) t := by
  have hport := place_of_waitsForPin ((pinSelected_iff _ _).1 (State.pinSelected_of_pinReady hpin))
  refine ⟨_, ?_, s.started_pinCompletes op sl (op.addr s.core)⟩
  rw [State.access_port sl hport, State.meet, State.started_partners, State.partners_of_noOffer hno]
  simp only [State.started_cur, State.started_pinReady, hpin]
  rfl

/-- One neighbour answers: it transfers, or a ready pin or device was first. -/
theorem State.access_answered {s : State} {op other : MemOp} {m : Node} {d : Dir} (sl : Slot)
    (hs : selects (op.addr s.core) d = true) (hn : neighbour s.cur d = some m) (ho : Offers s m d op.isStore)
    (hb : (s.node m).blocked = some other)
    (hone : ∀ d' m', selects (op.addr s.core) d' = true → neighbour s.cur d' = some m' →
      Offers s m' d' op.isStore → d' = d) :
    ∃ t, s.access op sl = .next t ∧
      (Transferred s op sl (op.addr s.core) m other t ∨
        (s.pinReady s.cur (op.addr s.core) = true ∧ PinCompleted s op sl (op.addr s.core) t)) := by
  have hrun : s.access op sl = (s.started op (op.addr s.core)).meet op sl (op.addr s.core) :=
    State.access_port sl (place_of_selects hs hn)
  rw [State.meet, State.started_partners, State.partners_of_offer hs hn ho hone] at hrun
  simp only [State.started_cur, State.started_pinReady] at hrun
  split at hrun
  · next hpin =>
    rw [Bool.and_eq_true] at hpin
    exact ⟨_, hrun, .inr ⟨hpin.1, s.started_pinCompletes op sl _⟩⟩
  · exact ⟨_, hrun, .inl (State.started_rendezvous (neighbour_symm hn).2 hb op sl _)⟩

/-- Two neighbours answer: there is no outcome. -/
theorem State.access_collides {s : State} {op : MemOp} (sl : Slot)
    (h : Collides s (op.addr s.core) op.isStore) : s.access op sl = .refused .portCollision := by
  obtain ⟨m, m', rest, hp⟩ := State.partners_of_collides h
  obtain ⟨d, d', k, k', -, hs, hn, -⟩ := h
  rw [State.access_port sl (place_of_selects hs hn), State.meet, State.started_partners, hp]

/-- A node that offers sleeps. -/
theorem blocked_of_offers {s : State} {m : Node} {d : Dir} {store : Bool} (h : Offers s m d store) :
    ∃ other, (s.node m).blocked = some other := by
  obtain ⟨other, hb, -⟩ := State.answers_spec ((offers_iff s m d store).1 h)
  exact ⟨other, hb⟩

/-- One of these is what a port access comes to. -/
theorem State.access_port_cases {s : State} {op : MemOp} (sl : Slot) (hport : place s.cur (op.addr s.core) = .port) :
    (Collides s (op.addr s.core) op.isStore ∧ s.access op sl = .refused .portCollision) ∨
    ∃ t, s.access op sl = .next t ∧
      ((NoOffer s s.cur (op.addr s.core) op.isStore ∧ s.pinReady s.cur (op.addr s.core) = false ∧
          SleepsIn s op (op.addr s.core) t) ∨
        (s.pinReady s.cur (op.addr s.core) = true ∧ PinCompleted s op sl (op.addr s.core) t) ∨
        ∃ m d other, selects (op.addr s.core) d = true ∧ neighbour s.cur d = some m ∧ Offers s m d op.isStore ∧
          (s.node m).blocked = some other ∧ Transferred s op sl (op.addr s.core) m other t) := by
  by_cases hcollides : Collides s (op.addr s.core) op.isStore
  · exact .inl ⟨hcollides, State.access_collides sl hcollides⟩
  refine .inr ?_
  by_cases hno : NoOffer s s.cur (op.addr s.core) op.isStore
  · cases hpin : s.pinReady s.cur (op.addr s.core) with
    | false =>
      obtain ⟨t, ht, hsleeps⟩ := State.access_sleeps sl hport hno hpin
      exact ⟨t, ht, .inl ⟨hno, rfl, hsleeps⟩⟩
    | true =>
      obtain ⟨t, ht, hdone⟩ := State.access_pinCompleted sl hno hpin
      exact ⟨t, ht, .inr (.inl ⟨rfl, hdone⟩)⟩
  · simp only [NoOffer, not_forall, not_not] at hno
    obtain ⟨d, m, hs, hn, ho⟩ := hno
    obtain ⟨other, hb⟩ := blocked_of_offers ho
    have hone : ∀ d' m', selects (op.addr s.core) d' = true → neighbour s.cur d' = some m' →
        Offers s m' d' op.isStore → d' = d := by
      intro d' m' hs' hn' ho'
      by_contra hne
      exact hcollides ⟨d', d, m', m, hne, hs', hn', ho', hs, hn, ho⟩
    obtain ⟨t, ht, hdone⟩ := State.access_answered sl hs hn ho hb hone
    exact ⟨t, ht, .inr (hdone.symm.imp id fun h => ⟨m, d, other, hs, hn, ho, hb, h⟩)⟩

end Sys2Proof.Machine

/-! # Ports: sleeping, waking, transferring, stopping (R240, R276 to R291, R325 to R328)

Proves `Obligations.OnlyThreeStops`, `MultiportCollisionStops`, `BothReadOrWriteHang`, `PinWake`, `PortAccessSleeps`,
`Rendezvous` and `FetchFromPort`. An opcode or a fetch that uses the bus is one access (`exec_memory`,
`step_of_pending`), and the four ends of a port access are those of `State.access_port_cases`. -/

namespace Sys2Proof.Machine

open Sys2Proof.Statement

/-! ### Steps as accesses -/

/-- R14: the step of a node that has the turn. -/
theorem step_of_turn {s : State} {n : Node} (h : s.turn = .node n) : step s = (begins s n).coreStep := by
  unfold step
  rw [h]
  rfl

/-- R14, R73: the step of a fetching node. -/
theorem step_of_fetching {s : State} {n : Node} (h : s.turn = .node n) (hf : (s.node n).fetching = true) :
    step s = (begins s n).access .instr .s0 := by
  rw [step_of_turn h, State.coreStep_fetching (s := begins s n) hf, State.fetchStep]

/-- R14, R108: the step of a node that is not. -/
theorem step_of_not_fetching {s : State} {n : Node} (h : s.turn = .node n) (hf : (s.node n).fetching = false) :
    step s = exec (decode (s.node n).i (s.node n).slot) (begins s n) := by
  rw [step_of_turn h, State.coreStep, if_neg (by rw [show (begins s n).core = s.node n from rfl, hf]; decide)]
  rfl

/-- The step of a node that is to access the bus. -/
theorem step_of_pending {s : State} {n : Node} {op : MemOp} (h : s.turn = .node n)
    (hp : (s.node n).pending = some op) : ∃ sl, step s = (begins s n).access op sl := by
  unfold NodeState.pending at hp
  split at hp
  · next hf =>
    cases hp
    exact ⟨.s0, step_of_fetching h hf⟩
  · next hf =>
    rw [step_of_not_fetching h (Bool.eq_false_iff.2 hf), exec_memory hp]
    exact ⟨_, rfl⟩

/-- The step of a node that is not. -/
theorem goes_of_not_pending {s : State} {n : Node} (h : s.turn = .node n) (hp : (s.node n).pending = none) :
    s.Goes := by
  unfold NodeState.pending at hp
  split at hp
  · cases hp
  · next hf =>
    obtain ⟨c, hc⟩ := exec_core hp (begins s n)
    exact ⟨_, by rw [step_of_not_fetching h (Bool.eq_false_iff.2 hf), hc]⟩

/-- R250: an event. -/
theorem step_of_event {s : State} {e : Event} (h : s.turn = .event e) : step s = .next (s.taken.applyEvent e) := by
  unfold step
  rw [h]

/-! ### What stops a step -/

/-- An access goes on, or is one of the three without a meaning (U3, U4, U6). -/
theorem State.access_stops (s : State) (op : MemOp) (sl : Slot) :
    (∃ t, s.access op sl = .next t) ∨ ∃ r, s.access op sl = .refused r ∧
      ((r = .storeToRom ∧ op.isStore = true ∧ ∃ k, place s.cur (op.addr s.core) = .rom k) ∨
        (r = .undefinedIo ∧ place s.cur (op.addr s.core) = .undefined) ∨
        (r = .portCollision ∧ place s.cur (op.addr s.core) = .port ∧ Collides s (op.addr s.core) op.isStore)) := by
  have hplace := fun p (h : place s.cur (op.addr s.core) = p) =>
    show place (s.setCore (s.core.touchBus (op.addr s.core))).cur (op.addr s.core) = p from h
  cases hp : place s.cur (op.addr s.core) with
  | ram k =>
    left
    unfold State.access
    simp only [hplace _ hp]
    cases op.isStore <;> exact ⟨_, rfl⟩
  | rom k =>
    unfold State.access
    simp only [hplace _ hp]
    cases hstore : op.isStore with
    | false => exact .inl ⟨_, rfl⟩
    | true => exact .inr ⟨_, rfl, .inl ⟨rfl, rfl, k, rfl⟩⟩
  | iocs =>
    left
    unfold State.access
    simp only [hplace _ hp]
    cases op.isStore <;> exact ⟨_, rfl⟩
  | data =>
    left
    unfold State.access
    simp only [hplace _ hp]
    cases op.isStore <;> exact ⟨_, rfl⟩
  | port =>
    rcases State.access_port_cases sl hp with ⟨hcollides, hstop⟩ | ⟨t, ht, -⟩
    · exact .inr ⟨_, hstop, .inr (.inr ⟨rfl, rfl, hcollides⟩)⟩
    · exact .inl ⟨t, ht⟩
  | undefined =>
    right
    unfold State.access
    simp only [hplace _ hp]
    exact ⟨_, rfl, .inr (.inl ⟨rfl, trivial⟩)⟩

/-- Settles O58: only an access can stop. -/
theorem onlyThreeStops : Obligations.OnlyThreeStops := by
  intro s
  cases hturn : s.turn with
  | event e => exact .inl ⟨_, step_of_event hturn⟩
  | node n =>
    cases hpending : (s.node n).pending with
    | none => exact .inl (goes_of_not_pending hturn hpending)
    | some op =>
      obtain ⟨sl, hstep⟩ := step_of_pending hturn hpending
      rcases (begins s n).access_stops op sl with ⟨t, ht⟩ | ⟨r, hr, hwhy⟩
      · exact .inl ⟨t, hstep.trans ht⟩
      · exact .inr ⟨n, op, r, rfl, hpending, hstep.trans hr, hwhy⟩

/-- Settles O52, by `State.access_collides`. -/
theorem multiportCollisionStops : Obligations.MultiportCollisionStops := by
  constructor
  · intro i op s d d' m m' hop hne hs hn ho hs' hn' ho'
    rw [exec_memory hop]
    exact State.access_collides _ ⟨d, d', m, m', hne, hs, hn, ho, hs', hn', ho'⟩
  · intro s n d d' m m' hturn hfetch hne a hs hn ho hs' hn' ho'
    rw [step_of_fetching hturn hfetch]
    exact State.access_collides (s := begins s n) (op := .instr) _ ⟨d, d', m, m', hne, hs, hn, ho, hs', hn', ho'⟩

/-! ### Two nodes that hang (R281) -/

/-- Both ends of a link read, or both write: both sleep in accesses of one kind that select it. -/
theorem hung_iff {s : State} {n m : Node} {d : Dir} (hl : neighbour n d = some m) :
    Hung s n m d ↔ ∃ op op', (s.node n).blocked = some op ∧ (s.node m).blocked = some op' ∧
      selects (op.addr (s.node n)) d = true ∧ selects (op'.addr (s.node m)) d = true ∧ op.isStore = op'.isStore := by
  have hl' : neighbour m d = some n := (neighbour_symm hl).1
  unfold Hung
  simp only [State.req_eq_reading hl, State.req_eq_reading hl', State.req_eq_writing hl, State.req_eq_writing hl']
  constructor
  · rintro (⟨⟨op, hb, hs, hr⟩, op', hb', hs', hr'⟩ | ⟨v, w, ⟨op, hb, hs, hw, -⟩, op', hb', hs', hw', -⟩)
    · exact ⟨op, op', hb, hb', hs, hs', hr.trans hr'.symm⟩
    · exact ⟨op, op', hb, hb', hs, hs', hw.trans hw'.symm⟩
  · rintro ⟨op, op', hb, hb', hs, hs', hkind⟩
    cases hw : op.isStore with
    | false => exact .inl ⟨⟨op, hb, hs, hw⟩, op', hb', hs', hkind ▸ hw⟩
    | true => exact .inr ⟨_, _, ⟨op, hb, hs, hw, rfl⟩, op', hb', hs', hkind ▸ hw, rfl⟩

/-- A node whose only selected port has a neighbour waits for no pin. -/
theorem not_waitsForPin_of_only {n m : Node} {a : Addr} {d : Dir} (hl : neighbour n d = some m)
    (honly : ∀ d', selects a d' = true → d' = d) : waitsForPin n a ≠ true := by
  intro hw
  obtain ⟨d', hs, hwakes⟩ := (waitsForPin_iff n a).1 hw
  rw [honly d' hs, wakesFrom_neighbour hl] at hwakes
  cases hwakes

/-- R281: nothing but a reset moves one end of a link while the other end wants the same of it. -/
theorem step_hung {s t : State} {n m : Node} {d : Dir} {op op' : MemOp} (hs : s.SleepsInItsAccess)
    (hl : neighbour n d = some m) (hbn : (s.node n).blocked = some op) (hbm : (s.node m).blocked = some op')
    (hsel : selects (op.addr (s.node n)) d = true) (hkind : op.isStore = op'.isStore)
    (honly : ∀ d', selects (op.addr (s.node n)) d' = true → d' = d) (hreset : s.turn ≠ .event .reset)
    (hstep : step s = .next t) : (s.node n).KeepsCore (t.node n) := by
  have hnowait := not_waitsForPin_of_only hl honly
  cases step_node hstep n with
  | access op1 sl turn pending runs =>
    obtain rfl : op = op1 := Option.some.inj ((hs n op hbn).symm.trans pending)
    rcases State.access_port_cases (s := s.onTurn n) sl (place_of_selects hsel hl) with
      ⟨-, hstop⟩ | ⟨t', ht', ⟨-, -, dev, -, rfl⟩ | ⟨hpin, -⟩ | ⟨m1, d1, other, hs1, hn1, ho1, -⟩⟩
    · rw [hstop] at runs
      cases runs
    · rw [ht'] at runs
      injection runs with runs
      rw [← runs, ← hbn]
      refine ⟨(s.node n).ext, dev, (s.node n).linkReady, _, (State.node_setCore_cur (s.onTurn n) _).trans rfl⟩
    · exact absurd ((pinSelected_iff _ _).1 (State.pinSelected_of_pinReady hpin)) hnowait
    · obtain rfl := honly d1 hs1
      obtain rfl : m = m1 := Option.some.inj (hl.symm.trans hn1)
      obtain ⟨o, hbo, -, hopposite⟩ := State.answers_spec ((offers_iff s m d1 _).1 ho1)
      obtain rfl : op' = o := Option.some.inj (hbm.symm.trans hbo)
      rw [hkind] at hopposite
      exact absurd hopposite (by cases op'.isStore <;> decide)
  | opcode i turn running notMemory runs =>
    rw [not_blocked_of_opcode hs running notMemory] at hbn
    cases hbn
  | reset turn result => exact absurd turn hreset
  | keeps turn result => exact result
  | wakes turn result =>
    obtain ⟨o, v, ext, dev, x, hbo, hw, -⟩ := result
    obtain rfl : op = o := Option.some.inj (hbn.symm.trans hbo)
    exact absurd hw hnowait
  | partner k op1 other v d1 turn pending blocked selected selectedBack link matching result =>
    obtain rfl : op = other := Option.some.inj (hbn.symm.trans blocked)
    obtain rfl := honly d1 selected
    obtain rfl : m = k := Option.some.inj (hl.symm.trans (neighbour_symm link).1)
    obtain rfl : op' = op1 := Option.some.inj ((hs m op' hbm).symm.trans pending)
    obtain ⟨o, hbo, -, hopposite⟩ := State.answers_spec matching
    obtain rfl : op = o := Option.some.inj (hbn.symm.trans hbo)
    rw [hkind] at hopposite
    exact absurd hopposite (by cases op'.isStore <;> decide)

/-- A node that keeps its core sleeps on no other port than before. -/
theorem onlyPort_of_keepsCore {s t : State} {n : Node} {d : Dir} (h : OnlyPort s n d)
    (hkeeps : (s.node n).KeepsCore (t.node n)) : OnlyPort t n d := by
  intro op hb d' hs
  rw [hkeeps.blocked] at hb
  rw [hkeeps.addr] at hs
  exact h op hb d' hs

/-- A node that sleeps at a port with a neighbour does not stop. -/
theorem goes_of_only {s : State} {n m : Node} {d : Dir} {op : MemOp} (hturn : s.turn = .node n)
    (hl : neighbour n d = some m) (hpending : (s.node n).pending = some op)
    (hsel : selects (op.addr (s.node n)) d = true)
    (honly : ∀ d', selects (op.addr (s.node n)) d' = true → d' = d) : s.Goes := by
  have hport : place n (op.addr (s.node n)) = .port := place_of_selects hsel hl
  rcases onlyThreeStops s with hgoes | ⟨n', op', r, hturn', hpending', -, hwhy⟩
  · exact hgoes
  obtain rfl : n = n' := Turn.node.inj (hturn.symm.trans hturn')
  obtain rfl : op = op' := Option.some.inj (hpending.symm.trans hpending')
  rcases hwhy with ⟨-, -, k, hrom⟩ | ⟨-, hundefined⟩ | ⟨-, -, d1, d2, -, -, hne, hs1, -, -, hs2, -⟩
  · rw [hport] at hrom
    cases hrom
  · rw [hport] at hundefined
    cases hundefined
  · exact absurd ((honly d1 hs1).trans (honly d2 hs2).symm) hne

/-- Settles O53, by `step_hung` at both ends. -/
theorem bothReadOrWriteHang : Obligations.BothReadOrWriteHang := by
  intro s n m d hs hl hhung hn hm
  have hl' : neighbour m d = some n := (neighbour_symm hl).1
  obtain ⟨op, op', hbn, hbm, hsn, hsm, hkind⟩ := (hung_iff hl).1 hhung
  refine ⟨?_, fun t hstep => ⟨fun hreset => ?_, fun hreset => ?_⟩⟩
  · rintro (hturn | hturn)
    · exact goes_of_only hturn hl (hs n op hbn) hsn (hn op hbn)
    · exact goes_of_only hturn hl' (hs m op' hbm) hsm (hm op' hbm)
  · have kn := step_hung hs hl hbn hbm hsn hkind (hn op hbn) hreset hstep
    have km := step_hung hs hl' hbm hbn hsm hkind.symm (hm op' hbm) hreset hstep
    refine ⟨(hung_iff hl).2 ⟨op, op', ?_, ?_, ?_, ?_, hkind⟩, onlyPort_of_keepsCore hn kn, onlyPort_of_keepsCore hm km⟩
    · rw [kn.blocked, hbn]
    · rw [km.blocked, hbm]
    · rw [kn.addr, hsn]
    · rw [km.addr, hsm]
  · rw [step_of_event hreset] at hstep
    injection hstep with hstep
    rw [hung_iff hl, ← hstep]
    rintro ⟨o, -, ho, -⟩
    rw [State.applyEvent, State.applyReset_blocked] at ho
    cases ho

end Sys2Proof.Machine

/-! # Ports: what an opcode's or a fetch's access does (R276 to R291, R325 to R328)

Proves `Obligations.PinWake`, `PortAccessSleeps`, `Rendezvous` and `FetchFromPort`, from the ends of a port access
(`State.access_sleeps`, `State.access_pinCompleted`, `State.access_answered`). -/

namespace Sys2Proof.Machine

open Sys2Proof.Statement

/-- Settles O48: nobody answers, so the pin or device decides. -/
theorem pinWake : Obligations.PinWake := by
  intro i op s hop hsel hno a
  have hport := place_of_waitsForPin ((pinSelected_iff _ _).1 hsel)
  rw [exec_memory hop]
  cases hpin : s.pinReady s.cur a with
  | true =>
    obtain ⟨t, ht, hdone⟩ := State.access_pinCompleted i.slot hno hpin
    refine ⟨t, ht, .inl hdone, fun _ => hdone, fun hidle => ?_⟩
    rw [State.pinReady_of_idle hidle] at hpin
    cases hpin
  | false =>
    obtain ⟨t, ht, hsleeps⟩ := State.access_sleeps i.slot hport hno hpin
    refine ⟨t, ht, .inr hsleeps, fun hready => ?_, fun _ => hsleeps⟩
    rw [State.pinReady_of_ready hsel hready] at hpin
    cases hpin

/-- No pin and no device is ready for an access that selects none, or an idle one. -/
theorem State.pinReady_of_idle_if_selected {s : State} {n : Node} {a : Addr} (h : PinSelected n a → PinIdle s n a) :
    s.pinReady n a = false := by
  by_cases hsel : PinSelected n a
  · exact State.pinReady_of_idle (h hsel)
  · exact State.pinReady_of_not_selected hsel

/-- R273: the request of a node asleep stands on its selected ports with a neighbour. -/
theorem req_of_sleepsIn {s t : State} {op : MemOp} (h : SleepsIn s op (op.addr s.core) t) (d : Dir) :
    t.req s.cur d = if selects (op.addr s.core) d && (neighbour s.cur d).isSome then
      (if op.isStore then .writing s.core.t else .reading) else .idle := by
  obtain ⟨dev, -, rfl⟩ := h
  have hnode : ∀ c, (s.setCore c).node s.cur = c := s.node_setCore_cur
  rw [State.req_blocked (op := op) (by rw [hnode])]
  simp only [hnode]
  have haddr : ∀ c : NodeState, c.a = s.core.a → c.b = s.core.b → c.p = s.core.p → op.addr c = op.addr s.core :=
    fun c => op.addr_congr
  rw [haddr _ rfl rfl rfl]
  rfl

/-- Settles O49. -/
theorem portAccessSleeps : Obligations.PortAccessSleeps := by
  intro i op s hop hport hidle hno
  obtain ⟨t, ht, hsleeps⟩ := State.access_sleeps i.slot hport hno (State.pinReady_of_idle_if_selected hidle)
  exact ⟨t, (exec_memory hop s).trans ht, hsleeps, req_of_sleepsIn hsleeps⟩

/-- R279: what a transfer leaves of each node. -/
theorem node_of_transferred {s t : State} {op other : MemOp} {sl : Slot} {a : Addr} {m : Node} (hm : m ≠ s.cur)
    (h : Transferred s op sl a m other t) :
    let word := if op.isStore then s.core.t else (s.node m).t
    (∃ dev, Latched s.cur s.core op a dev ∧
      t.node s.cur = { finished op sl word (touched s.core a) with dev := dev }) ∧
    t.node m = finished other (s.node m).slot word (s.node m) ∧
    ∀ k, k ≠ s.cur → k ≠ m → t.node k = s.node k := by
  obtain ⟨dev, hlatched, rfl⟩ := h
  refine ⟨⟨dev, hlatched, State.core_setCore _ _⟩, ?_, fun k hk hkm => ?_⟩
  · exact (State.node_setCore_ne (s.setNode m _) _ hm).trans (s.node_setNode_same m _)
  · exact (State.node_setCore_ne (s.setNode m _) _ hk).trans (s.node_setNode_ne _ hkm)

/-- R160: an access that completes leaves its core awake. -/
theorem finished_blocked (op : MemOp) (sl : Slot) (v : Word) (c : NodeState) :
    (finished op sl v c).blocked = none := by
  rw [← MemOp.finish_eq_finished, MemOp.finish_blocked]

/-- R288: after a transfer both nodes are awake. -/
theorem blocked_of_transferred {s t : State} {op other : MemOp} {sl : Slot} {a : Addr} {m : Node}
    (hm : m ≠ s.cur) (h : Transferred s op sl a m other t) :
    (t.node s.cur).blocked = none ∧ (t.node m).blocked = none := by
  obtain ⟨⟨dev, -, hcur⟩, hpartner, -⟩ := node_of_transferred hm h
  rw [hcur, hpartner]
  exact ⟨finished_blocked _ _ _ _, finished_blocked _ _ _ _⟩

/-- Settles O50. -/
theorem rendezvous : Obligations.Rendezvous := by
  intro i op other s m d hop hs hn ho hb hone a
  obtain ⟨t, ht, hend⟩ := State.access_answered i.slot hs hn ho hb hone
  refine ⟨t, (exec_memory hop s).trans ht, ?_, fun hidle => ?_⟩
  · exact hend.imp id fun ⟨hpin, hdone⟩ => ⟨State.pinSelected_of_pinReady hpin, hdone⟩
  · rcases hend with hdone | ⟨hpin, -⟩
    · obtain ⟨hcur, hpartner⟩ := blocked_of_transferred (neighbour_symm hn).2 hdone
      exact ⟨hdone, fun d' => ⟨State.req_awake hcur d', State.req_awake hpartner d'⟩⟩
    · rw [State.pinReady_of_idle_if_selected hidle] at hpin
      cases hpin

/-! ### The fetch from a port -/

/-- R71: in the I/O addresses a pointer stays. -/
theorem bump_of_bit8 {w : Nat} {p : BitVec w} (h : p.getLsbD 8 = true) : bump p = p := by
  rw [bump, if_pos h]

theorem bit8_extractLsb' {w : Nat} (p : BitVec w) : (p.extractLsb' 0 9).getLsbD 8 = p.getLsbD 8 := by
  simp

/-- R73, R75: a fetch that completes at an I/O address. -/
theorem finished_instr {c : NodeState} {a : Addr} (h : (c.p.extractLsb' 0 9).getLsbD 8 = true) (v : Word) :
    finished .instr .s0 v (touched c a) = fetched a v c := by
  rw [bit8_extractLsb'] at h
  have hp : bump (touched c a).p = (touched c a).p := bump_of_bit8 h
  simp only [finished, hp]
  rfl

/-- Asleep in a fetch nothing but the request and the detector differs. -/
theorem eq_of_sleepsIn_instr {s t : State} {a : Addr} (h : SleepsIn s .instr a t) :
    t = s.setCore { touched s.core a with blocked := some .instr } := by
  obtain ⟨dev, hlatched, rfl⟩ := h
  rw [Latched, if_neg fun h => absurd h.1 (by decide)] at hlatched
  rw [hlatched]
  rfl

/-- Settles O51: the fetch is an access, which reads. -/
theorem fetchFromPort : Obligations.FetchFromPort := by
  intro s n hturn hfetch a hport
  rw [step_of_fetching hturn hfetch]
  constructor
  · intro hno
    cases hpin : (begins s n).pinReady n a with
    | true =>
      obtain ⟨t, ht, hdone⟩ := State.access_pinCompleted (s := begins s n) (op := .instr) .s0 hno hpin
      have hsel := State.pinSelected_of_pinReady hpin
      refine ⟨t, ht, .inr ⟨hsel, hdone⟩, fun hidle => ?_, fun _ _ => hdone⟩
      cases hpin.symm.trans (State.pinReady_of_idle (s := begins s n) (hidle hsel))
    | false =>
      obtain ⟨t, ht, hsleeps⟩ := State.access_sleeps (s := begins s n) (op := .instr) .s0 hport hno hpin
      refine ⟨t, ht, .inl hsleeps, fun _ => eq_of_sleepsIn_instr hsleeps, fun hsel hready => ?_⟩
      cases hpin.symm.trans (State.pinReady_of_ready (s := begins s n) hsel hready)
  · intro m d other v hs hn hreq hb hone
    have hm : m ≠ n := (neighbour_symm hn).2
    obtain ⟨t, ht, hend⟩ := State.access_answered (s := begins s n) (op := .instr) .s0 hs hn ⟨v, hreq⟩ hb hone
    refine ⟨t, ht, hend.imp id fun ⟨hpin, hdone⟩ => ⟨State.pinSelected_of_pinReady hpin, hdone⟩, fun hidle => ?_⟩
    rcases hend with hdone | ⟨hpin, -⟩
    · obtain ⟨⟨dev, hlatched, hcur⟩, hpartner, hrest⟩ := node_of_transferred (s := begins s n) hm hdone
      have hv : (s.node m).t = v := by
        obtain ⟨-, -, -, -, hv⟩ := (State.req_eq_writing (neighbour_symm hn).1).1 hreq
        exact hv
      have hword : (if MemOp.instr.isStore then (begins s n).core.t else ((begins s n).node m).t) = v := hv
      rw [Latched, if_neg fun h => absurd h.1 (by decide)] at hlatched
      rw [hword] at hcur hpartner
      refine ⟨?_, hpartner, hrest⟩
      refine hcur.trans ?_
      rw [hlatched]
      exact finished_instr (c := s.node n) (bit8_of_selects hs) v
    · cases hpin.symm.trans (State.pinReady_of_idle_if_selected (s := begins s n) hidle)

end Sys2Proof.Machine

/-! # UP on the buses and the serdes (R325, R332, R333, R342, R343)

Proves `Obligations.BusUp` and `SerdesUp`. These nodes have no neighbour at their Up port (`noOffer_up`), so what there is
to say is when the device completes the access (`pinReady_bus`, `pinReady_serdes`) and what `CompletedByPin` and `SleepsIn`
come to on such a node. -/

namespace Sys2Proof.Machine

open Sys2Proof.Statement

/-! ### The address of UP -/

/-- $145 selects the Up port and no other (R272). -/
theorem selects_up {d : Dir} (h : selects 0x145#9 d = true) : d = .up := by
  revert h
  cases d <;> decide

theorem neighbour_up_bus (n : Node) : OnBus n → neighbour n .up = none := by revert n; decide
theorem neighbour_up_serdes (n : Node) : OnSerdes n → neighbour n .up = none := by revert n; decide

theorem pinSelected_up_bus (n : Node) : OnBus n → PinSelected n 0x145#9 := by
  rintro (rfl | rfl) <;> exact .inr (by decide)
theorem pinSelected_up_serdes (n : Node) : OnSerdes n → PinSelected n 0x145#9 := by
  rintro (rfl | rfl) <;> exact .inr (by decide)

/-- Where there is no Up neighbour nobody answers at $145. -/
theorem noOffer_up {n : Node} (h : neighbour n .up = none) (s : State) (store : Bool) :
    NoOffer s n 0x145#9 store := by
  intro d m hs hn
  rw [selects_up hs, h] at hn
  cases hn

/-! ### When the device is ready -/

/-- With a level at the wake input the pin or device is ready or idle. -/
theorem pinIdle_of_not_ready {s : State} {n : Node} {a : Addr} {w : Bool} (hw : wakeInput s n = some w)
    (h : ¬ PinReady s n a) : PinIdle s n a := by
  refine ⟨fun hl => h (.inl hl), ?_⟩
  by_cases hs : Sending s n
  · exact .inl hs
  · exact .inr ⟨w, hw, fun hholds => h (.inr ⟨hs, w, hw, hholds⟩)⟩

/-- R326, R334: on a bus the line from node 04 decides. -/
theorem pinReady_bus {s : State} {n : Node} {a : Addr} (h : OnBus n) :
    PinReady s n a ↔
      (if n = 3 then (s.node 4).iocsw.getLsbD 9 else (s.node 4).iocsw.getLsbD 7) ≠ (s.node n).iocsw.getLsbD 11 ∧
        (s.node n).disarmedBy ≠ some a := by
  have hserdes := not_onSerdes_of_onBus n h
  have hanalog := not_analog_of_onBus n h
  have hside : n ∉ ([10, 19, 20, 29] : List Node) := by rcases h with rfl | rfl <;> decide
  have hinput : wakeInput s n = some (if n = 3 then (s.node 4).iocsw.getLsbD 9 else (s.node 4).iocsw.getLsbD 7) := by
    rcases h with rfl | rfl <;> rfl
  constructor
  · rintro (hl | ⟨-, w, hw, hlevel, harmed⟩)
    · exact absurd hl.1 hserdes
    · rw [hinput] at hw
      rw [AtWakeLevel, if_neg hside, ← Option.some.inj hw] at hlevel
      exact ⟨hlevel, harmed.resolve_left hanalog⟩
  · rintro ⟨hlevel, harmed⟩
    exact .inr ⟨fun hs => hserdes hs.1, _, hinput, by rwa [AtWakeLevel, if_neg hside], .inr harmed⟩

/-! ### What the device leaves -/

/-- The word of an access that stores means nothing. -/
theorem finished_store {op : MemOp} (h : op.isStore = true) (sl : Slot) (v w : Word) (c : NodeState) :
    finished op sl v c = finished op sl w c := by
  cases op <;> first | rfl | cases h

/-- Where an access that completes sets the detector, what the use of the bus did to it does not show. -/
theorem finished_touched (op : MemOp) (sl : Slot) (v : Word) (c : NodeState) (a : Addr) (dev : Word) (link : Bool)
    (x : Option Addr) :
    { finished op sl v (touched c a) with dev := dev, linkReady := link, disarmedBy := x } =
      { finished op sl v c with dev := dev, linkReady := link, disarmedBy := x } := by
  rw [← MemOp.finish_eq_finished, ← MemOp.finish_eq_finished, ← MemOp.finish_io, ← MemOp.finish_io]
  rfl

/-- R402: a node with a detector that its pin or device completed. -/
theorem eq_of_completedByPin {n : Node} {c : NodeState} {op : MemOp} {sl : Slot} {a : Addr} {e : NodeState}
    (hanalog : ¬ Analog n) (h : CompletedByPin n (touched c a) op sl a e) :
    ∃ v dev, e = { finished op sl v c with dev := dev, linkReady := false, disarmedBy := some a } ∧
      (OnSerdes n → v = c.dev ∧ dev = if op.isStore then c.t else c.dev) ∧
      (OnBus n → op.isStore = true → Latched n c op a dev) ∧
      (OnBus n → op.isStore = false → dev = v ∧ (c.iocsw.getLsbD 12 = true → v = c.dev) ∧
        ∀ pins, c.iocsw.getLsbD 12 = false → c.ext.bus = some pins → v = pins) := by
  obtain ⟨v, dev, rfl, -, hserdes, hstore, hread⟩ := h
  refine ⟨v, dev, ?_, hserdes, hstore, hread⟩
  rw [if_neg hanalog, finished_touched]

/-- R333, D35: what a bus puts on its pins. -/
theorem State.busOutputLevels_eq (s : State) (n : Node) : s.busOutputLevels n =
    if OnBus n ∧ (s.node n).iocsw.getLsbD 12 = true then some (s.node n).dev else none := by
  have hplain : (s.node n).dev ^^^ Config.busPinXor = (s.node n).dev := BitVec.xor_zero
  rw [State.busOutputLevels, hplain, NodeState.busOutput]
  simp only [deviceOf_bus]

theorem State.busOutputLevels_setCore {s : State} {c : NodeState} (hbus : OnBus s.cur)
    (hout : c.iocsw.getLsbD 12 = true) : (s.setCore c).busOutputLevels s.cur = some c.dev := by
  rw [State.busOutputLevels_eq, State.node_setCore_cur, if_pos ⟨hbus, hout⟩]

theorem finished_iocsw (op : MemOp) (sl : Slot) (v : Word) (c : NodeState) : (finished op sl v c).iocsw = c.iocsw := by
  rw [← MemOp.finish_eq_finished, MemOp.finish_iocsw]

/-- An access to UP where there is no neighbour: its pin or device completes it, or it sleeps. -/
theorem access_up {s : State} {op : MemOp} (sl : Slot) (hnone : neighbour s.cur .up = none)
    (hsel : PinSelected s.cur 0x145#9) (haddr : op.addr s.core = 0x145#9) :
    (PinReady s s.cur 0x145#9 → ∃ t, s.access op sl = .next t ∧ PinCompleted s op sl 0x145#9 t) ∧
    (PinIdle s s.cur 0x145#9 → ∃ t, s.access op sl = .next t ∧ SleepsIn s op 0x145#9 t) := by
  have hno : NoOffer s s.cur (op.addr s.core) op.isStore := haddr ▸ noOffer_up hnone s _
  refine ⟨fun hready => ?_, fun hidle => ?_⟩
  · have hpin := State.pinReady_of_ready hsel hready
    rw [← haddr] at hpin ⊢
    exact State.access_pinCompleted sl hno hpin
  · have hpin := State.pinReady_of_idle hidle
    have hport := place_of_waitsForPin ((pinSelected_iff _ _).1 hsel)
    rw [← haddr] at hpin hport ⊢
    exact State.access_sleeps sl hport hno hpin

/-- The latch of a store that begins at UP, and of every other access there (R332). -/
theorem latched_up_begins {n : Node} {c : NodeState} {op : MemOp} {dev : Word} (hstore : op.isStore = true)
    (hbus : OnBus n) (hb : c.blocked ≠ some op) (h : Latched n c op 0x145#9 dev) (hout : c.iocsw.getLsbD 12 = true) :
    dev = c.t := by
  rw [Latched, if_pos ⟨hstore, hbus, by decide, hb⟩] at h
  exact h hout

theorem latched_goes_on {n : Node} {c : NodeState} {op : MemOp} {a : Addr} {dev : Word}
    (hb : op.isStore = true → OnBus n → c.blocked = some op) (h : Latched n c op a dev) : dev = c.dev := by
  rwa [Latched, if_neg fun h => h.2.2.2 (hb h.1 h.2.1)] at h

/-- Settles O46. -/
theorem busUp : Obligations.BusUp := by
  intro i op s hop hbus haddr line wakes awake asleep
  have hready : PinReady s s.cur 0x145#9 ↔ wakes := pinReady_bus hbus
  have hinput : ∃ w, wakeInput s s.cur = some w := by rcases hbus with h | h <;> rw [h] <;> exact ⟨_, rfl⟩
  obtain ⟨w, hinput⟩ := hinput
  obtain ⟨hcompletes, hsleeps⟩ := access_up i.slot (neighbour_up_bus _ hbus) (pinSelected_up_bus _ hbus) haddr
  rw [exec_memory hop]
  have woken (h : wakes) : ∃ v dev, s.access op i.slot = .next (s.setCore (awake v dev)) ∧
      (op.isStore = true → Latched s.cur s.core op 0x145#9 dev) ∧
      (op.isStore = false → dev = v ∧ (s.core.iocsw.getLsbD 12 = true → v = s.core.dev) ∧
        ∀ pins, s.core.iocsw.getLsbD 12 = false → s.core.ext.bus = some pins → v = pins) := by
    obtain ⟨t, ht, e, rfl, he⟩ := hcompletes (hready.2 h)
    obtain ⟨v, dev, rfl, -, hstore, hread⟩ := eq_of_completedByPin (not_analog_of_onBus _ hbus) he
    exact ⟨v, dev, ht, hstore hbus, hread hbus⟩
  have slept (h : ¬ wakes) : ∃ dev, Latched s.cur s.core op 0x145#9 dev ∧
      s.access op i.slot = .next (s.setCore (asleep dev)) := by
    obtain ⟨t, ht, dev, hlatched, rfl⟩ := hsleeps (pinIdle_of_not_ready hinput fun hr => h (hready.1 hr))
    exact ⟨dev, hlatched, ht⟩
  refine ⟨fun hstore hbegins => ?_, fun hstore hgoesOn => ⟨fun h => ?_, fun h => ?_⟩, fun hread => ⟨fun h => ?_, fun h => ?_⟩⟩
  · by_cases h : wakes
    · obtain ⟨v, dev, ht, hlatched, -⟩ := woken h
      refine ⟨_, dev, ht, fun _ => ?_, fun hno => absurd h hno, fun hout => ?_⟩
      · simp only [awake, finished_store hstore i.slot v 0#18]
      · have hdev := latched_up_begins hstore hbus hbegins (hlatched hstore) hout
        refine ⟨hdev, ?_⟩
        have hlatch : (awake v dev).iocsw.getLsbD 12 = true := (finished_iocsw op i.slot v s.core).symm ▸ hout
        exact (State.busOutputLevels_setCore hbus hlatch).trans (congrArg some hdev)
    · obtain ⟨dev, hlatched, ht⟩ := slept h
      refine ⟨_, dev, ht, fun hyes => absurd hyes h, fun _ => rfl, fun hout => ?_⟩
      have hdev := latched_up_begins hstore hbus hbegins hlatched hout
      refine ⟨hdev, ?_⟩
      exact (State.busOutputLevels_setCore (c := asleep dev) hbus hout).trans (congrArg some hdev)
  · obtain ⟨v, dev, ht, hlatched, -⟩ := woken h
    rw [ht, latched_goes_on (fun _ _ => hgoesOn) (hlatched hstore)]
    simp only [awake, finished_store hstore i.slot v 0#18]
  · obtain ⟨dev, hlatched, ht⟩ := slept h
    rw [ht, latched_goes_on (fun _ _ => hgoesOn) hlatched]
  · obtain ⟨v, dev, ht, -, hdone⟩ := woken h
    obtain ⟨rfl, hout, hpins⟩ := hdone hread
    exact ⟨dev, ht, hout, hpins⟩
  · obtain ⟨dev, hlatched, ht⟩ := slept h
    rw [ht, latched_goes_on (fun hstore => absurd (hread.symm.trans hstore) (by decide)) hlatched]

/-- R342, R343: a ready link completes, a serdes that sends with none does not, and else pin 17 decides. -/
theorem pinReady_serdes {s : State} {n : Node} {a : Addr} (h : OnSerdes n) (hl : (s.node n).linkReady = false)
    (hs : (s.node n).iocsw.getLsbD 17 = false) {level : Bool} (hlevel : s.pinLevel n .p17 = some level) :
    wakeInput s n = some level ∧
      (PinReady s n a ↔ level ≠ (s.node n).iocsw.getLsbD 11 ∧ (s.node n).disarmedBy ≠ some a) := by
  have hanalog := not_analog_of_onSerdes n h
  have hside : n ∉ ([10, 19, 20, 29] : List Node) := by rcases h with rfl | rfl <;> decide
  have hinput : wakeInput s n = some level := by rw [← hlevel]; rcases h with rfl | rfl <;> rfl
  refine ⟨hinput, ?_, ?_⟩
  · rintro (hl' | ⟨-, w, hw, hat, harmed⟩)
    · rw [hl'.2] at hl
      cases hl
    · rw [hinput] at hw
      rw [AtWakeLevel, if_neg hside, ← Option.some.inj hw] at hat
      exact ⟨hat, harmed.resolve_left hanalog⟩
  · rintro ⟨hat, harmed⟩
    refine .inr ⟨fun hs' => ?_, level, hinput, by rwa [AtWakeLevel, if_neg hside], .inr harmed⟩
    cases hs.symm.trans hs'.2

/-- Settles O47. -/
theorem serdesUp : Obligations.SerdesUp := by
  intro i op s hop hserdes haddr completed asleep
  obtain ⟨hcompletes, hsleeps⟩ :=
    access_up i.slot (neighbour_up_serdes _ hserdes) (pinSelected_up_serdes _ hserdes) haddr
  rw [exec_memory hop]
  have woken (h : PinReady s s.cur 0x145#9) : s.access op i.slot = .next completed := by
    obtain ⟨t, ht, e, rfl, he⟩ := hcompletes h
    obtain ⟨v, dev, rfl, hdone, -⟩ := eq_of_completedByPin (not_analog_of_onSerdes _ hserdes) he
    obtain ⟨rfl, rfl⟩ := hdone hserdes
    exact ht
  have slept (h : PinIdle s s.cur 0x145#9) : s.access op i.slot = .next asleep := by
    obtain ⟨t, ht, dev, hlatched, rfl⟩ := hsleeps h
    obtain rfl := latched_goes_on (fun _ hbus => absurd hserdes (not_onSerdes_of_onBus _ hbus)) hlatched
    exact ht
  refine ⟨fun hl => woken (.inl ⟨hserdes, hl⟩), fun hl hsend => ?_, ?_⟩
  · exact slept ⟨fun hl' => absurd (hl.symm.trans hl'.2) (by decide), .inl ⟨hserdes, hsend⟩⟩
  · intro hl hrecv level hlevel wakes
    obtain ⟨hinput, hiff⟩ := pinReady_serdes (a := 0x145#9) hserdes hl hrecv hlevel
    exact ⟨fun h => woken (hiff.2 h), fun h => slept (pinIdle_of_not_ready hinput fun hr => h (hiff.1 hr))⟩

end Sys2Proof.Machine

/-! # The handshakes stay sound (R276, R279, R289)

Proves `Obligations.StepKeepsHandshakesSound`. Its three parts have one key each: a node that is asleep after a step
slept before it and kept its core, or has just found nobody that answers (`asleep_after`), which gives the first two; and
whatever moves what a sleeper's pin or device depends on looks at the sleeper at once (`State.sleeperIdle_wake`), while
everything else leaves it alone (`State.SleeperIdle.congr`). -/

namespace Sys2Proof.Machine

open Sys2Proof.Statement

/-! ### A node asleep after a step -/

/-- A node's requests stay where its core does. -/
theorem req_of_keepsCore {s t : State} {n : Node} (h : (s.node n).KeepsCore (t.node n)) (d : Dir) :
    t.req n d = s.req n d := by
  obtain ⟨ext, dev, link, x, he⟩ := h
  exact State.req_congr (by rw [he]) (by rw [he]) (by rw [he]) (by rw [he]) (by rw [he]) d

/-- Who sleeps after a step slept before it, or has just begun to, as nobody answers. -/
theorem asleep_after {s t : State} {n : Node} {op : MemOp} (hs : s.SleepsInItsAccess) (hstep : step s = .next t)
    (hb : (t.node n).blocked = some op) :
    (s.node n).KeepsCore (t.node n) ∨
      (s.turn = .node n ∧ (s.node n).pending = some op ∧ NoOffer s n (op.addr (s.node n)) op.isStore ∧
        ∃ x dev, t.node n = { s.node n with disarmedBy := x, dev := dev, blocked := some op }) := by
  have hawake : (t.node n).blocked ≠ none := by rw [hb]; exact Option.some_ne_none op
  cases step_node hstep n with
  | access op' sl turn pending runs =>
    rcases access_own runs with hnone | ⟨-, hno, x, dev, he⟩
    · exact absurd hnone hawake
    · obtain rfl : op' = op := Option.some.inj (by rw [← hb, he])
      refine .inr ⟨turn, pending, fun d m hsel hl ho => ?_, x, dev, he⟩
      rw [offers_iff, hno d m hsel hl] at ho
      cases ho
  | opcode i turn running notMemory runs =>
    have hsame := (exec_core_keeps notMemory runs).2.2.2.2.2.2.2
    rw [core_of_exec notMemory runs, State.onTurn_core, not_blocked_of_opcode hs running notMemory] at hsame
    exact absurd hsame hawake
  | reset turn result => exact absurd (by rw [result, State.applyReset_blocked]) hawake
  | keeps turn result => exact .inl result
  | wakes turn result => exact absurd result.blocked hawake
  | partner k op' other v d turn pending blocked selected selectedBack link matching result =>
    exact absurd (by rw [result, MemOp.finish_blocked]) hawake

theorem step_keeps_sleepsInItsAccess {s t : State} (hs : s.SleepsInItsAccess) (hstep : step s = .next t) :
    t.SleepsInItsAccess := by
  intro n op hb
  rcases asleep_after hs hstep hb with hkeeps | ⟨-, hpending, -, x, dev, he⟩
  · rw [hkeeps.pending]
    exact hs n op (hkeeps.blocked.symm.trans hb)
  · rw [he]
    exact hpending

/-- R279: a reader and a writer do not come to wait for each other, as the later of the two meets the other. -/
theorem step_keeps_noPairWaits {s t : State} (hs : s.SleepsInItsAccess) (hpairs : s.NoPairWaits)
    (hstep : step s = .next t) : t.NoPairWaits := by
  intro n d m v hl hread hwrite
  have hl' : neighbour m d = some n := (neighbour_symm hl).1
  obtain ⟨op, hbn, hsn, hrn⟩ := (State.req_eq_reading hl).1 hread
  obtain ⟨op', hbm, hsm, hwm, -⟩ := (State.req_eq_writing hl').1 hwrite
  rcases asleep_after hs hstep hbn with hkn | ⟨turn, -, hno, x, dev, he⟩
  · have hread' : s.req n d = .reading := (req_of_keepsCore hkn d).symm.trans hread
    rcases asleep_after hs hstep hbm with hkm | ⟨-, -, hno, x, dev, he⟩
    · exact hpairs n d m v hl hread' ((req_of_keepsCore hkm d).symm.trans hwrite)
    · rw [he] at hsm
      refine hno d n ((op'.addr_congr rfl rfl rfl).symm ▸ hsm) hl' ?_
      rw [hwm]
      exact hread'
  · rcases asleep_after hs hstep hbm with hkm | ⟨turn', -⟩
    · rw [he] at hsn
      refine hno d m ((op.addr_congr rfl rfl rfl).symm ▸ hsn) hl ?_
      rw [hrn]
      exact ⟨v, (req_of_keepsCore hkm d).symm.trans hwrite⟩
    · exact absurd (Turn.node.inj (turn'.symm.trans turn)) (neighbour_symm hl).2

/-! ### A sleeper and its pin or device -/

/-- Node n does not sleep on a pin or a device that is ready (R289). -/
def State.SleeperIdle (s : State) (n : Node) : Prop :=
  ∀ op, (s.node n).blocked = some op → waitsForPin n (op.addr (s.node n)) = true →
    s.wakeState n (op.addr (s.node n)) ≠ some true

theorem State.sleeperIdle_of_awake {s : State} {n : Node} (h : (s.node n).blocked = none) : s.SleeperIdle n := by
  intro op hb
  rw [h] at hb
  cases hb

/-- What is not ready is not known to be. -/
theorem State.wakeState_of_not_pinReady {s : State} {n : Node} {a : Addr} (hw : waitsForPin n a = true)
    (h : s.pinReady n a = false) : s.wakeState n a ≠ some true := by
  intro hready
  rw [State.pinReady_of_ready ((pinSelected_iff n a).2 hw) ((s.wakeState_eq_true n a).1 hready)] at h
  cases h

/-- A node that has been looked at is awake or not ready. -/
theorem State.sleeperIdle_wake (s : State) (n : Node) : (s.wake n).SleeperIdle n := fun _ hb hw =>
  State.wakeState_of_not_pinReady hw (State.not_pinReady_wake hb)

/-- What a sleeper's readiness depends on. -/
theorem State.SleeperIdle.congr {s t : State} {n : Node} (h : s.SleeperIdle n)
    (hn : ∃ bus dev, t.node n = { s.node n with ext := { (s.node n).ext with bus := bus }, dev := dev })
    (h4 : OnBus n → (t.node 4).iocsw = (s.node 4).iocsw) : t.SleeperIdle n := by
  obtain ⟨bus, dev, hn⟩ := hn
  intro op hb hw
  have haddr : op.addr (t.node n) = op.addr (s.node n) := op.addr_congr (by rw [hn]) (by rw [hn]) (by rw [hn])
  rw [hn] at hb
  rw [haddr] at hw ⊢
  rw [State.wakeState_congr (s := s) (by rw [hn]) (by rw [hn]) (by rw [hn]) (by rw [hn]) h4]
  exact h op hb hw

theorem State.SleeperIdle.of_same {s t : State} {n : Node} (h : s.SleeperIdle n) (hn : t.node n = s.node n)
    (h4 : OnBus n → (t.node 4).iocsw = (s.node 4).iocsw) : t.SleeperIdle n :=
  h.congr ⟨_, _, hn⟩ h4

/-! ### A write of IOCS, node by node -/

theorem State.rearm_other (s : State) {n m : Node} (hm : m ≠ n) : (s.rearm n).node m = s.node m := by
  rcases s.rearm_cases n with h | h <;> rw [h]
  exact State.node_setNode_ne s _ hm

theorem State.wakeInputMoved_other (s : State) {n m : Node} (hm : m ≠ n) :
    (s.wakeInputMoved n).node m = s.node m := by
  obtain ⟨e, h, -⟩ := s.wakeInputMoved_cases n
  rw [h]
  exact State.node_setNode_ne s _ hm

/-- The latch of a write of IOCS, and the detector that follows it. -/
def State.latched (s : State) (n : Node) (v : Word) : State := (s.latchIocs n v).rearm n

theorem State.latched_other (s : State) {n m : Node} (v : Word) (hm : m ≠ n) :
    (s.latched n v).node m = s.node m := by
  rw [State.latched, State.rearm_other _ hm]
  exact State.node_setNode_ne s _ hm

theorem State.writeIocs_of_ne {n : Node} (h : n ≠ 4) (s : State) (v : Word) : s.writeIocs n v = s.latched n v := by
  rw [State.writeIocs, if_neg h]
  rfl

theorem State.writeIocs_four (s : State) (v : Word) :
    s.writeIocs 4 v = ((s.latched 4 v).wakeInputMoved 3).wakeInputMoved 5 := by
  rw [State.writeIocs, if_pos rfl]
  rfl

/-- A write of IOCS touches its own node, and node 04's the two buses. -/
theorem State.writeIocs_self (s : State) (n : Node) (v : Word) : (s.writeIocs n v).node n = (s.latched n v).node n := by
  by_cases h : n = 4
  · subst h
    rw [State.writeIocs_four, State.wakeInputMoved_other _ (by decide), State.wakeInputMoved_other _ (by decide)]
  · rw [State.writeIocs_of_ne h]

theorem State.writeIocs_other (s : State) {n m : Node} (v : Word) (hm : m ≠ n) (h : n ≠ 4 ∨ ¬ OnBus m) :
    (s.writeIocs n v).node m = s.node m := by
  by_cases h4 : n = 4
  · subst h4
    have hbus : ¬ OnBus m := h.resolve_left fun h => h rfl
    rw [State.writeIocs_four, State.wakeInputMoved_other _ fun e => hbus (.inr e),
      State.wakeInputMoved_other _ fun e => hbus (.inl e), State.latched_other s v hm]
  · rw [State.writeIocs_of_ne h4, State.latched_other s v hm]

/-- R325, R334: after a write of IOCS by node 04 neither bus sleeps on a ready line. -/
theorem State.sleeperIdle_writeIocs_four (s : State) (v : Word) {n : Node} (h : OnBus n) :
    (s.writeIocs 4 v).SleeperIdle n := by
  rw [State.writeIocs_four]
  rcases h with rfl | rfl
  · have hlooked : ((s.latched 4 v).wakeInputMoved 3).SleeperIdle 3 := State.sleeperIdle_wake _ 3
    refine hlooked.of_same ?_ fun _ => ?_
    · exact State.wakeInputMoved_other _ (by decide)
    · rw [State.wakeInputMoved_other _ (by decide)]
  · exact State.sleeperIdle_wake _ _

/-! ### A sleeper beside the running node -/

theorem NodeState.WokenTo.iocsw {n : Node} {c e : NodeState} (h : c.WokenTo n e) : e.iocsw = c.iocsw := by
  obtain ⟨op, v, ext, dev, x, -, -, rfl, -⟩ := h
  exact MemOp.finish_iocsw _ _ _ _

/-- An access other than a write of IOCS leaves every IOCS latch. -/
theorem State.access_iocsw {s t : State} {op : MemOp} {sl : Slot} (h : s.access op sl = .next t)
    (hiocs : ¬ (op.isStore = true ∧ op.addr s.core = 0x15D#9)) (m : Node) : (t.node m).iocsw = (s.node m).iocsw := by
  by_cases hm : m = s.cur
  · have hcore : t.node m = t.core := by rw [hm, ← (State.access_rest h).1]; rfl
    rw [hcore, hm]
    rcases State.access_self h with ⟨-, -, x, dev, he, -⟩ | ⟨v, ram, iocsw, dev, link, x, he, -, hlatch, -⟩
    · rw [he]; rfl
    · rw [he, MemOp.finish_iocsw]
      by_contra hne
      exact hiocs (hlatch hne)
  · rcases State.access_other h hm with ⟨x, he, -⟩ | ⟨other, v, d, -, -, -, -, -, he⟩ | hw
    · rw [he]
    · rw [he, MemOp.finish_iocsw]
    · exact hw.iocsw

/-- A node at IOCS (R310). -/
theorem State.access_iocs_store {s : State} {op : MemOp} (sl : Slot) (hstore : op.isStore = true)
    (haddr : op.addr s.core = 0x15D#9) :
    s.access op sl = .next (((s.setCore (s.core.touchBus 0x15D#9)).writeIocs s.cur s.core.t).complete op sl 0#18) := by
  unfold State.access
  simp only [haddr, State.cur_setCore, place_iocs, hstore, State.core_setCore, NodeState.touchBus_t]
  rfl

/-- Another node's access leaves a sleeper as it was, or wakes it, or has just looked at it. -/
theorem State.sleeperIdle_access {s t : State} {op : MemOp} {sl : Slot} (h : s.access op sl = .next t) {n : Node}
    (hn : n ≠ s.cur) (hs : s.SleeperIdle n) : t.SleeperIdle n := by
  by_cases hiocs : op.isStore = true ∧ op.addr s.core = 0x15D#9
  · obtain ⟨hstore, haddr⟩ := hiocs
    rw [State.access_iocs_store sl hstore haddr] at h
    injection h with h
    generalize hu : s.setCore (s.core.touchBus 0x15D#9) = u at h
    have hcur : (u.writeIocs s.cur s.core.t).cur = s.cur := by
      rw [(State.writeIocs_spec u s.cur s.core.t).1, ← hu, State.cur_setCore]
    have hlatch : (t.node 4).iocsw = ((u.writeIocs s.cur s.core.t).node 4).iocsw := by
      rw [← h, State.node_complete]
      split
      · next h4 => rw [MemOp.finish_iocsw, h4, State.node_cur]
      · rfl
    have hnode : t.node n = (u.writeIocs s.cur s.core.t).node n := by
      rw [← h, State.node_complete, if_neg (by rw [hcur]; exact hn)]
    by_cases hbus : s.cur = 4 ∧ OnBus n
    · rw [hbus.1] at hnode hlatch
      exact (State.sleeperIdle_writeIocs_four u s.core.t hbus.2).of_same hnode fun _ => hlatch
    · have hbus : s.cur ≠ 4 ∨ ¬ OnBus n := by rwa [not_and_or] at hbus
      refine hs.of_same ?_ fun hb => ?_
      · rw [hnode, State.writeIocs_other u _ hn hbus, ← hu, State.node_setCore_ne s _ hn]
      · have h4 : 4 ≠ s.cur := fun e => hbus.elim (fun hne => hne e.symm) fun hno => hno hb
        rw [hlatch, State.writeIocs_other u _ h4 (.inl h4.symm), ← hu, State.node_setCore_ne s _ h4]
  · have h4 : OnBus n → (t.node 4).iocsw = (s.node 4).iocsw := fun _ => State.access_iocsw h hiocs 4
    rcases State.access_other h hn with ⟨x, he, hx⟩ | ⟨other, v, d, -, -, -, -, -, he⟩ | hw
    · have hx : x = (s.node n).disarmedBy := by
        by_contra hne
        exact hiocs (hx hne)
      exact hs.of_same (by rw [he, hx]) h4
    · exact State.sleeperIdle_of_awake (by rw [he, MemOp.finish_blocked])
    · exact State.sleeperIdle_of_awake hw.blocked

/-- No event moves an IOCS latch but a reset. -/
theorem State.applyEvent_iocsw (s : State) {e : Event} (h : e ≠ .reset) (m : Node) :
    ((s.applyEvent e).node m).iocsw = (s.node m).iocsw := by
  rcases s.applyEvent_node h m with ⟨ext, dev, link, x, he⟩ | hw
  · rw [he]
  · exact hw.iocsw

/-- An event leaves a sleeper as it was, or looks at it. -/
theorem State.sleeperIdle_applyEvent {s : State} {n : Node} (hs : s.SleeperIdle n) {e : Event} (h : e ≠ .reset) :
    (s.applyEvent e).SleeperIdle n := by
  have h4 : OnBus n → ((s.applyEvent e).node 4).iocsw = (s.node 4).iocsw := fun _ => s.applyEvent_iocsw h 4
  have hother (m : Node) (hm : eventNode e = some m) (hne : n ≠ m) : (s.applyEvent e).SleeperIdle n :=
    hs.of_same (s.applyEvent_other hm hne) h4
  cases e with
  | reset => exact absurd rfl h
  | pin m q level =>
    by_cases hn : n = m
    · subst hn
      simp only [State.applyEvent, State.applyPin]
      split
      · exact State.sleeperIdle_wake _ n
      · exact hs
    · exact hother m rfl hn
  | busPins m levels =>
    by_cases hn : n = m
    · subst hn
      refine hs.congr ?_ h4
      simp only [State.applyEvent, State.applyBusPins]
      split
      · rw [State.setNode_setNode, State.node_setNode_same, State.node_setNode_same]
        exact ⟨_, _, rfl⟩
      · exact ⟨_, _, rfl⟩
    · exact hother m rfl hn
  | vco m counts =>
    by_cases hn : n = m
    · subst hn
      refine hs.congr ?_ h4
      simp only [State.applyEvent, State.applyVco]
      split
      · rw [State.node_setNode_same]
        exact ⟨_, _, rfl⟩
      · exact ⟨_, _, rfl⟩
    · exact hother m rfl hn
  | serdesClock m bit =>
    by_cases hn : n = m
    · subst hn
      refine hs.congr ?_ h4
      simp only [State.applyEvent, State.applySerdesClock]
      split
      · rw [State.node_setNode_same]
        exact ⟨_, _, rfl⟩
      · exact ⟨_, _, rfl⟩
    · exact hother m rfl hn
  | serdesWord m w =>
    by_cases hn : n = m
    · subst hn
      simp only [State.applyEvent, State.applySerdesWord]
      split
      · exact State.sleeperIdle_wake _ n
      · exact hs
    · exact hother m rfl hn
  | serdesSent m =>
    by_cases hn : n = m
    · subst hn
      simp only [State.applyEvent, State.applySerdesSent]
      split
      · exact State.sleeperIdle_wake _ n
      · exact hs
    · exact hother m rfl hn

/-- The core of a chip after an access is its running node. -/
theorem State.core_eq_node_of_access {s t : State} {op : MemOp} {sl : Slot} (h : s.access op sl = .next t) :
    t.core = t.node s.cur := by
  rw [← (State.access_rest h).1]
  rfl

theorem State.sleeperIdle_of_sleepsIn {s t : State} {op : MemOp} (h : SleepsIn s op (op.addr s.core) t)
    (hpin : s.pinReady s.cur (op.addr s.core) = false) : t.SleeperIdle s.cur := by
  obtain ⟨dev, -, ht⟩ := h
  have hnode : t.node s.cur = { touched s.core (op.addr s.core) with blocked := some op, dev := dev } := by
    rw [ht, State.node_setCore_cur]
  have hlatch : (t.node 4).iocsw = (s.node 4).iocsw := by
    rw [ht, State.node_setCore]
    split
    · next h4 => rw [h4]; rfl
    · rfl
  intro o hb hw
  obtain rfl : op = o := Option.some.inj (by rw [← hb, hnode])
  have haddr : op.addr (t.node s.cur) = op.addr s.core :=
    op.addr_congr (by rw [hnode]; rfl) (by rw [hnode]; rfl) (by rw [hnode]; rfl)
  rw [haddr] at hw ⊢
  rw [State.wakeState_congr (s := s) (by rw [hnode]; rfl) (by rw [hnode]; rfl) (by rw [hnode]; rfl)
    (by rw [hnode]; exact touched_disarmedBy _ _) fun _ => hlatch]
  exact State.wakeState_of_not_pinReady hw hpin

/-- A node that has just gone to sleep found no pin and no device ready. -/
theorem State.sleeperIdle_own {s t : State} {op : MemOp} {sl : Slot} (h : s.access op sl = .next t) :
    t.SleeperIdle s.cur := by
  rcases State.access_self h with ⟨hport, -⟩ | ⟨v, ram, iocsw, dev, link, x, he, -⟩
  · rcases State.access_port_cases sl hport with ⟨-, hstop⟩ | ⟨t', ht', hend⟩
    · rw [hstop] at h
      cases h
    obtain rfl : t' = t := by rw [ht'] at h; injection h
    rcases hend with ⟨-, hpin, hsleeps⟩ | ⟨-, e, rfl, v, dev, rfl, -⟩ | ⟨m, d, other, -, hl, -, -, hdone⟩
    · exact State.sleeperIdle_of_sleepsIn hsleeps hpin
    · exact State.sleeperIdle_of_awake (by rw [State.node_setCore_cur]; exact finished_blocked _ _ _ _)
    · exact State.sleeperIdle_of_awake (blocked_of_transferred (neighbour_symm hl).2 hdone).1
  · exact State.sleeperIdle_of_awake (by rw [← State.core_eq_node_of_access h, he, MemOp.finish_blocked])

/-- R289, R325: every step leaves every sleeper without a ready pin or device. -/
theorem step_keeps_noReadySleeper {s t : State} (hs : s.SleepsInItsAccess) (hidle : s.NoReadySleeper)
    (hstep : step s = .next t) : t.NoReadySleeper := by
  intro n
  have hidle : s.SleeperIdle n := hidle n
  rcases step_cases hstep with ⟨k, op, hturn, hpending, sl, hrun⟩ | ⟨k, i, hturn, hfetch, hi, hmem, hrun⟩ | ⟨e, hturn, rfl⟩
  · by_cases hk : n = k
    · subst hk
      exact State.sleeperIdle_own hrun
    · exact State.sleeperIdle_access hrun hk hidle
  · have hiocs : ∀ m, (t.node m).iocsw = (s.node m).iocsw := by
      intro m
      by_cases hm : m = k
      · subst hm
        rw [← core_of_exec hmem hrun, (exec_core_keeps hmem hrun).2.1]
        rfl
      · rw [exec_core_other hmem hrun hm]
        rfl
    by_cases hk : n = k
    · subst hk
      have hblocked := (exec_core_keeps hmem hrun).2.2.2.2.2.2.2
      rw [core_of_exec hmem hrun, State.onTurn_core,
        not_blocked_of_opcode hs (by rw [opcodeOf_of_not_fetching hfetch, hi]) hmem] at hblocked
      exact State.sleeperIdle_of_awake hblocked
    · exact hidle.of_same (exec_core_other hmem hrun hk) fun _ => hiocs 4
  · by_cases he : e = .reset
    · subst he
      exact State.sleeperIdle_of_awake (State.applyReset_blocked _ _)
    · exact State.sleeperIdle_applyEvent (s := s.taken) hidle he

/-- Settles O17, part by part. -/
theorem stepKeepsHandshakesSound : Obligations.StepKeepsHandshakesSound := by
  rintro s t ⟨hsleeps, hpairs, hidle⟩ hstep
  exact ⟨step_keeps_sleepsInItsAccess hsleeps hstep, step_keeps_noPairWaits hsleeps hpairs hstep,
    step_keeps_noReadySleeper hsleeps hidle hstep⟩

end Sys2Proof.Machine

/-! # The adder (R212 to R214, R395 to R408)

Proves `Obligations.SettledPlus`, `SettledPlusStar`, `UnsettledAdds` and `EighteenStepMultiply`. The adder's two 19-bit
sums are the statements' totals (`NodeState.plusSum_toNat`, `NodeState.plusStarSum_toNat`); an unsettled adder delivers a
word with the same low nine bits (`toNat_mod_addResult`). The multiplication is an induction over the pairs of opcodes with
the invariant `PartialProduct`. -/

namespace Sys2Proof.Machine

open Sys2Proof.Statement

/-! ### When an add is settled -/

/-- R414: the opcodes of Table 3.9 by value. -/
theorem affectsPrefetch_decodeOpcode (sl : Slot) (f : AddrField) (c : BitVec 5) :
    affectsPrefetch (decodeOpcode c sl f) = decide (c ∈ affectsPrefetchCodes) := by
  revert c
  refine forall_code fun k => ?_
  fin_cases k <;> rfl

theorem affectsPrefetch_decode (w : Word) (sl : Slot) :
    affectsPrefetch (decode w sl) = true ↔ canon w sl ∈ affectsPrefetchCodes := by
  rw [decode, affectsPrefetch_decodeOpcode, decide_eq_true_iff]

/-- R395, R397, R399. -/
theorem addSettled_iff (sl : Slot) (c : NodeState) : c.addSettled sl = true ↔ Settled sl c := by
  rw [NodeState.addSettled, NodeState.slot3Stretched, Settled, Bool.or_eq_true, Bool.and_eq_true, Bool.or_eq_true,
    affectsPrefetch_decode, affectsPrefetch_decode, decide_eq_true_iff]

/-! ### The sums -/

theorem NodeState.carryIn_toNat (c : NodeState) : c.carryIn.toNat = Statement.carryIn c := by
  unfold NodeState.carryIn Statement.carryIn NodeState.extended
  cases c.p.getLsbD 9 <;> cases c.carry <;> rfl

theorem carryIn_le_one (c : NodeState) : Statement.carryIn c ≤ 1 := by
  unfold Statement.carryIn
  split <;> decide

/-- R212: 19 bits hold the sum of two words and a carry. -/
theorem NodeState.plusSum_toNat (c : NodeState) : c.plusSum.toNat = plusTotal c := by
  have hcarry := carryIn_le_one c
  have hs := c.s.isLt
  have ht := c.t.isLt
  unfold NodeState.plusSum plusTotal
  rw [BitVec.toNat_add, BitVec.toNat_add, NodeState.carryIn_toNat, BitVec.toNat_setWidth, BitVec.toNat_setWidth]
  omega

/-- A word of 18 bits lies, signed, between these bounds. -/
theorem word_toInt_bounds (x : Word) : -2 ^ 17 ≤ x.toInt ∧ x.toInt < 2 ^ 17 :=
  ⟨BitVec.le_toInt x, BitVec.toInt_lt⟩

/-- A sign-extended word as a number modulo 2^19. -/
theorem signExtend_toNat (x : Word) : ((x.signExtend 19).toNat : Int) = x.toInt % 2 ^ 19 := by
  have h := BitVec.toInt_signExtend_of_le (x := x) (show 18 ≤ 19 by decide)
  obtain ⟨hlow, hhigh⟩ := word_toInt_bounds x
  rw [BitVec.toInt_eq_toNat_cond] at h
  have := (x.signExtend 19).isLt
  split at h <;> omega

/-- R213: 19 bits hold the signed sum of two words and a carry. -/
theorem NodeState.plusStarSum_toNat (c : NodeState) : (c.plusStarSum.toNat : Int) = stepTotal c % 2 ^ 19 := by
  have hs := signExtend_toNat c.s
  have ht := signExtend_toNat c.t
  unfold NodeState.plusStarSum stepTotal
  cases c.a.getLsbD 0 with
  | false =>
    simp only [Bool.false_eq_true, if_false]
    omega
  | true =>
    simp only [if_true]
    rw [BitVec.toNat_add, BitVec.toNat_add, NodeState.carryIn_toNat]
    omega

/-- An unsettled adder delivers the low nine bits right (R408). -/
theorem toNat_mod_addResult (settled : Bool) (tick : Nat) (sum : BitVec 19) :
    (addResult settled tick sum).toNat % 512 = sum.toNat % 512 := by
  unfold addResult
  split
  · rfl
  · have hlow := extractLsb'_setField_ne (m := 9) sum 9 0 (Config.unsettledHigh tick) (by decide)
    have hnat := congrArg BitVec.toNat hlow
    simpa only [BitVec.extractLsb'_toNat, Nat.shiftRight_zero] using hnat

theorem addResult_settled (tick : Nat) (sum : BitVec 19) : addResult true tick sum = sum := rfl

/-! ### The two adds -/

/-- R212, from whatever the adder delivers. -/
theorem exec_plus (sl : Slot) (s : State) :
    exec (.plus sl) s = .next (s.setCore (ends sl false { popped s.core with
      t := (addResult (s.core.addSettled sl) s.tick s.core.plusSum).extractLsb' 0 18
      carry := if s.core.p.getLsbD 9 then (addResult (s.core.addSettled sl) s.tick s.core.plusSum).getLsbD 18
        else s.core.carry })) := by
  rw [← NodeState.dpop_eq_popped, ← NodeState.unsettles_advance]
  rfl

/-- R213, likewise. -/
theorem exec_plusStar (sl : Slot) (s : State) :
    exec (.plusStar sl) s = .next (s.setCore (ends sl false { s.core with
      t := (addResult (s.core.addSettled sl) s.tick s.core.plusStarSum).extractLsb' 1 18
      a := setField (s.core.a >>> 1) 17
        ((addResult (s.core.addSettled sl) s.tick s.core.plusStarSum).extractLsb' 0 1) })) := by
  rw [← NodeState.unsettles_advance]
  rfl

/-- The top bit of A comes from the sum, the others from A, one place on. -/
theorem shifted_in (a : Word) (sum : BitVec 19) :
    setField (a >>> 1) 17 (sum.extractLsb' 0 1) = BitVec.ofNat 18 (sum.toNat % 2 * 2 ^ 17 + a.toNat / 2) := by
  have ha := a.isLt
  have hhalf : a.toNat / 2 < 2 ^ 17 := by omega
  apply eq_of_bits
  intro k hk
  rw [getLsbD_setField, BitVec.getLsbD_ofNat, Nat.mul_comm, Nat.testBit_two_pow_mul_add _ hhalf, decide_eq_true hk,
    Bool.true_and, BitVec.getLsbD_ushiftRight]
  by_cases htop : k < 17
  · rw [if_neg (by omega), if_pos htop, Nat.testBit_div_two, Nat.add_comm]
    rfl
  · obtain rfl : k = 17 := by omega
    simp [BitVec.getLsbD]

/-- Settles O26. -/
theorem settledPlus : Obligations.SettledPlus := by
  refine ⟨fun w sl hcode => by rw [decode, hcode]; rfl, fun sl s hsettled => ?_⟩
  have hsum : s.core.plusSum.extractLsb' 0 18 = BitVec.ofNat 18 (plusTotal s.core) := by
    apply BitVec.eq_of_toNat_eq
    rw [BitVec.extractLsb'_toNat, BitVec.toNat_ofNat, NodeState.plusSum_toNat, Nat.shiftRight_zero]
  have hcarry : s.core.plusSum.getLsbD 18 = decide (2 ^ 18 ≤ plusTotal s.core) := by
    rw [← NodeState.plusSum_toNat]
    exact BitVec.getLsbD_last s.core.plusSum
  rw [exec_plus, (addSettled_iff sl s.core).2 hsettled, addResult_settled, hsum, hcarry]

/-- Half of the signed sum, and its low bit, from the 19 bits of it. -/
theorem half_of_sum {sum : BitVec 19} {total : Int} (h : (sum.toNat : Int) = total % 2 ^ 19) :
    sum.extractLsb' 1 18 = BitVec.ofInt 18 (total / 2) ∧ sum.toNat % 2 = (total % 2).toNat := by
  constructor
  · apply BitVec.eq_of_toNat_eq
    rw [BitVec.extractLsb'_toNat, BitVec.toNat_ofInt, Nat.shiftRight_one]
    omega
  · omega

/-- Settles O27. -/
theorem settledPlusStar : Obligations.SettledPlusStar := by
  refine ⟨fun w sl hcode => by rw [decode, hcode]; rfl, fun sl s hsettled => ?_⟩
  obtain ⟨hhalf, hlow⟩ := half_of_sum s.core.plusStarSum_toNat
  rw [exec_plusStar, (addSettled_iff sl s.core).2 hsettled, addResult_settled, shifted_in, hhalf, hlow]

/-- Settles O28: all that is claimed lies in the low nine bits of the sum. -/
theorem unsettledAdds : Obligations.UnsettledAdds := by
  intro sl s _
  refine ⟨⟨_, _, exec_plus sl s, ?_, fun hstandard => if_neg (by rw [hstandard]; decide)⟩, ?_⟩
  · have hlow := toNat_mod_addResult (s.core.addSettled sl) s.tick s.core.plusSum
    rw [BitVec.extractLsb'_toNat, Nat.shiftRight_zero]
    rw [NodeState.plusSum_toNat] at hlow
    omega
  · have hlow := toNat_mod_addResult (s.core.addSettled sl) s.tick s.core.plusStarSum
    have htotal := s.core.plusStarSum_toNat
    have hbit : (addResult (s.core.addSettled sl) s.tick s.core.plusStarSum).toNat % 2 =
        (stepTotal s.core % 2).toNat := by omega
    refine ⟨_, by rw [exec_plusStar, shifted_in, hbit], ?_⟩
    rw [BitVec.extractLsb'_toNat, Nat.shiftRight_one]
    omega

/-! ### The 18-step multiply (R214) -/

/-- After `k` steps from T = 0 of a multiplication of `x`, signed, by `y`: T and the upper `k` bits of A hold the product
of `x` and the lower `k` bits of `y`, and the rest of A the other bits of `y`. -/
def PartialProduct (x : Int) (y k : Nat) (hi lo : Word) : Prop :=
  hi.toInt * 2 ^ k + (lo.toNat / 2 ^ (18 - k) : Nat) = x * (y % 2 ^ k : Nat) ∧ lo.toNat % 2 ^ (18 - k) = y / 2 ^ k

theorem partialProduct_zero (x : Int) (y : Word) : PartialProduct x y.toNat 0 0#18 y := by
  have hy := y.isLt
  refine ⟨?_, ?_⟩
  · rw [Nat.sub_zero, Nat.div_eq_of_lt hy, pow_zero, pow_zero, Nat.mod_one]
    simp
  · rw [Nat.sub_zero, pow_zero, Nat.div_one, Nat.mod_eq_of_lt hy]

/-- A signed sum halved is a signed word again. -/
theorem toInt_ofInt_half {total : Int} (hlow : -2 ^ 18 ≤ total) (hhigh : total < 2 ^ 18) :
    (BitVec.ofInt 18 (total / 2)).toInt = total / 2 := by
  rw [BitVec.toInt_ofInt]
  exact Int.bmod_eq_of_le (by omega) (by omega)

/-- Bit 0 of a word as a number. -/
theorem ite_bit0 (lo : Word) (x : Int) : (if lo.getLsbD 0 then x else 0) = (lo.toNat % 2 : Nat) * x := by
  have hbit : lo.getLsbD 0 = decide (lo.toNat % 2 = 1) := Nat.testBit_zero lo.toNat
  rw [hbit]
  rcases Nat.mod_two_eq_zero_or_one lo.toNat with h | h <;> simp [h]

/-- R213, R214: one step adds the next bit's multiple and moves one place on. -/
theorem partialProduct_step {x : Word} {y k : Nat} {hi lo : Word} (hk : k < 18) {total : Int}
    (htotal : total = hi.toInt + if lo.getLsbD 0 then x.toInt else 0) (h : PartialProduct x.toInt y k hi lo) :
    PartialProduct x.toInt y (k + 1) (BitVec.ofInt 18 (total / 2))
      (BitVec.ofNat 18 ((total % 2).toNat * 2 ^ 17 + lo.toNat / 2)) := by
  obtain ⟨hproduct, hrest⟩ := h
  obtain ⟨j, hj⟩ : ∃ j, 18 - k = j + 1 := ⟨17 - k, by omega⟩
  have hj' : 18 - (k + 1) = j := by omega
  have h17 : 2 ^ 17 = 2 ^ k * 2 ^ j := by rw [← pow_add]; congr 1; omega
  rw [hj] at hproduct hrest
  rw [ite_bit0] at htotal
  obtain ⟨hxlow, hxhigh⟩ := word_toInt_bounds x
  obtain ⟨hilow, hihigh⟩ := word_toInt_bounds hi
  have hlo := lo.isLt
  have hbound : -2 ^ 18 ≤ total ∧ total < 2 ^ 18 := by
    rcases Nat.mod_two_eq_zero_or_one lo.toNat with hb | hb <;> rw [hb] at htotal <;> omega
  obtain ⟨e, he⟩ : ∃ e : Nat, (total % 2).toNat = e := ⟨_, rfl⟩
  have heven : total = 2 * (total / 2) + e := by omega
  have hlo' : (BitVec.ofNat 18 (e * 2 ^ 17 + lo.toNat / 2)).toNat = lo.toNat / 2 + e * 2 ^ k * 2 ^ j := by
    rw [BitVec.toNat_ofNat, Nat.mul_assoc, ← h17]
    omega
  have hpos : 0 < 2 ^ j := Nat.two_pow_pos j
  have hup : (lo.toNat / 2 + e * 2 ^ k * 2 ^ j) / 2 ^ j = lo.toNat / 2 ^ (j + 1) + e * 2 ^ k := by
    rw [Nat.add_mul_div_right _ _ hpos, Nat.div_div_eq_div_mul, pow_succ']
  have hbit : y / 2 ^ k % 2 = lo.toNat % 2 := by
    rw [← hrest, pow_succ', Nat.mod_mul_right_mod]
  rw [he]
  refine ⟨?_, ?_⟩
  · rw [toInt_ofInt_half hbound.1 hbound.2, hj', hlo', hup, Nat.mod_pow_succ, hbit]
    push_cast
    push_cast at hproduct htotal
    calc total / 2 * 2 ^ (k + 1) + ((lo.toNat : Int) / 2 ^ (j + 1) + e * 2 ^ k)
      _ = (2 * (total / 2) + e) * 2 ^ k + (lo.toNat : Int) / 2 ^ (j + 1) := by ring
      _ = total * 2 ^ k + (lo.toNat : Int) / 2 ^ (j + 1) := by rw [← heven]
      _ = hi.toInt * 2 ^ k + (lo.toNat : Int) / 2 ^ (j + 1) + 2 ^ k * ((lo.toNat : Int) % 2) * x.toInt := by
        rw [htotal]; ring
      _ = x.toInt * ((y : Int) % 2 ^ k + 2 ^ k * ((lo.toNat : Int) % 2)) := by rw [hproduct]; ring
  · rw [hj', hlo', Nat.add_mul_mod_self_right, pow_succ, ← Nat.div_div_eq_div_mul, ← hrest, pow_succ',
      Nat.mod_mul_right_div_self]

/-- A core in the course of a multiplication: T, A, the slot and the settling are its own. -/
def multiplying (c : NodeState) (hi lo : Word) (settled : Bool) (sl : Slot) : NodeState :=
  { c with t := hi, a := lo, settled := settled, slot := sl }

/-- Opcodes one after the other. -/
theorem runs_append (xs ys : List Instr) {s t : State} (h : runs xs s = .next t) :
    runs (xs ++ ys) s = runs ys t := by
  induction xs generalizing s with
  | nil =>
    obtain rfl : s = t := by injection h
    rfl
  | cons i rest ih =>
    rw [List.cons_append, runs]
    rw [runs] at h
    cases hi : exec i s with
    | next u =>
      rw [hi] at h
      exact ih h
    | fault f => cases f
    | refused r =>
      rw [hi] at h
      cases h

/-- R214: the pair of opcodes that makes one step of the multiplication in Standard mode. -/
theorem runs_step (c : NodeState) (s : State) (hstandard : c.p.getLsbD 9 = false) (hi lo : Word) (settled : Bool)
    (sl : Slot) {total : Int} (htotal : total = hi.toInt + if lo.getLsbD 0 then c.s.toInt else 0) :
    runs [.nop .s0, .plusStar .s1] (s.setCore (multiplying c hi lo settled sl)) =
      .next (s.setCore (multiplying c (BitVec.ofInt 18 (total / 2))
        (BitVec.ofNat 18 ((total % 2).toNat * 2 ^ 17 + lo.toNat / 2)) false .s2)) := by
  have hcarry : Statement.carryIn (multiplying c hi lo true .s1) = 0 := by
    unfold Statement.carryIn
    rw [if_neg]
    rintro ⟨h, -⟩
    exact absurd (hstandard.symm.trans h) (by decide)
  have hstep : stepTotal (multiplying c hi lo true .s1) = total := by
    rw [htotal, stepTotal, hcarry, Nat.cast_zero, add_zero]
    rfl
  have hnop : exec (.nop .s0) (s.setCore (multiplying c hi lo settled sl)) =
      .next (s.setCore (multiplying c hi lo true .s1)) := by
    rw [exec_nop, State.setCore_setCore, State.core_setCore]
    rfl
  have hplus := settledPlusStar.2 .s1 (s.setCore (multiplying c hi lo true .s1))
    (by rw [State.core_setCore]; exact .inl rfl)
  rw [State.core_setCore, State.setCore_setCore, hstep] at hplus
  rw [runs, hnop]
  show runs [.plusStar .s1] _ = _
  rw [runs, hplus]
  rfl

/-- R214: `k` steps leave the `k`-th partial product. -/
theorem runs_partialProduct (s : State) (ht : s.core.t = 0#18) (hstandard : s.core.p.getLsbD 9 = false) {k : Nat}
    (hk : k ≤ 18) :
    ∃ hi lo settled sl, runs (List.replicate k [Instr.nop .s0, Instr.plusStar .s1]).flatten s =
        .next (s.setCore (multiplying s.core hi lo settled sl)) ∧
      (0 < k → settled = false ∧ sl = .s2) ∧ PartialProduct s.core.s.toInt s.core.a.toNat k hi lo := by
  induction k with
  | zero =>
    refine ⟨0#18, s.core.a, s.core.settled, s.core.slot, ?_, fun h => absurd h (by decide),
      partialProduct_zero s.core.s.toInt s.core.a⟩
    rw [← ht]
    exact congrArg _ (State.setCore_core s).symm
  | succ k ih =>
    obtain ⟨hi, lo, settled, sl, hrun, -, hproduct⟩ := ih (by omega)
    refine ⟨_, _, false, .s2, ?_, fun _ => ⟨rfl, rfl⟩, partialProduct_step (by omega) rfl hproduct⟩
    rw [List.replicate_succ', List.flatten_append, runs_append _ _ hrun, List.flatten_singleton]
    exact runs_step s.core s hstandard hi lo settled sl rfl

/-- Settles O29: after 18 steps T is the upper and A the lower word of the product. -/
theorem eighteenStepMultiply : Obligations.EighteenStepMultiply := by
  intro s ht hstandard
  obtain ⟨hi, lo, settled, sl, hrun, hlast, hproduct, -⟩ := runs_partialProduct s ht hstandard (le_refl 18)
  obtain ⟨rfl, rfl⟩ := hlast (by decide)
  refine ⟨hi, lo, hrun, ?_⟩
  rw [Nat.sub_self, pow_zero, Nat.div_one, Nat.mod_eq_of_lt s.core.a.isLt] at hproduct
  exact hproduct

end Sys2Proof.Machine

/-! # More opcodes: `b!`, `;:`, `-if` and `unext` (R71, R144, R146, R149, R192)

Proves `Obligations.AddressIncrement`, `BStoreOpcode`, `CoroutineAndMinusIf`, `MicroNext`, `MicroNextCountsDown` and
`ReturnStackRing`. Each opcode has one equation in the statements' words; the loop of `unext` is an induction on R, the
return stack a walk around its ring as for the data stack. -/

namespace Sys2Proof.Machine

open Sys2Proof.Statement

/-- Settles O7, for every width. -/
theorem addressIncrement : Obligations.AddressIncrement := ⟨fun p => incr_eq_bump p, fun a => incr_eq_bump a⟩

/-- R192: the low nine bits of T of before the pop. -/
theorem exec_bStore (sl : Slot) (s : State) :
    exec (.bStore sl) s =
      .next (s.setCore (ends sl false { popped s.core with b := s.core.t.extractLsb' 0 9 })) := by
  rw [← NodeState.dpop_eq_popped, ← NodeState.unsettles_advance]
  rfl

/-- Settles O23. -/
theorem bStoreOpcode : Obligations.BStoreOpcode := runs_of (fun _ _ => rfl) exec_bStore

/-! ### `;:` and `-if` -/

/-- R144: P and the low ten bits of R change places. -/
theorem exec_coroutine (sl : Slot) (s : State) :
    exec (.coroutine sl) s =
      .next (s.setCore (goesTo { s.core with r := linked s.core } (s.core.r.extractLsb' 0 10))) := by
  rw [← withLow10_eq_linked]
  rfl

/-- A word is negative where its bit 17 is set. -/
theorem nonneg_iff_bit17 (t : Word) : 0 ≤ t.toInt ↔ t.getLsbD 17 = false := by
  have hmsb : t.msb = t.getLsbD 17 := rfl
  rw [← hmsb, BitVec.msb_eq_toInt, decide_eq_false_iff_not, not_lt]

/-- R146: taken at T = 0 too (D25). -/
theorem exec_minusIf (f : AddrField) (s : State) :
    exec (.minusIf f) s =
      .next (s.setCore (if 0 ≤ s.core.t.toInt then goesTo s.core (target s.core.p f) else goesOn s.core)) := by
  have hexec : exec (.minusIf f) s = .next (s.setCore (if s.core.t.getLsbD 17 = true then goesOn s.core
      else goesTo s.core (branchTarget s.core.p f))) := rfl
  rw [hexec, branchTarget_eq_target]
  simp only [nonneg_iff_bit17]
  cases s.core.t.getLsbD 17 <;> rfl

/-- Settles O31. -/
theorem coroutineAndMinusIf : Obligations.CoroutineAndMinusIf :=
  ⟨fetchFollows, runs_of (fun _ _ => rfl) exec_coroutine, runsWithField_of (fun _ _ => rfl) exec_minusIf⟩

/-! ### `unext` -/

/-- R149: back to slot 0 while R counts down, on to the next slot at R = 0. -/
theorem exec_unext (sl : Slot) (s : State) :
    exec (.unext sl) s = .next (s.setCore (if s.core.r = 0#18 then ends sl true (rpopped s.core)
      else { s.core with r := BitVec.ofNat 18 (s.core.r.toNat - 1), slot := .s0, settled := true })) := by
  have hexec : exec (.unext sl) s = .next (s.setCore (if s.core.r = 0#18 then (rpopped s.core).helps.advance sl
      else { s.core with r := s.core.r - 1#18, slot := .s0, settled := true })) := rfl
  rw [hexec, NodeState.helps_advance]
  by_cases hr : s.core.r = 0#18
  · rw [if_pos hr, if_pos hr]
  · rw [if_neg hr, if_neg hr, sub_one_eq_ofNat hr]

/-- Settles O33. -/
theorem microNext : Obligations.MicroNext := runs_of (fun _ _ => rfl) exec_unext

/-- R149: a `unext` in slot 0 with `n` in R is executed `n + 1` times. -/
theorem runs_unext (n : Nat) (s : State) (h : s.core.r.toNat = n) :
    runs (List.replicate (n + 1) (Instr.unext .s0)) s =
      .next (s.setCore { rpopped s.core with settled := true, slot := .s1 }) := by
  induction n generalizing s with
  | zero =>
    have hr : s.core.r = 0#18 := BitVec.eq_of_toNat_eq h
    rw [List.replicate_succ, runs, exec_unext, if_pos hr]
    rfl
  | succ n ih =>
    have hr : s.core.r ≠ 0#18 := by
      intro hr
      rw [hr] at h
      cases h
    have hcount : (BitVec.ofNat 18 (s.core.r.toNat - 1)).toNat = n := by
      have := s.core.r.isLt
      rw [BitVec.toNat_ofNat, Nat.mod_eq_of_lt (by omega)]
      omega
    rw [List.replicate_succ, runs, exec_unext, if_neg hr]
    refine (ih _ (by rw [State.core_setCore]; exact hcount)).trans ?_
    rw [State.setCore_setCore, State.core_setCore]
    rfl

/-- Settles O34. -/
theorem microNextCountsDown : Obligations.MicroNextCountsDown := fun s => runs_unext s.core.r.toNat s rfl

/-! ### The return stack's ring (R26, R30) -/

/-- The core with ring register `d` in R, as popping leaves it. -/
def NodeState.ringInR (c : NodeState) (d : Fin 8) : NodeState := { c with r := c.rs[d], rp := d - 1 }

theorem NodeState.rpop_eq_ringInR (c : NodeState) : c.rpop = c.ringInR c.rp := rfl

theorem NodeState.rpop_ringInR (c : NodeState) (d : Fin 8) : (c.ringInR d).rpop = c.ringInR (d - 1) := rfl

@[simp] theorem NodeState.ringInR_r (c : NodeState) (d : Fin 8) : (c.ringInR d).r = c.rs[d] := rfl

/-- Popping is a walk down the ring that writes nothing. -/
theorem NodeState.rpop_iterate_succ (c : NodeState) (j : Nat) :
    NodeState.rpop^[j + 1] c = c.ringInR (c.rp - Fin.ofNat 8 j) := by
  induction j with
  | zero => rw [ringSub_zero, ← rpop_eq_ringInR, Function.iterate_one]
  | succ j ih => rw [Function.iterate_succ_apply', ih, rpop_ringInR, ringSub_succ]

/-- Once R has been read off, the whole core repeats with every eight pops. -/
theorem NodeState.rpop_iterate_mod_eight (c : NodeState) (j : Nat) :
    NodeState.rpop^[j % 8 + 1] c = NodeState.rpop^[j + 1] c := by
  have wraps : Fin.ofNat 8 (j % 8) = Fin.ofNat 8 j := Fin.ext (Nat.mod_mod j 8)
  rw [rpop_iterate_succ, rpop_iterate_succ, wraps]

/-- A push moves the eight words on top down by one; it overwrites the ninth. -/
theorem NodeState.rpop_iterate_rpush_r (c : NodeState) (v : Word) {j : Nat} (hj : j < 8) :
    (NodeState.rpop^[j + 1] (c.rpush v)).r = (NodeState.rpop^[j] c).r := by
  match j with
  | 0 => simp
  | k + 1 =>
    have apart : (c.rp + 1).val ≠ (c.rp - Fin.ofNat 8 k).val := ringSucc_ne_sub c.rp (by omega)
    have below : c.rp + 1 - Fin.ofNat 8 (k + 1) = c.rp - Fin.ofNat 8 k := by
      rw [ringSub_succ, sub_right_comm, add_sub_cancel_right]
    rw [rpop_iterate_succ, rpop_iterate_succ, rpush_rp, below, ringInR_r, ringInR_r, rpush_rs]
    exact Vector.getElem_set_ne _ _ apart

/-- The pops show the last nine pushed words, `ws` being the pushed words with the last one first. -/
theorem NodeState.rpop_iterate_foldr_rpush_r (c : NodeState) (ws : List Word) {j : Nat} (hj : j < ws.length)
    (h9 : j < 9) : (NodeState.rpop^[j] (ws.foldr (fun v d => d.rpush v) c)).r = ws[j] := by
  induction ws generalizing j with
  | nil => cases hj
  | cons v ws ih =>
    cases j with
    | zero => rfl
    | succ j =>
      rw [List.foldr_cons, rpop_iterate_rpush_r _ _ (by omega)]
      exact ih (Nat.lt_of_succ_lt_succ hj) (by omega)

/-- Settles O20: last in first out for the nine words R and the ring can hold, the ring's period after them. -/
theorem returnStackRing : Obligations.ReturnStackRing := by
  intro c vs h
  constructor
  · intro j hj
    have hlen : j < vs.reverse.length := by simpa [h] using hj
    rw [List.foldl_eq_foldr_reverse, NodeState.rpop_iterate_foldr_rpush_r c vs.reverse hlen hj]
    simp [h]
  · intro j
    calc (NodeState.rpop^[j + 9] (vs.foldl NodeState.rpush c)).r
      _ = (NodeState.rpop^[(j + 8) % 8 + 1] (vs.foldl NodeState.rpush c)).r := by
        rw [NodeState.rpop_iterate_mod_eight]
      _ = (NodeState.rpop^[j % 8 + 1] (vs.foldl NodeState.rpush c)).r := by rw [Nat.add_mod_right]

end Sys2Proof.Machine

/-! # Extended mode (R36, R148, R222)

Proves `Obligations.ExtendedModeTable` and `ExtendedModeByTransfersOnly`. P9 is out of the incrementer's reach
(`getLsbD_incr_high`), so no access moves it; of the other opcodes only the seven transfers touch P at all
(`exec_core_p`), and those are read off their equations. -/

namespace Sys2Proof.Machine

open Sys2Proof.Statement

/-! ### Accesses keep P9 -/

/-- R71: the incrementer keeps every bit above the low seven. -/
theorem getLsbD_incr_high {w : Nat} (p : BitVec w) {k : Nat} (hk : 7 ≤ k) : (incr p).getLsbD k = p.getLsbD k := by
  unfold incr
  split
  · rfl
  · by_cases hw : k < w
    · have hmask : (BitVec.ofNat w 0x7F).getLsbD k = false := by
        have hbit : (0x7F).testBit k = decide (k < 7) := Nat.testBit_two_pow_sub_one 7 k
        rw [BitVec.getLsbD_ofNat, hbit, decide_eq_false (Nat.not_lt.2 hk), Bool.and_false]
      rw [BitVec.getLsbD_or, BitVec.getLsbD_and, BitVec.getLsbD_and, BitVec.getLsbD_not, hmask]
      simp [hw]
    · rw [BitVec.getLsbD_of_ge _ _ (by omega), BitVec.getLsbD_of_ge _ _ (by omega)]

theorem MemOp.finish_p9 (op : MemOp) (sl : Slot) (v : Word) (c : NodeState) :
    (op.finish sl v c).p.getLsbD 9 = c.p.getLsbD 9 := by
  have hincr : (incr c.p).getLsbD 9 = c.p.getLsbD 9 := getLsbD_incr_high c.p (by decide)
  cases op <;> simp only [MemOp.finish, NodeState.afterMemory, NodeState.advance_p, NodeState.dpush_p,
    NodeState.dpop_p, hincr]

/-- R148: an access leaves P9, whether it completes or sleeps. -/
theorem State.access_p9 {s t : State} {op : MemOp} {sl : Slot} (h : s.access op sl = .next t) :
    t.core.p.getLsbD 9 = s.core.p.getLsbD 9 := by
  rcases State.access_self h with ⟨-, -, x, dev, he, -⟩ | ⟨v, ram, iocsw, dev, link, x, he, -⟩
  · rw [he]
  · rw [he, MemOp.finish_p9]

/-! ### The other opcodes -/

/-- R148: the seven transfers are the opcodes, beside accesses through P, that touch P. -/
theorem exec_core_p {i : Instr} (hm : memOpOf i = none) (ht : ¬ IsTransfer i) {s t : State}
    (h : exec i s = .next t) : t.core.p = s.core.p := by
  cases i with
  | ret | coroutine | jump | call | next | ifZero | minusIf => exact absurd trivial ht
  | fetchPInc | fetchAInc | fetchB | fetchA | storePInc | storeAInc | storeB | storeA => cases hm
  | unext sl =>
    rw [exec_unext] at h
    injection h with h
    rw [← h, State.core_setCore]
    split
    · cases sl <;> rfl
    · rfl
  | _ =>
    injection h with h
    rw [← h, State.core_setCore]
    simp

/-- The top bit of a value put together from two is that of the upper one. -/
theorem getLsbD_append_high {m n : Nat} (x : BitVec m) (y : BitVec n) {k : Nat} (hk : n ≤ k) :
    (x ++ y).getLsbD k = x.getLsbD (k - n) := by
  rw [BitVec.getLsbD_append, if_neg (Nat.not_lt.2 hk)]

/-- R107: the target of a branch keeps P9, but for one from slot 0. -/
theorem target_p9 (p : PAddr) (f : AddrField) :
    (target p f).getLsbD 9 = match f with
      | .slot0 a => a.getLsbD 9
      | .slot1 _ | .slot2 _ => p.getLsbD 9 := by
  have htop : (p.extractLsb' 9 1).getLsbD 0 = p.getLsbD 9 := by
    rw [BitVec.getLsbD_extractLsb']
    exact Bool.true_and _
  cases f with
  | slot0 a => rfl
  | slot1 a =>
    exact (getLsbD_append_high _ a (by decide)).trans ((getLsbD_append_high _ (0#1) (by decide)).trans htop)
  | slot2 a =>
    exact (getLsbD_append_high _ a (by decide)).trans ((getLsbD_append_high _ (p.extractLsb' 3 5) (by decide)).trans
      ((getLsbD_append_high _ (0#1) (by decide)).trans htop))

/-- The low ten bits of R as a target. -/
theorem bit9_of_low10 (r : Word) : (r.extractLsb' 0 10).getLsbD 9 = r.getLsbD 9 := by
  rw [BitVec.getLsbD_extractLsb']
  exact Bool.true_and _

/-- R141, R144: P9 is saved in R9. -/
theorem linked_bit9 (c : NodeState) : (linked c).getLsbD 9 = c.p.getLsbD 9 :=
  (BitVec.getLsbD_append (x := c.r.extractLsb' 10 8) (y := c.p)).trans (if_pos (by decide))

/-- R401: a transfer that changes P9 leaves the adder unsettled. -/
theorem settled_goesTo {c : NodeState} {dest : PAddr} (h : (goesTo c dest).p.getLsbD 9 ≠ c.p.getLsbD 9) :
    (goesTo c dest).settled = false :=
  decide_eq_false h

/-- The core that an opcode leaves, from its equation. -/
theorem core_of_exec_eq {i : Instr} {s t : State} {c : NodeState} (he : exec i s = .next (s.setCore c))
    (h : exec i s = .next t) : t.core = c := by
  rw [he] at h
  injection h with h
  rw [← h, State.core_setCore]

/-- R148, R401: P9 after each transfer, and the settling of the adder where it changes. -/
theorem exec_transfer_p9 {i : Instr} (ht : IsTransfer i) {s t : State} (h : exec i s = .next t) :
    t.core.p.getLsbD 9 = p9After i s.core ∧
      (t.core.p.getLsbD 9 ≠ s.core.p.getLsbD 9 → t.core.settled = false) := by
  cases i with
  | ret sl =>
    rw [core_of_exec_eq (exec_ret sl s) h]
    exact ⟨bit9_of_low10 _, settled_goesTo⟩
  | coroutine sl =>
    rw [core_of_exec_eq (exec_coroutine sl s) h]
    exact ⟨bit9_of_low10 _, settled_goesTo⟩
  | jump f =>
    rw [core_of_exec_eq (exec_jump f s) h]
    exact ⟨(target_p9 _ f).trans (by cases f <;> rfl), settled_goesTo⟩
  | call f =>
    rw [core_of_exec_eq (exec_call f s) h]
    exact ⟨(target_p9 _ f).trans (by cases f <;> rfl), settled_goesTo⟩
  | next f =>
    rw [core_of_exec_eq (exec_next f s) h]
    by_cases hr : s.core.r = 0#18
    · rw [if_pos hr]
      exact ⟨by cases f <;> simp only [p9After, if_pos hr] <;> rfl, fun hne => absurd rfl hne⟩
    · rw [if_neg hr]
      exact ⟨(target_p9 _ f).trans (by cases f <;> simp only [p9After, if_neg hr]), settled_goesTo⟩
  | ifZero f =>
    rw [core_of_exec_eq (exec_ifZero f s) h]
    by_cases hz : s.core.t = 0#18
    · rw [if_pos hz]
      exact ⟨(target_p9 _ f).trans (by cases f <;> simp only [p9After, if_pos hz]), settled_goesTo⟩
    · rw [if_neg hz]
      exact ⟨by cases f <;> simp only [p9After, if_neg hz] <;> rfl, fun hne => absurd rfl hne⟩
  | minusIf f =>
    rw [core_of_exec_eq (exec_minusIf f s) h]
    by_cases hneg : 0 ≤ s.core.t.toInt
    · rw [if_pos hneg]
      exact ⟨(target_p9 _ f).trans (by cases f <;> simp only [p9After, if_pos hneg]), settled_goesTo⟩
    · rw [if_neg hneg]
      exact ⟨by cases f <;> simp only [p9After, if_neg hneg] <;> rfl, fun hne => absurd rfl hne⟩
  | _ => exact absurd ht id

/-- Every other opcode keeps P9 in the table too. -/
theorem p9After_of_not_transfer {i : Instr} (h : ¬ IsTransfer i) (c : NodeState) : p9After i c = c.p.getLsbD 9 := by
  cases i with
  | ret | coroutine | jump | call | next | ifZero | minusIf => exact absurd trivial h
  | _ => rfl

/-- R148: P9 after each opcode. -/
theorem exec_p9 {i : Instr} {s t : State} (h : exec i s = .next t) : t.core.p.getLsbD 9 = p9After i s.core := by
  by_cases ht : IsTransfer i
  · exact (exec_transfer_p9 ht h).1
  rw [p9After_of_not_transfer ht]
  cases hm : memOpOf i with
  | some op =>
    rw [exec_memory hm] at h
    exact State.access_p9 h
  | none => rw [exec_core_p hm ht h]

/-- R44, D7: every node starts in Standard mode. -/
theorem resetP_bit9 (n : Node) : (resetP n).getLsbD 9 = false := by
  unfold resetP
  split
  · rfl
  · rw [BitVec.getLsbD_setWidth, BitVec.getLsbD_of_ge _ _ (by decide), Bool.and_false]

/-- Settles O35, clause by clause. -/
theorem extendedModeTable : Obligations.ExtendedModeTable := by
  refine ⟨fun i s t h => exec_p9 h, fun s t h => State.access_p9 h, fun i s t h hsaves => ?_,
    fun i s t ht h => (exec_transfer_p9 ht h).2, fun n => ?_⟩
  · rcases hsaves with ⟨f, rfl⟩ | ⟨sl, rfl⟩
    · rw [core_of_exec_eq (exec_call f s) h]
      exact linked_bit9 s.core
    · rw [core_of_exec_eq (exec_coroutine sl s) h]
      exact linked_bit9 s.core
  · rw [State.reset_node]
    exact resetP_bit9 n

/-- An access that a node finishes in another's step leaves its P9. -/
theorem NodeState.WokenTo.extended {n : Node} {c e : NodeState} (h : c.WokenTo n e) : e.extended = c.extended := by
  obtain ⟨op, v, ext, dev, x, -, -, rfl, -⟩ := h
  rw [NodeState.extended, MemOp.finish_p9, NodeState.extended]

/-- Settles O56, node by node. -/
theorem extendedModeByTransfersOnly : Obligations.ExtendedModeByTransfersOnly := by
  intro s t n hstep hne
  cases step_node hstep n with
  | access op sl turn pending runs =>
    refine absurd ?_ hne
    have hp9 := State.access_p9 runs
    rw [NodeState.extended, NodeState.extended, ← core_of_access runs]
    exact hp9
  | opcode i turn running notMemory runs =>
    refine .inr ⟨turn, i, running, ?_⟩
    by_contra ht
    refine hne ?_
    rw [← core_of_exec notMemory runs, NodeState.extended, exec_core_p notMemory ht runs]
    rfl
  | reset turn result => exact .inl turn
  | keeps turn result =>
    obtain ⟨ext, dev, link, x, he⟩ := result
    exact absurd (by rw [he]; rfl) hne
  | wakes turn result => exact absurd result.extended hne
  | partner k op other v d turn pending blocked selected selectedBack link matching result =>
    exact absurd (by rw [result, NodeState.extended, MemOp.finish_p9, NodeState.extended]) hne

end Sys2Proof.Machine

/-! # RAM and ROM (R60, R61, R66 to R68, R79)

Proves `Obligations.LoadsFromMemory`, `StoresToRam`, `LoadAfterStore`, `StoreToRomStops`, `UndefinedIoStops` and
`MemoryFrame`. Reads and stores of memory have one equation each (`State.access_load`, `State.access_store`), and what
memory reads as after a store is one lemma about `State.peek` (`State.peek_writeRam`). -/

namespace Sys2Proof.Machine

open Sys2Proof.Statement

/-! ### Loads -/

/-- R66: a read of RAM or ROM, in the words of the statements. -/
theorem State.access_load (s : State) {op : MemOp} (sl : Slot) (hread : op.isStore = false)
    (h8 : (op.addr s.core).getLsbD 8 = false) :
    s.access op sl =
      .next (s.setCore (finished op sl (s.peek s.cur (op.addr s.core)) (touched s.core (op.addr s.core)))) := by
  rw [s.access_read_memory sl hread h8, State.complete, State.core_setCore, State.setCore_setCore,
    NodeState.touchBus_eq_touched, MemOp.finish_eq_finished]

/-- `LoadRuns` from one row of the opcode map. -/
theorem loadRuns_of {code : BitVec 5} {op : Slot → Instr} {kind : MemOp} {pointer : NodeState → Addr}
    (hrow : ∀ sl f, decodeOpcode code sl f = op sl) (hexec : ∀ sl s, exec (op sl) s = s.access kind sl)
    (hread : kind.isStore = false) (hpointer : ∀ c, kind.addr c = pointer c) : LoadRuns code op kind pointer := by
  refine ⟨fun w sl hcode => by rw [decode, hcode, hrow], fun sl s h8 => ?_⟩
  rw [← hpointer] at h8
  rw [hexec, s.access_load sl hread h8, hpointer]

/-- Settles O36. -/
theorem loadsFromMemory : Obligations.LoadsFromMemory :=
  ⟨loadRuns_of (fun _ _ => rfl) (fun _ _ => rfl) rfl fun _ => rfl,
    loadRuns_of (fun _ _ => rfl) (fun _ _ => rfl) rfl fun _ => rfl,
    loadRuns_of (fun _ _ => rfl) (fun _ _ => rfl) rfl fun _ => rfl,
    loadRuns_of (fun _ _ => rfl) (fun _ _ => rfl) rfl fun _ => rfl⟩

/-! ### Stores -/

/-- An access that completes does not look at the RAM of its core. -/
theorem finished_setRam (op : MemOp) (sl : Slot) (v : Word) (c : NodeState) (m : Ram) :
    finished op sl v { c with ram := m } = { finished op sl v c with ram := m } := by
  cases op with
  | instr => rfl
  | fetchA | storeA | fetchAInc | storeAInc | fetchB | storeB | fetchPInc | storePInc => cases sl <;> rfl

/-- R61: a store of the running core changes what the names of its RAM word read as, and nothing else. -/
theorem State.peek_writeRam (s : State) (n : Node) (a b : Addr) (v : Word) :
    (s.writeRam (wordIndex a) v).peek n b =
      if n = s.cur ∧ b.getLsbD 7 = false ∧ b.extractLsb' 0 6 = a.extractLsb' 0 6 then v else s.peek n b := by
  unfold State.peek
  rw [State.readRam_writeRam]
  cases b.getLsbD 7 with
  | true => simp
  | false =>
    simp only [Bool.false_eq_true, if_false, true_and]
    exact if_congr (and_congr_right fun _ => ⟨Eq.symm, Eq.symm⟩) rfl rfl

/-- R67: a store to a RAM address completes, and stores T there. -/
theorem State.access_store (s : State) {op : MemOp} (sl : Slot) (hstore : op.isStore = true)
    (h8 : (op.addr s.core).getLsbD 8 = false) (h7 : (op.addr s.core).getLsbD 7 = false) :
    ∃ t, s.access op sl = .next t ∧
      StoredOnly s t (op.addr s.core) s.core.t (finished op sl 0#18 (touched s.core (op.addr s.core))) := by
  generalize ha : op.addr s.core = a at h8 h7 ⊢
  have hplace : place s.cur a = .ram (wordIndex a) := by
    rw [place_memory _ _ h8, h7]
    rfl
  have hrun : s.access op sl = .next (s.setCore { finished op sl 0#18 (touched s.core a) with
      ram := s.core.ram.write (wordIndex a).toNat s.core.t }) := by
    unfold State.access
    simp only [ha, State.cur_setCore, hplace, hstore, if_true, State.writeRam, State.complete, State.core_setCore,
      State.setCore_setCore, NodeState.touchBus_eq_touched, MemOp.finish_eq_finished, finished_setRam]
    rfl
  refine ⟨_, hrun, ?_, fun n b _ => ?_⟩
  · rw [State.core_setCore]
  · rw [← State.peek_writeRam]
    refine State.peek_congr ?_ (by rfl) b
    rw [State.writeRam, State.node_setCore, State.node_setCore]
    split <;> rfl

/-- `StoreRuns` from one row of the opcode map. -/
theorem storeRuns_of {code : BitVec 5} {op : Slot → Instr} {kind : MemOp} {pointer : NodeState → Addr}
    (hrow : ∀ sl f, decodeOpcode code sl f = op sl) (hexec : ∀ sl s, exec (op sl) s = s.access kind sl)
    (hstore : kind.isStore = true) (hpointer : ∀ c, kind.addr c = pointer c) : StoreRuns code op kind pointer := by
  refine ⟨fun w sl hcode => by rw [decode, hcode, hrow], fun sl s h8 h7 => ?_⟩
  rw [← hpointer] at h8 h7 ⊢
  rw [hexec]
  exact s.access_store sl hstore h8 h7

/-- Settles O37. -/
theorem storesToRam : Obligations.StoresToRam :=
  ⟨storeRuns_of (fun _ _ => rfl) (fun _ _ => rfl) rfl fun _ => rfl,
    storeRuns_of (fun _ _ => rfl) (fun _ _ => rfl) rfl fun _ => rfl,
    storeRuns_of (fun _ _ => rfl) (fun _ _ => rfl) rfl fun _ => rfl,
    storeRuns_of (fun _ _ => rfl) (fun _ _ => rfl) rfl fun _ => rfl⟩

/-- A store leaves B. -/
theorem finished_storeA_b (sl : Slot) (v : Word) (c : NodeState) : (finished .storeA sl v c).b = c.b := by
  cases sl <;> rfl

/-- A load leaves the word in T. -/
theorem finished_fetchB_t (sl : Slot) (v : Word) (c : NodeState) : (finished .fetchB sl v c).t = v := by
  cases sl <;> rfl

/-- R64: the bits of A that address. -/
theorem addr_through_a (a : Word) :
    (∀ k < 9, (a.extractLsb' 0 9).getLsbD k = a.getLsbD k) ∧ (a.extractLsb' 0 9).extractLsb' 0 6 = a.extractLsb' 0 6 := by
  have hbit (k : Nat) (hk : k < 9) : (a.extractLsb' 0 9).getLsbD k = a.getLsbD k := by
    rw [BitVec.getLsbD_extractLsb', decide_eq_true hk, Bool.true_and, Nat.zero_add]
  refine ⟨hbit, eq_of_bits fun k hk => ?_⟩
  simp only [BitVec.getLsbD_extractLsb', Nat.zero_add, decide_eq_true (show k < 9 by omega), Bool.true_and]

/-- Settles O38, by what memory reads as after the store. -/
theorem loadAfterStore : Obligations.LoadAfterStore := by
  intro s sl sl' ha8 ha7 hb8 hb7 hword
  obtain ⟨hbit, hfield⟩ := addr_through_a s.core.a
  obtain ⟨t, hstored, hnode, hpeek⟩ := s.access_store (op := .storeA) sl rfl ((hbit 8 (by decide)).trans ha8)
    ((hbit 7 (by decide)).trans ha7)
  have hcur : t.cur = s.cur := by rw [hnode, State.cur_setCore]
  have hb : t.core.b = s.core.b := by
    rw [hnode, State.core_setCore]
    exact finished_storeA_b sl 0#18 _
  have hload := t.access_load (op := .fetchB) sl' rfl (by rw [MemOp.addr, hb, hb8])
  have hread : t.peek t.cur (MemOp.fetchB.addr t.core) = s.core.t := by
    rw [MemOp.addr, hb, hcur, hpeek _ _ hb8, if_pos ⟨rfl, hb7, hword.symm.trans hfield.symm⟩]
  rw [hread] at hload
  have hstored' : exec (.storeA sl) s = .next t := hstored
  have hload' : exec (.fetchB sl') t = _ := hload
  refine ⟨t.setCore (finished .fetchB sl' s.core.t (touched t.core (MemOp.fetchB.addr t.core))), ?_, ?_⟩
  · simp only [runs, hstored', hload']
  · rw [State.core_setCore, finished_fetchB_t]

/-! ### Accesses without a meaning -/

/-- Settles O39. -/
theorem storeToRomStops : Obligations.StoreToRomStops := by
  intro i op s hop hstore h8 h7
  rw [exec_memory hop]
  unfold State.access
  simp only [place_memory _ _ h8, h7, hstore, if_true]

/-- R69: an access at an undefined address. -/
theorem State.access_undefined {s : State} {op : MemOp} (sl : Slot) (h : place s.cur (op.addr s.core) = .undefined) :
    s.access op sl = .refused .undefinedIo := by
  unfold State.access
  simp only [State.cur_setCore, h]

/-- Settles O40, for the opcodes and for the fetch. -/
theorem undefinedIoStops : Obligations.UndefinedIoStops := by
  refine ⟨fun i op s hop h => ?_, fun s n hturn hfetching h => ?_⟩
  · rw [exec_memory hop, State.access_undefined _ h]
  · rw [step_of_fetching hturn hfetching]
    exact State.access_undefined (s := begins s n) .s0 h

/-! ### What memory keeps -/

/-- A RAM word other than the one written. -/
theorem Ram.read_write_ne (m : Ram) {k k' : BitVec 6} (v : Word) (h : k' ≠ k) :
    (m.write k.toNat v).read k'.toNat = m.read k'.toNat := by
  rw [Ram.read_write, if_neg fun he => h (BitVec.eq_of_toNat_eq he.symm)]

/-- Settles O57: an access writes at most the RAM word at its own address, and other opcodes none. -/
theorem memoryFrame : Obligations.MemoryFrame := by
  intro i s t hexec n a h8 hother
  cases hm : memOpOf i with
  | none =>
    obtain ⟨c, hc⟩ := exec_core hm s
    have ht : t = s.setCore c := by
      rw [hexec] at hc
      injection hc
    refine State.peek_congr ?_ (by rw [ht, State.epoch_setCore]) a
    by_cases hn : n = s.cur
    · subst hn
      have hram := (exec_core_keeps hm hexec).1
      rwa [ht, State.core_setCore, ← State.node_setCore_cur s c, ← ht] at hram
    · rw [exec_core_other hm hexec hn]
  | some op =>
    rw [exec_memory hm] at hexec
    have hepoch := (State.access_rest hexec).2.2.2
    rcases State.ram_access hexec n with hram | ⟨k, hn, hstore, hplace, hram⟩
    · exact State.peek_congr hram hepoch a
    · unfold State.peek
      cases h7 : a.getLsbD 7 with
      | true => rfl
      | false =>
        have hne : wordIndex a ≠ k := fun he =>
          hother ⟨op, k, hm, hstore, hn, hplace, by rw [place_memory _ _ h8, h7, he]; rfl⟩
        unfold State.readRam
        rw [hram, hepoch, Ram.read_write_ne _ _ hne]

end Sys2Proof.Machine

/-! # IOCS and DATA (R310, R311, R331, R334, R338, R341)

Proves `Obligations.IocsReadBits`, `IocsLoad` and `DataAccess`. Both registers answer at once, so a read of either is
an access that completes (`State.access_iocs_load`, `State.access_data_load`) and an instruction fetch from there is
one such read. -/

namespace Sys2Proof.Machine

open Sys2Proof.Statement

/-! ### The status word -/

/-- R350: active low. -/
theorem readPending_iff {s : State} {n m : Node} {d : Dir} (h : neighbour n d = some m) (bit : Nat) :
    s.readPending n d bit = false ↔ s.req m d = .reading := by
  rw [State.readPending, h]
  exact bne_eq_false_iff_eq

/-- R350: active high. -/
theorem writePending_iff {s : State} {n m : Node} {d : Dir} (h : neighbour n d = some m) (bit : Nat) :
    s.writePending n d bit = true ↔ ∃ v, s.req m d = .writing v := by
  rw [State.writePending, h]
  cases hreq : s.req m d <;> simp [hreq]

/-- R311, R334: bit 17 of the bus nodes. -/
theorem State.readIocs_wakeLine {n : Node} (h : OnBus n) (s : State) : (s.readIocs n).getLsbD 17 = !s.wakeLine n := by
  have hline : s.iocsBit n 17 = some (!s.wakeLine n) := if_pos ((deviceOf_bus n).2 h)
  rw [s.readIocs_bit n 17 (by decide), hline, Option.getD_some]

/-- A bus node has no pin at bit 17 (R334). -/
theorem not_bus_of_pinRead (n : Node) : pinRead n .p17 = true → deviceOf n ≠ .bus := by revert n; decide

/-- R313: a pin's level is read at its bit. -/
theorem State.readIocs_pin {s : State} {n : Node} {q : Pin} {level : Bool} (hread : pinRead n q = true)
    (hlevel : s.pinLevel n q = some level) : (s.readIocs n).getLsbD (pinBitNumber q) = level := by
  have hbit : s.iocsBit n (pinBitNumber q) = s.pinBit n q := by
    cases q with
    | p17 => exact if_neg (not_bus_of_pinRead n hread)
    | p5 | p3 | p1 => rfl
  rw [s.readIocs_bit n _ (by cases q <;> decide), hbit, State.pinBit, if_pos hread, hlevel, Option.getD_some]

/-- Settles O43, bit by bit. -/
theorem iocsReadBits : Obligations.IocsReadBits := by
  intro s n
  refine ⟨fun d m hlink => ?_, fun hn => ?_, fun hn => ?_, fun q level hread hlevel => State.readIocs_pin hread hlevel⟩
  · rw [State.readIocs_readBit, State.readIocs_writeBit]
    exact ⟨readPending_iff hlink _, writePending_iff hlink _⟩
  · rw [State.readIocs_wakeLine (.inl hn), hn]
    rfl
  · rw [State.readIocs_wakeLine (.inr hn), hn]
    rfl

/-! ### Reading IOCS -/

/-- Each bit of the status word looks at the requests, the control bits and the pins. -/
theorem State.iocsBit_congr {s t : State} (hreq : ∀ m d, t.req m d = s.req m d)
    (hi : ∀ m, (t.node m).iocsw = (s.node m).iocsw) (he : ∀ m, (t.node m).ext = (s.node m).ext) (n : Node) (bit : Nat) :
    t.iocsBit n bit = s.iocsBit n bit := by
  have hread : t.readPending = s.readPending := by
    funext n d k
    simp only [State.readPending, hreq, hi]
  have hwrite : t.writePending = s.writePending := by
    funext n d k
    simp only [State.writePending, hreq, hi]
  have hpin : t.pinBit = s.pinBit := by
    funext n q
    rw [State.pinBit, State.pinBit, State.pinLevel_congr (hi n) (he n)]
  have hline : t.wakeLine = s.wakeLine := by
    funext n
    simp only [State.wakeLine, hi]
  simp only [State.iocsBit, hread, hwrite, hpin, hline]

/-- A use of the bus does not change the status word. -/
theorem State.readIocs_touch (s : State) (a : Addr) (n : Node) :
    (s.setCore (touched s.core a)).readIocs n = s.readIocs n := by
  rw [← NodeState.touchBus_eq_touched]
  have hbit : (s.setCore (s.core.touchBus a)).iocsBit n = s.iocsBit n := by
    refine funext (State.iocsBit_congr (s.req_touch a) (fun m => ?_) (fun m => ?_) n)
    all_goals
      obtain ⟨x, hx⟩ := s.node_touch a m
      rw [hx]
  rw [State.readIocs, State.readIocs, hbit, State.tick_setCore]

/-- R310: a read of IOCS. -/
theorem State.access_iocs_load {s : State} {op : MemOp} (sl : Slot) (hread : op.isStore = false)
    (haddr : op.addr s.core = 0x15D#9) :
    s.access op sl = .next (s.setCore (finished op sl (s.readIocs s.cur) (touched s.core 0x15D#9))) := by
  unfold State.access
  simp only [haddr, State.cur_setCore, place_iocs, hread, Bool.false_eq_true, if_false, State.complete,
    State.core_setCore, State.setCore_setCore, State.readIocs_touch, NodeState.touchBus_eq_touched,
    MemOp.finish_eq_finished]

/-- Settles O44, for the opcodes and for the fetch. -/
theorem iocsLoad : Obligations.IocsLoad := by
  refine ⟨fun i op s hop hread haddr => ?_, fun s n hturn hfetching haddr => ?_⟩
  · rw [exec_memory hop, State.access_iocs_load i.slot hread haddr]
  · have hio : ((s.node n).p.extractLsb' 0 9).getLsbD 8 = true := by
      rw [haddr]
      rfl
    rw [step_of_fetching hturn hfetching, ← finished_instr hio]
    exact State.access_iocs_load (s := begins s n) .s0 rfl haddr

/-! ### DATA -/

/-- R331, R338, R341: a read of DATA delivers the device register, or what an undriven bus gives. -/
theorem State.readData_spec (s : State) :
    (OnBus s.cur ∧ s.core.iocsw.getLsbD 12 = false ∧ s.core.ext.bus = none) ∨ s.readData = s.core.dev := by
  unfold State.readData
  split
  · next h =>
    obtain ⟨hbus, hinput, hundriven⟩ := h
    exact .inl ⟨(deviceOf_bus _).1 hbus, by simpa [NodeState.busOutput] using hinput, hundriven⟩
  · exact .inr rfl

/-- R331: a read of DATA completes. -/
theorem State.access_data_load {s : State} {op : MemOp} (sl : Slot) (hread : op.isStore = false)
    (haddr : op.addr s.core = 0x141#9) (hplace : place s.cur 0x141#9 = .data) :
    ∃ v, s.access op sl = .next (s.setCore (finished op sl v (touched s.core 0x141#9))) ∧
      ((OnBus s.cur ∧ s.core.iocsw.getLsbD 12 = false ∧ s.core.ext.bus = none) ∨ v = s.core.dev) := by
  refine ⟨(s.setCore (touched s.core 0x141#9)).readData, ?_, ?_⟩
  · unfold State.access
    simp only [haddr, State.cur_setCore, hplace, hread, Bool.false_eq_true, if_false, State.complete,
      State.core_setCore, State.setCore_setCore, NodeState.touchBus_eq_touched, MemOp.finish_eq_finished]
  · have hdata := State.readData_spec (s.setCore (touched s.core 0x141#9))
    rwa [State.core_setCore] at hdata

/-- R331, R339, R341: what a store to DATA makes of the device, and of the link. -/
theorem State.writeData_eq (s : State) (v : Word) :
    ∃ d, s.writeData v = s.setCore { s.core with
        dev := d
        linkReady := if OnSerdes s.cur then false else s.core.linkReady } ∧
      (Analog s.cur → d = s.core.dev) ∧ (OnSerdes s.cur → d = v) ∧
      (OnBus s.cur → s.core.iocsw.getLsbD 12 = true → d = v) := by
  unfold State.writeData
  split
  · next hdev =>
    have hbus := (deviceOf_bus _).1 hdev
    refine ⟨s.busWritten s.cur v, by rw [if_neg (not_onSerdes_of_onBus _ hbus)],
      fun h => absurd h (not_analog_of_onBus _ hbus), fun h => absurd h (not_onSerdes_of_onBus _ hbus), fun _ hout => ?_⟩
    exact if_pos hout
  · next hdev =>
    have hserdes := (deviceOf_serdes _).1 hdev
    exact ⟨v, by rw [if_pos hserdes], fun h => absurd hserdes (fun hs => not_analog_of_onSerdes _ hs h), fun _ => rfl,
      fun _ _ => rfl⟩
  · next hnotBus hnotSerdes =>
    have hbus : ¬ OnBus s.cur := fun h => hnotBus ((deviceOf_bus _).2 h)
    have hserdes : ¬ OnSerdes s.cur := fun h => hnotSerdes ((deviceOf_serdes _).2 h)
    refine ⟨s.core.dev, ?_, fun _ => rfl, fun h => absurd h hserdes, fun h => absurd h hbus⟩
    rw [if_neg hserdes]
    exact (State.setCore_core s).symm

/-- An access that completes touches neither the device register nor the link. -/
theorem MemOp.finish_setDevice (op : MemOp) (sl : Slot) (v : Word) (c : NodeState) (dev : Word) (link : Bool) :
    op.finish sl v { c with dev := dev, linkReady := link } =
      { op.finish sl v c with dev := dev, linkReady := link } := by
  refine (op.finish_io sl v c dev link c.disarmedBy).trans ?_
  dsimp only
  rw [MemOp.finish_disarmedBy]

/-- R331: a store to DATA completes. -/
theorem State.access_data_store {s : State} {op : MemOp} (sl : Slot) (hstore : op.isStore = true)
    (haddr : op.addr s.core = 0x141#9) (hplace : place s.cur 0x141#9 = .data) :
    ∃ d, s.access op sl = .next (s.setCore { finished op sl 0#18 (touched s.core 0x141#9) with
        dev := d
        linkReady := if OnSerdes s.cur then false else s.core.linkReady }) ∧
      (Analog s.cur → d = s.core.dev) ∧ (OnSerdes s.cur → d = s.core.t) ∧
      (OnBus s.cur → s.core.iocsw.getLsbD 12 = true → d = s.core.t) := by
  obtain ⟨d, hwrite, hd⟩ := State.writeData_eq (s.setCore (touched s.core 0x141#9)) s.core.t
  simp only [State.core_setCore] at hwrite hd
  refine ⟨d, ?_, hd⟩
  unfold State.access
  simp only [haddr, State.cur_setCore, hplace, hstore, if_true, State.complete, State.core_setCore,
    NodeState.touchBus_eq_touched]
  rw [show (touched s.core 0x141#9).t = s.core.t from rfl, hwrite, State.core_setCore, State.setCore_setCore,
    State.setCore_setCore, MemOp.finish_setDevice, MemOp.finish_eq_finished]
  rfl

/-- Settles O45, for the opcodes and for the fetch. -/
theorem dataAccess : Obligations.DataAccess := by
  refine ⟨fun i op s hop haddr hplace => ⟨fun hread => ?_, fun hstore => ?_⟩,
    fun s n hturn hfetching haddr hplace => ?_⟩
  · rw [exec_memory hop]
    exact State.access_data_load i.slot hread haddr hplace
  · rw [exec_memory hop]
    exact State.access_data_store i.slot hstore haddr hplace
  · have hio : ((s.node n).p.extractLsb' 0 9).getLsbD 8 = true := by
      rw [haddr]
      rfl
    obtain ⟨v, hrun, hv⟩ := State.access_data_load (s := begins s n) (op := .instr) .s0 rfl haddr hplace
    refine ⟨v, ?_, hv⟩
    rw [step_of_fetching hturn hfetching, hrun, ← finished_instr hio]
    rfl

end Sys2Proof.Machine

/-! # What moves a wake input: stores to IOCS, and the environment (R310, R326, R333, R338, R341 to R343, R402)

Proves `Obligations.IocsStore` and `DeviceClocks`. Both change a wake input or a device and then look at the node: its
detector follows the input (`rearmed_rearm`), and it may wake (`wokenFrom_wake`); the two together are `InputMoved`. -/

namespace Sys2Proof.Machine

open Sys2Proof.Statement

/-! ### Looking at a node -/

/-- R332: a store that sleeps has been in the latch since it began. -/
theorem latched_of_sleeping {n : Node} {c : NodeState} {op : MemOp} {a : Addr} (h : c.blocked = some op) :
    Latched n c op a c.dev := by
  rw [Latched, if_neg fun hbegins => hbegins.2.2.2 h]

/-- No bus node is node 04, whose latch drives their lines. -/
theorem four_ne_of_onBus {n : Node} (h : OnBus n) : (4 : Node) ≠ n := by
  rintro rfl
  exact absurd h (by decide)

/-- R325 to R328: what looking at node n of `u` makes of it. Of the rest of the chip only the latch of node 04 matters,
and that on the buses alone. -/
theorem wokenFrom_wake {t u : State} {n : Node} (hn : t.node n = (u.wake n).node n)
    (h4 : OnBus n → (t.node 4).iocsw = (u.node 4).iocsw) : WokenFrom t n (u.node n) := by
  have hstate (a : Addr) : (t.setNode n (u.node n)).wakeState n a = u.wakeState n a := by
    have hown := State.node_setNode_same t n (u.node n)
    refine State.wakeState_congr (by rw [hown]) (by rw [hown]) (by rw [hown]) (by rw [hown]) fun hbus => ?_
    rw [State.node_setNode_ne _ _ (four_ne_of_onBus hbus), h4 hbus]
  have hready (a : Addr) : PinReady (t.setNode n (u.node n)) n a ↔ PinReady u n a := by
    rw [← State.wakeState_eq_true, ← State.wakeState_eq_true, hstate]
  have hidle (a : Addr) : PinIdle (t.setNode n (u.node n)) n a ↔ PinIdle u n a := by
    rw [← State.wakeState_eq_false, ← State.wakeState_eq_false, hstate]
  unfold State.wake at hn
  cases hb : (u.node n).blocked with
  | none =>
    simp only [hb] at hn
    exact ⟨.inl hn, fun op hop => by cases hb.symm.trans hop⟩
  | some op =>
    simp only [hb] at hn
    cases hpin : u.pinReady n (op.addr (u.node n)) with
    | true =>
      rw [if_pos hpin] at hn
      obtain ⟨e, he, hdone⟩ := State.pinCompletes_spec (s := u) (c := u.node n) rfl
        (latched_of_sleeping hb) (u.node n).slot
      rw [he, State.node_setNode_same] at hn
      have hwakes : Wakes t n (u.node n) := ⟨op, hb, State.pinSelected_of_pinReady hpin, hn ▸ hdone⟩
      refine ⟨.inr hwakes, fun op' hop _ => ⟨fun _ => hwakes, fun hno => ?_⟩⟩
      cases hb.symm.trans hop
      cases hpin.symm.trans (State.pinReady_of_idle ((hidle _).1 hno))
    | false =>
      rw [if_neg (by rw [hpin]; decide)] at hn
      refine ⟨.inl hn, fun op' hop hsel => ⟨fun hyes => ?_, fun _ => hn⟩⟩
      cases hb.symm.trans hop
      cases hpin.symm.trans (State.pinReady_of_ready hsel ((hready _).1 hyes))

/-- R402: the detector of node n of `u` follows its wake input, which is the same in `t`. -/
theorem rearmed_rearm {t u : State} {n : Node} (hx : (t.node n).disarmedBy = ((u.rearm n).node n).disarmedBy)
    (hi : (t.node n).iocsw = (u.node n).iocsw) (he : (t.node n).ext.p17 = (u.node n).ext.p17)
    (h4 : OnBus n → (t.node 4).iocsw = (u.node 4).iocsw) : Rearmed t n (u.node n).disarmedBy := by
  intro w hw
  rw [← State.wakeLevel_eq_wakeInput, State.wakeLevel_congr hi he h4] at hw
  rw [hx, hi, ← wakeCondition_iff]
  unfold State.rearm State.leftWakeLevel
  simp only [hw]
  cases wakeCondition n (u.node n).iocsw w <;> simp

/-- The detector alone follows. -/
theorem State.rearm_node (u : State) (n : Node) :
    (u.rearm n).node n = { u.node n with disarmedBy := ((u.rearm n).node n).disarmedBy } := by
  rcases u.rearm_cases n with h | h <;> rw [h]
  rw [State.node_setNode_same]

/-- R326, R402: both. -/
theorem inputMoved_wakeInputMoved {t u : State} {n : Node} (hn : t.node n = (u.wakeInputMoved n).node n)
    (h4 : OnBus n → (t.node 4).iocsw = (u.node 4).iocsw) : InputMoved t n (u.node n) := by
  refine ⟨((u.rearm n).node n).disarmedBy, ?_, ?_⟩ <;> rw [← u.rearm_node n]
  · have hown := State.node_setNode_same t n ((u.rearm n).node n)
    refine rearmed_rearm (by rw [hown]) ?_ ?_ fun hbus => ?_
    · rw [hown, u.rearm_node n]
    · rw [hown, u.rearm_node n]
    · rw [State.node_setNode_ne _ _ (four_ne_of_onBus hbus), h4 hbus]
  · refine wokenFrom_wake hn fun hbus => ?_
    rw [h4 hbus, State.rearm_other _ (four_ne_of_onBus hbus)]

theorem State.wake_other (s : State) {n m : Node} (hm : m ≠ n) : (s.wake n).node m = s.node m := by
  rcases s.wake_cases n with h | ⟨e, h, -⟩ <;> rw [h]
  exact State.node_setNode_ne s _ hm

/-- Node n is looked at after an event left it as `c`. -/
theorem State.wokenFrom_setNode (s : State) (n : Node) (c : NodeState) : WokenFrom ((s.setNode n c).wake n) n c := by
  have h := wokenFrom_wake (t := (s.setNode n c).wake n) (u := s.setNode n c) (n := n) rfl fun hbus => by
    rw [State.wake_other _ (four_ne_of_onBus hbus)]
  rwa [State.node_setNode_same] at h

/-- The same where its wake input may have moved. -/
theorem State.inputMoved_setNode (s : State) (n : Node) (c : NodeState) :
    InputMoved ((s.setNode n c).wakeInputMoved n) n c := by
  have h := inputMoved_wakeInputMoved (t := (s.setNode n c).wakeInputMoved n) (u := s.setNode n c) (n := n) rfl
    fun hbus => by rw [State.wakeInputMoved_other _ (four_ne_of_onBus hbus)]
  rwa [State.node_setNode_same] at h

/-! ### A store to IOCS -/

/-- The node after a write of `v` to its IOCS (R310, R320, R333): the latch, the device and the link. -/
theorem State.latchIocs_eq (s : State) (n : Node) (v : Word) :
    ∃ d, s.latchIocs n v = s.setNode n { s.node n with
        iocsw := v
        dev := d
        linkReady := if OnSerdes n ∧ v.getLsbD 17 ≠ (s.node n).iocsw.getLsbD 17 then false else (s.node n).linkReady } ∧
      (¬ (OnBus n ∧ (s.node n).iocsw.getLsbD 12 = true ∧ v.getLsbD 12 = false) → d = (s.node n).dev) ∧
      ∀ pins, OnBus n ∧ (s.node n).iocsw.getLsbD 12 = true ∧ v.getLsbD 12 = false → (s.node n).ext.bus = some pins →
        d = pins := by
  have hturns : (decide (deviceOf n = .bus) && (s.node n).busOutput && !v.getLsbD 12) = true ↔
      OnBus n ∧ (s.node n).iocsw.getLsbD 12 = true ∧ v.getLsbD 12 = false := by
    simp [NodeState.busOutput, deviceOf_bus, and_assoc]
  have hlink : (!(decide (deviceOf n = .serdes) && (v.getLsbD 17 != (s.node n).serdesSending)) && (s.node n).linkReady) =
      if OnSerdes n ∧ v.getLsbD 17 ≠ (s.node n).iocsw.getLsbD 17 then false else (s.node n).linkReady := by
    have hswitch : (decide (deviceOf n = .serdes) && (v.getLsbD 17 != (s.node n).serdesSending)) = true ↔
        OnSerdes n ∧ v.getLsbD 17 ≠ (s.node n).iocsw.getLsbD 17 := by
      simp [NodeState.serdesSending, deviceOf_serdes]
    simp only [← hswitch]
    cases decide (deviceOf n = .serdes) && (v.getLsbD 17 != (s.node n).serdesSending) <;> simp
  refine ⟨_, congrArg (fun l => s.setNode n { s.node n with iocsw := v, dev := _, linkReady := l }) hlink, ?_, ?_⟩
  · exact fun h => if_neg fun hb => h (hturns.1 hb)
  · intro pins h hpins
    rw [if_pos (hturns.2 h), State.capturedBus, hpins]
    exact BitVec.xor_zero

/-- The node after it: the detector has followed the wake input. -/
theorem State.latched_node (s : State) (n : Node) (v : Word) :
    ∃ d, (s.latched n v).node n = { s.node n with
        iocsw := v
        dev := d
        linkReady := if OnSerdes n ∧ v.getLsbD 17 ≠ (s.node n).iocsw.getLsbD 17 then false else (s.node n).linkReady
        disarmedBy := ((s.latched n v).node n).disarmedBy } ∧
      (¬ (OnBus n ∧ (s.node n).iocsw.getLsbD 12 = true ∧ v.getLsbD 12 = false) → d = (s.node n).dev) ∧
      ∀ pins, OnBus n ∧ (s.node n).iocsw.getLsbD 12 = true ∧ v.getLsbD 12 = false → (s.node n).ext.bus = some pins →
        d = pins := by
  obtain ⟨d, hlatch, hd⟩ := s.latchIocs_eq n v
  refine ⟨d, ?_, hd⟩
  rw [State.latched, State.rearm_node, hlatch, State.node_setNode_same]

/-- R402: that detector. -/
theorem rearmed_latched {s t : State} {n : Node} {v : Word}
    (hx : (t.node n).disarmedBy = ((s.latched n v).node n).disarmedBy) (hi : (t.node n).iocsw = v)
    (he : (t.node n).ext = (s.node n).ext) (h4 : OnBus n → (t.node 4).iocsw = (s.node 4).iocsw) :
    Rearmed t n (s.node n).disarmedBy := by
  obtain ⟨dev, link, hlatch, -⟩ := s.latchIocs_spec n v
  have hown : (s.latchIocs n v).node n = { s.node n with iocsw := v, dev := dev, linkReady := link } := by
    rw [hlatch, State.node_setNode_same]
  rw [show (s.node n).disarmedBy = ((s.latchIocs n v).node n).disarmedBy by rw [hown]]
  refine rearmed_rearm hx (by rw [hown, hi]) (by rw [hown, he]) fun hbus => ?_
  rw [h4 hbus, hlatch, State.node_setNode_ne _ _ (four_ne_of_onBus hbus)]

/-- A completed access leaves what a write of IOCS sets. -/
theorem MemOp.finish_setIocs (op : MemOp) (sl : Slot) (v : Word) (c : NodeState) (iocsw dev : Word) (link : Bool)
    (x : Option Addr) :
    op.finish sl v { c with iocsw := iocsw, dev := dev, linkReady := link, disarmedBy := x } =
      { op.finish sl v c with iocsw := iocsw, dev := dev, linkReady := link, disarmedBy := x } := by
  cases op with
  | instr => rfl
  | fetchA | storeA | fetchAInc | storeAInc | fetchB | storeB | fetchPInc | storePInc => cases sl <;> rfl

/-- Of such a node what the use of the bus did to the detector does not show. -/
theorem finished_touched_iocs (op : MemOp) (sl : Slot) (v : Word) (c : NodeState) (a : Addr) (iocsw dev : Word)
    (link : Bool) (x : Option Addr) :
    { finished op sl v (touched c a) with iocsw := iocsw, dev := dev, linkReady := link, disarmedBy := x } =
      { finished op sl v c with iocsw := iocsw, dev := dev, linkReady := link, disarmedBy := x } := by
  rw [← MemOp.finish_eq_finished, ← MemOp.finish_eq_finished, ← MemOp.finish_setIocs, ← MemOp.finish_setIocs]
  rfl

/-- R325, R334: node 04's write of IOCS moves the wake inputs of the two buses. -/
theorem State.inputMoved_writeIocs {s t : State} {v : Word} {n : Node} (hbus : OnBus n)
    (hn : t.node n = (s.writeIocs 4 v).node n) (h4 : (t.node 4).iocsw = ((s.writeIocs 4 v).node 4).iocsw) :
    InputMoved t n (s.node n) := by
  rw [State.writeIocs_self] at h4
  rw [State.writeIocs_four] at hn
  rcases hbus with rfl | rfl
  · rw [State.wakeInputMoved_other _ (by decide)] at hn
    rw [← s.latched_other v (show (3 : Node) ≠ 4 by decide)]
    exact inputMoved_wakeInputMoved hn fun _ => h4
  · rw [← s.latched_other v (show (5 : Node) ≠ 4 by decide),
      ← (s.latched 4 v).wakeInputMoved_other (show (5 : Node) ≠ 3 by decide)]
    refine inputMoved_wakeInputMoved hn fun _ => ?_
    rw [h4, State.wakeInputMoved_other _ (by decide)]

/-- R310: a store to IOCS completes; the running node has written its latch, and the others are as that left them. -/
theorem State.access_iocs_written {s : State} {op : MemOp} (sl : Slot) (hstore : op.isStore = true)
    (haddr : op.addr s.core = 0x15D#9) :
    ∃ t, s.access op sl = .next t ∧
      t.core = op.finish sl 0#18 (((s.setCore (touched s.core 0x15D#9)).latched s.cur s.core.t).node s.cur) ∧
      ∀ n, n ≠ s.cur → t.node n = ((s.setCore (touched s.core 0x15D#9)).writeIocs s.cur s.core.t).node n := by
  have hrun := State.access_iocs_store sl hstore haddr
  rw [NodeState.touchBus_eq_touched] at hrun
  have hcur : ((s.setCore (touched s.core 0x15D#9)).writeIocs s.cur s.core.t).cur = s.cur :=
    (State.writeIocs_spec _ _ _).1
  refine ⟨_, hrun, ?_, fun n hn => ?_⟩
  · rw [State.core_complete, ← State.writeIocs_self, State.core, hcur]
  · rw [State.node_complete, hcur, if_neg hn]

/-- Settles O41, the running node first. -/
theorem iocsStore : Obligations.IocsStore := by
  intro i op s hop hstore haddr turnsToInput
  obtain ⟨t, hrun, hown, hothers⟩ := State.access_iocs_written i.slot hstore haddr
  obtain ⟨hcur, hagenda, htick, hepoch⟩ := State.access_rest hrun
  refine ⟨t, (exec_memory hop s).trans hrun, hcur, hagenda, htick, hepoch, ?_⟩
  obtain ⟨d, hnode, hd⟩ := (s.setCore (touched s.core 0x15D#9)).latched_node s.cur s.core.t
  generalize hst : s.setCore (touched s.core 0x15D#9) = st at *
  have hst_own : st.node s.cur = touched s.core 0x15D#9 := by rw [← hst, State.node_setCore_cur]
  have hst_other (n : Node) (hn : n ≠ s.cur) : st.node n = s.node n := by rw [← hst, State.node_setCore_ne _ _ hn]
  have ht_own : t.node s.cur = t.core := by rw [State.core, hcur]
  have hdetector : t.core.disarmedBy = ((st.latched s.cur s.core.t).node s.cur).disarmedBy := by
    rw [hown, MemOp.finish_disarmedBy]
  have hlatch : t.core.iocsw = s.core.t := by rw [hown, MemOp.finish_iocsw, hnode]
  have hext : t.core.ext = (st.node s.cur).ext := by rw [hown, MemOp.finish_ext, hnode]
  rw [hst_own] at hnode hd
  rw [hnode, MemOp.finish_setIocs, ← hdetector, MemOp.finish_eq_finished, finished_touched_iocs] at hown
  have hdev : t.core.dev = d := by rw [hown]
  refine ⟨by rw [hdev]; exact hown, hdev ▸ hd.1, hdev ▸ hd.2, ?_, fun n hn => ⟨fun hfour hbus => ?_, fun hno => ?_⟩⟩
  · rw [← hst_own]
    refine rearmed_latched (ht_own ▸ hdetector) (ht_own ▸ hlatch) (ht_own ▸ hext) fun hbus => ?_
    have hfour : s.cur ≠ 4 := by
      intro h
      rw [h] at hbus
      exact absurd hbus (by decide)
    rw [hothers 4 hfour.symm, State.writeIocs_other _ _ hfour.symm (.inl hfour)]
  · rw [← hst_other n hn]
    refine State.inputMoved_writeIocs (v := s.core.t) hbus (by rw [hothers n hn, hfour]) ?_
    rw [← hfour, ht_own, hlatch, State.writeIocs_self, hnode]
  · rw [hothers n hn, State.writeIocs_other _ _ hn hno, hst_other n hn]

/-! ### The environment -/

/-- A step of the environment that is aimed at node n: what it makes of the node, all other nodes being as before. -/
theorem step_event_aimed {s : State} {e : Event} {n : Node} (hturn : s.turn = .event e) (haim : eventNode e = some n)
    {P : State → Prop} (h : P (s.taken.applyEvent e)) :
    ∃ t, step s = .next t ∧ (∀ m, m ≠ n → t.node m = s.node m) ∧ P t :=
  ⟨_, step_of_event hturn, fun _ hm => s.taken.applyEvent_other haim hm, h⟩

/-- R316: which control bits turn the VCO off. -/
theorem vcoInput_off (w : Word) : vcoInput w = .off ↔ w.getLsbD 14 = true ∧ w.getLsbD 13 = false := by
  unfold vcoInput
  cases w.getLsbD 14 <;> cases w.getLsbD 13 <;> decide

/-- R338: an ADC counter counts unless its VCO is off. -/
theorem State.applyVco_node {s : State} {n : Node} (h : Analog n) (k : Nat) :
    (s.applyVco n k).node n = { s.node n with
      dev := if (s.node n).iocsw.getLsbD 14 = true ∧ (s.node n).iocsw.getLsbD 13 = false then (s.node n).dev
        else BitVec.ofNat 18 ((s.node n).dev.toNat + k) } := by
  have hadc := (deviceOf_adc n).2 h
  unfold State.applyVco
  simp only [Ne, vcoInput_off]
  by_cases hoff : (s.node n).iocsw.getLsbD 14 = true ∧ (s.node n).iocsw.getLsbD 13 = false
  · rw [if_pos hoff, if_neg fun hon => hon.2 hoff]
  · have hsum : (s.node n).dev + BitVec.ofNat 18 k = BitVec.ofNat 18 ((s.node n).dev.toNat + k) := by
      rw [BitVec.ofNat_add, BitVec.ofNat_toNat, BitVec.setWidth_eq]
    rw [if_neg hoff, if_pos ⟨hadc, hoff⟩, State.node_setNode_same, hsum]

/-- A word shifted left with a bit put in at bit 0. -/
theorem shifted_bit0 (x : Word) (b : Bool) :
    setField (x <<< 1) 0 (BitVec.ofBool b) = x.extractLsb' 0 17 ++ BitVec.ofBool b := by
  refine (setField_zero_eq_append (m := 17) (n := 1) (x <<< 1) (BitVec.ofBool b)).trans
    (congrArg (· ++ BitVec.ofBool b) ?_)
  apply eq_of_bits
  intro k hk
  rw [BitVec.getLsbD_extractLsb', BitVec.getLsbD_extractLsb', BitVec.getLsbD_shiftLeft]
  simp [show 1 + k < 18 by omega]

/-- R341: a clock of a serdes link. -/
theorem State.applySerdesClock_node {s : State} {n : Node} (h : OnSerdes n) (bit : Bool) :
    ∃ x, (s.applySerdesClock n bit).node n =
        { s.node n with dev := (s.node n).dev.extractLsb' 0 17 ++ BitVec.ofBool x } ∧
      ((s.node n).iocsw.getLsbD 17 = false → x = bit) := by
  unfold State.applySerdesClock
  rw [if_pos ((deviceOf_serdes n).2 h), State.node_setNode_same]
  refine ⟨_, congrArg (fun d => { s.node n with dev := d }) (shifted_bit0 _ _), fun hreceives => ?_⟩
  rw [NodeState.serdesSending, hreceives]
  rfl

/-- R341, R343: a word arrives. -/
theorem State.applySerdesWord_node {s : State} {n : Node} (h : OnSerdes n) (w : Word) :
    if (s.node n).iocsw.getLsbD 17 then (s.applySerdesWord n w).node n = s.node n
    else WokenFrom (s.applySerdesWord n w) n { s.node n with dev := w, linkReady := true } := by
  have hserdes := (deviceOf_serdes n).2 h
  unfold State.applySerdesWord
  rw [NodeState.serdesSending]
  by_cases hsends : (s.node n).iocsw.getLsbD 17 = true
  · rw [if_pos hsends, if_neg (by simp [hsends])]
  · rw [if_neg hsends, if_pos ⟨hserdes, by simpa using hsends⟩]
    exact s.wokenFrom_setNode n _

/-- R342: a word has been sent. -/
theorem State.applySerdesSent_node {s : State} {n : Node} (h : OnSerdes n) :
    if (s.node n).iocsw.getLsbD 17 then WokenFrom (s.applySerdesSent n) n { s.node n with linkReady := true }
    else (s.applySerdesSent n).node n = s.node n := by
  have hserdes := (deviceOf_serdes n).2 h
  unfold State.applySerdesSent
  rw [NodeState.serdesSending]
  by_cases hsends : (s.node n).iocsw.getLsbD 17 = true
  · rw [if_pos hsends, if_pos ⟨hserdes, hsends⟩]
    exact s.wokenFrom_setNode n _
  · rw [if_neg hsends, if_neg fun hs => hsends hs.2]

/-- R333: the levels at the bus pins. -/
theorem State.applyBusPins_node {s : State} {n : Node} (h : OnBus n) (levels : Option Word) :
    ∃ dev, (s.applyBusPins n levels).node n =
        { s.node n with ext := { (s.node n).ext with bus := levels }, dev := dev } ∧
      ((s.node n).iocsw.getLsbD 12 = true → dev = (s.node n).dev) ∧
      ∀ pins, (s.node n).iocsw.getLsbD 12 = false → levels = some pins → dev = pins := by
  unfold State.applyBusPins
  rw [if_pos ((deviceOf_bus n).2 h)]
  simp only [State.setNode_setNode, State.node_setNode_same, State.busNow, NodeState.busOutput, State.capturedBus]
  refine ⟨_, rfl, fun hout => if_pos hout, fun pins hin hpins => ?_⟩
  rw [if_neg (by rw [hin]; decide), hpins]
  exact BitVec.xor_zero

/-- R313: the level forced on a pin, and no other. -/
theorem Ext.withPin_spec (e : Ext) (q : Pin) (level : Option Bool) :
    (∀ q', (e.withPin q level).at q' = if q' = q then level else e.at q') ∧ (e.withPin q level).bus = e.bus := by
  refine ⟨fun q' => ?_, ?_⟩
  · cases q <;> cases q' <;> rfl
  · cases q <;> rfl

/-- R313, R326, R402: a pin takes a level. -/
theorem State.applyPin_node {s : State} {n : Node} {q : Pin} (h : pinRead n q = true) (level : Option Bool) :
    InputMoved (s.applyPin n q level) n { s.node n with ext := (s.node n).ext.withPin q level } := by
  unfold State.applyPin
  rw [if_pos h]
  exact s.inputMoved_setNode n _

/-- Settles O60, event by event. -/
theorem deviceClocks : Obligations.DeviceClocks := by
  refine ⟨fun s n k hturn h => ?_, fun s n bit hturn h => ?_, fun s n w hturn h => ?_, fun s n hturn h => ?_,
    fun s n levels hturn h => ?_, fun s n q level hturn h => ?_⟩
  · exact step_event_aimed hturn rfl (State.applyVco_node (s := s.taken) h k)
  · obtain ⟨x, hnode, hx⟩ := State.applySerdesClock_node (s := s.taken) h bit
    exact ⟨_, x, step_of_event hturn, fun m hm => s.taken.applyEvent_other rfl hm, hnode, hx⟩
  · exact step_event_aimed hturn rfl (State.applySerdesWord_node (s := s.taken) h w)
  · exact step_event_aimed hturn rfl (State.applySerdesSent_node (s := s.taken) h)
  · obtain ⟨dev, hdev⟩ := State.applyBusPins_node (s := s.taken) h levels
    exact ⟨_, dev, step_of_event hturn, fun m hm => s.taken.applyEvent_other rfl hm, hdev⟩
  · obtain ⟨hat, hbus⟩ := (s.node n).ext.withPin_spec q level
    exact ⟨_, _, step_of_event hturn, fun m hm => s.taken.applyEvent_other rfl hm, hat, hbus,
      State.applyPin_node (s := s.taken) h level⟩

end Sys2Proof.Machine

/-! # The map of the nodes, steps and reset

Proves `Obligations.IoMap`, `NeighbourPattern`, `StepRunsDecoded`, `InstructionFetch`, `ResetState`, `ResetEvent`,
`ResetInvariants` and `IocsFields`. -/

namespace Sys2Proof.Machine

open Sys2Proof.Statement

/-! ### The I/O addresses (R62, R69, R272) -/

/-- R272: an address with another low nibble selects no port. -/
theorem portDefined_of_nibble {a : Addr} (h : a.extractLsb' 0 4 ≠ 5#4) (n : Node) : portDefined n a = false := by
  have hnone (d : Dir) : selects a d = false := by
    unfold selects
    rw [beq_eq_false_iff_ne.2 h, Bool.and_false, Bool.false_and]
  simp [portDefined, allDirs, hnone]

/-- The sixteen I/O addresses with low nibble 5. -/
def portAddr (k : Fin 16) : Addr := BitVec.ofNat 9 (0x105 + 16 * k.val)

theorem exists_portAddr {a : Addr} (h8 : a.getLsbD 8 = true) (h4 : a.extractLsb' 0 4 = 5#4) : ∃ k, a = portAddr k := by
  have hlow : a.toNat % 16 = 5 := by simpa using congrArg BitVec.toNat h4
  have hhigh : 256 ≤ a.toNat := by
    rw [← BitVec.testBit_toNat] at h8
    exact Nat.ge_two_pow_of_testBit h8
  have hlt := a.isLt
  refine ⟨⟨(a.toNat - 0x105) / 16, by omega⟩, BitVec.eq_of_toNat_eq ?_⟩
  rw [portAddr, BitVec.toNat_ofNat]
  dsimp only
  omega

/-- What an I/O address names, as the spec's tables list it. -/
def ioMapPlace (n : Node) (a : Addr) : Place :=
  if a = 0x15D#9 then .iocs
  else if a = 0x141#9 then (if n ∈ ([1, 3, 5, 31, 36, 37, 39] : List Node) then .data else .undefined)
  else if a ∈ ([0x1D5#9, 0x115#9, 0x105#9, 0x125#9, 0x135#9, 0x165#9, 0x185#9, 0x195#9, 0x1A5#9, 0x1B5#9,
    0x1C5#9, 0x1E5#9, 0x1F5#9] : List Addr) then .port
  else if a = 0x175#9 then (if n ∈ ([0, 9, 30] : List Node) then .undefined else .port)
  else if a = 0x145#9 then (if n ∈ ([0, 2, 6, 7, 8, 9, 30, 34, 35] : List Node) then .undefined else .port)
  else .undefined

theorem place_portAddr (k : Fin 16) : ∀ n, place n (portAddr k) = ioMapPlace n (portAddr k) := by
  fin_cases k <;> decide

theorem place_iocs_data (n : Node) :
    place n 0x15D#9 = ioMapPlace n 0x15D#9 ∧ place n 0x141#9 = ioMapPlace n 0x141#9 := by
  revert n
  decide

/-- The addresses of the table, but for IOCS and DATA, have low nibble 5. -/
theorem ioMapPlace_of_nibble {a : Addr} (h : a.extractLsb' 0 4 ≠ 5#4) (hiocs : a ≠ 0x15D#9) (hdata : a ≠ 0x141#9)
    (n : Node) : ioMapPlace n a = .undefined := by
  have hnot (b : Addr) (hb : b.extractLsb' 0 4 = 5#4) : a ≠ b := fun he => h (he ▸ hb)
  unfold ioMapPlace
  rw [if_neg hiocs, if_neg hdata, if_neg (by simp [hnot]), if_neg (hnot _ rfl), if_neg (hnot _ rfl)]

/-- Settles O9: by the low nibble. -/
theorem ioMap : Obligations.IoMap := by
  intro n a h8
  change place n a = ioMapPlace n a
  by_cases h4 : a.extractLsb' 0 4 = 5#4
  · obtain ⟨k, rfl⟩ := exists_portAddr h8 h4
    exact place_portAddr k n
  by_cases hiocs : a = 0x15D#9
  · rw [hiocs]
    exact (place_iocs_data n).1
  by_cases hdata : a = 0x141#9
  · rw [hdata]
    exact (place_iocs_data n).2
  rw [ioMapPlace_of_nibble h4 hiocs hdata, place, if_neg (by rw [h8]; decide), if_neg hiocs, if_neg hdata,
    portDefined_of_nibble h4]
  rfl

/-! ### The neighbours (R271, R346) -/

/-- Settles O11: the formula over the 40 nodes, and the law of the links. -/
theorem neighbourPattern : Obligations.NeighbourPattern :=
  ⟨by decide, by decide, by decide, by decide, fun _ _ _ h => neighbour_symm h⟩

/-! ### Steps -/

/-- Settles O13: the fetch of `FetchFollows`, in the node's step. -/
theorem instructionFetch : Obligations.InstructionFetch := by
  intro s n hturn hfetching h8
  rw [step_of_turn hturn]
  exact fetchFollows (begins s n) hfetching h8

/-- Settles O12. -/
theorem stepRunsDecoded : Obligations.StepRunsDecoded := by
  intro s n hturn
  refine ⟨fun i _ hrunning hdecode => hdecode ▸ step_of_not_fetching hturn hrunning, fun hfetching h8 => ?_⟩
  refine ⟨_, instructionFetch s n hturn hfetching h8, fun u i hnode hturn' hdecode => ?_⟩
  have hfetched := hnode.trans (State.node_setNode_same s n _)
  have hrunning : (u.node n).fetching = false := by rw [hfetched]
  rw [step_of_not_fetching hturn' hrunning, hfetched, ← hdecode]
  rfl

/-! ### Reset (R44, R380, R383, R386) -/

/-- R312: $15555 pulls every pin down weakly. -/
theorem driverOf_reset (q : Pin) : driverOf 0x15555#18 q = .weakPullDown := by
  cases q <;> decide

theorem State.reset_wakeLine (n : Node) : State.reset.wakeLine n = false := by
  rw [State.wakeLine, State.reset_iocsw]
  split <;> decide

/-- R330: the buses at reset. -/
theorem State.reset_busDev {n : Node} (h : OnBus n) : (State.reset.node n).dev = 0x2AAAA#18 := by
  rw [State.reset_node]
  exact if_pos h

/-- Settles O14. -/
theorem resetState : Obligations.ResetState := by
  intro n
  refine ⟨State.reset_iocsw n, ?_, fun hserdes => ?_, ?_, ?_, ?_, fun d => ?_, fun q hq => ?_, fun hbus => ?_, fun _ => ?_,
    fun _ => ?_⟩
  · rw [State.reset_node]
    exact resetP_bit9 n
  · rw [State.reset_node]
    exact if_pos hserdes
  · rw [State.reset_node]
    rfl
  · rw [State.reset_node]
    rfl
  · rw [State.reset_node]
    rfl
  · refine State.req_awake ?_ d
    rw [State.reset_node]
    rfl
  · rw [State.pinOutput, if_pos hq, State.reset_iocsw, driverOf_reset]
  · refine ⟨?_, State.reset_busDev hbus, State.reset_wakeLine n, ?_⟩
    · rw [State.busOutputLevels_eq, State.reset_iocsw, State.reset_busDev hbus]
      exact if_pos ⟨hbus, by decide⟩
    · rw [State.readIocs_wakeLine hbus, State.reset_wakeLine, Bool.not_false]
  · rw [State.reset_iocsw]
    decide
  · rw [NodeState.serdesSending, State.reset_iocsw]
    decide

/-- Settles O15. -/
theorem resetEvent : Obligations.ResetEvent := by
  intro s hturn
  refine ⟨_, step_of_event hturn, fun n => ?_⟩
  have hnode : (s.taken.applyEvent .reset).node n = _ := s.taken.applyReset_node n
  have hawake : ((s.taken.applyEvent .reset).node n).blocked = none := by
    rw [hnode]
    rfl
  refine ⟨by rw [hnode]; rfl, by rw [hnode]; rfl, by rw [hnode]; rfl, fun h => h hawake, fun d => State.req_awake hawake d,
    fun hbus => ?_, by rw [hnode]; rfl, by rw [hnode]; rfl⟩
  rw [hnode]
  exact if_pos hbus

/-- Settles O18: nothing is written and nothing sleeps. -/
theorem resetInvariants : Obligations.ResetInvariants := by
  have hawake (n : Node) : (State.reset.node n).blocked = none := by
    rw [State.reset_node]
    rfl
  refine ⟨fun n => ?_, fun n op h => ?_, fun n d m v _ h => ?_, fun n op h => ?_⟩
  · rw [State.reset_node]
    rfl
  · cases (hawake n).symm.trans h
  · rw [State.req_awake (hawake n)] at h
    cases h
  · cases (hawake n).symm.trans h

/-! ### The pins (R312, R313, R316, R317, R333, R341, R347) -/

/-- R312, Table 6.2. -/
theorem driverOf_eq (w : Word) (q : Pin) : driverOf w q =
    if w.getLsbD (pinBitNumber q) then .output (w.getLsbD (pinBitNumber q - 1))
    else if w.getLsbD (pinBitNumber q - 1) then .weakPullDown else .input := by
  unfold driverOf
  cases w.getLsbD (pinBitNumber q) <;> cases w.getLsbD (pinBitNumber q - 1) <;> rfl

/-- R316, Table 5.2. -/
theorem vcoInput_eq (w : Word) : vcoInput w = if w.getLsbD 14 then (if w.getLsbD 13 then .vss else .off)
    else if w.getLsbD 13 then .vdd else .pin := by
  unfold vcoInput
  cases w.getLsbD 14 <;> cases w.getLsbD 13 <;> rfl

/-- R313: the level of a pin that nothing outside forces. -/
theorem State.pinLevel_undriven {s : State} {n : Node} {q : Pin} (hdriven : pinDriven n q = true)
    (hat : (s.node n).ext.at q = none) :
    s.pinLevel n q = match driverOf (s.node n).iocsw q with
      | .input => none
      | .weakPullDown => some false
      | .output level => some level := by
  unfold State.pinLevel
  rw [hat]
  exact if_pos hdriven

/-- R341. -/
theorem State.serdesPad_eq (s : State) (n : Node) : s.serdesPad n =
    if OnSerdes n ∧ (s.node n).iocsw.getLsbD 17 = true then some ((s.node n).dev.getLsbD 17) else none := by
  rw [State.serdesPad, NodeState.serdesSending]
  simp only [deviceOf_serdes]

/-- Settles O59: the tables node by node, the rest from the equations. -/
theorem iocsFields : Obligations.IocsFields :=
  ⟨by decide, driverOf_eq, fun _ _ _ => State.pinLevel_undriven,
    fun s n q level h => by rw [State.pinLevel, h], vcoInput_eq, fun _ => rfl, fun _ _ _ => rfl, State.busOutputLevels_eq,
    State.serdesPad_eq⟩

end Sys2Proof.Machine

/-! # Who writes what (R43)

Proves `Obligations.RegisterWriters`. The core registers are told apart by `CoreWritten`, which a completed access
(`coreWritten_finish`) and an opcode (`coreWritten_opcode`) meet; everything else a step makes of a node leaves them.
RAM, the IOCS latch, the device and the link follow from the inversion of an access and of an event. -/

namespace Sys2Proof.Machine

open Sys2Proof.Statement

/-- R43: the core registers in which node state `e` differs from `c` are ones that the opcode or the fetch of `c`
writes. -/
structure CoreWritten (c e : NodeState) : Prop where
  b : e.b ≠ c.b → ∃ sl, opcodeOf c = some (.bStore sl)
  carry : e.carry ≠ c.carry → c.p.getLsbD 9 = true ∧ ∃ sl, opcodeOf c = some (.plus sl)
  a : e.a ≠ c.a → ∃ sl, opcodeOf c = some (.aStore sl) ∨ opcodeOf c = some (.fetchAInc sl) ∨
    opcodeOf c = some (.storeAInc sl) ∨ opcodeOf c = some (.plusStar sl)
  r : (e.r, e.rs, e.rp) ≠ (c.r, c.rs, c.rp) →
    (∃ f, opcodeOf c = some (.call f) ∨ opcodeOf c = some (.next f)) ∨
    ∃ sl, opcodeOf c = some (.ret sl) ∨ opcodeOf c = some (.coroutine sl) ∨ opcodeOf c = some (.unext sl) ∨
      opcodeOf c = some (.push sl) ∨ opcodeOf c = some (.pop sl)
  i : e.i ≠ c.i → c.fetching = true
  p : e.p ≠ c.p → c.fetching = true ∨
    (∃ sl, opcodeOf c = some (.fetchPInc sl) ∨ opcodeOf c = some (.storePInc sl)) ∨
    ∃ i, opcodeOf c = some i ∧ IsTransfer i
  t : (e.t, e.s, e.ds, e.dp) ≠ (c.t, c.s, c.ds, c.dp) →
    ∃ i, opcodeOf c = some i ∧ 8 ≤ i.opcode.toNat ∧ ∀ sl, i ≠ .nop sl

/-- Nothing changed. -/
theorem CoreWritten.of_same {c e : NodeState} (hb : e.b = c.b) (hcarry : e.carry = c.carry) (ha : e.a = c.a)
    (hr : (e.r, e.rs, e.rp) = (c.r, c.rs, c.rp)) (hi : e.i = c.i) (hp : e.p = c.p)
    (ht : (e.t, e.s, e.ds, e.dp) = (c.t, c.s, c.ds, c.dp)) : CoreWritten c e :=
  ⟨absurd hb, absurd hcarry, absurd ha, absurd hr, absurd hi, absurd hp, absurd ht⟩

/-! ### Accesses -/

/-- The access that a core makes next is its fetch's or its opcode's. -/
theorem pending_cases {c : NodeState} {op : MemOp} (h : c.pending = some op) :
    (c.fetching = true ∧ op = .instr) ∨ ∃ i, opcodeOf c = some i ∧ memOpOf i = some op := by
  unfold NodeState.pending at h
  split at h
  · next hf => exact .inl ⟨hf, (Option.some.inj h).symm⟩
  · next hf => exact .inr ⟨_, opcodeOf_of_not_fetching (Bool.eq_false_iff.2 hf), h⟩

/-- The opcodes that increment a pointer, from their accesses. -/
theorem instr_of_memOpOf (i : Instr) :
    (memOpOf i = some .fetchAInc → i = .fetchAInc i.slot) ∧ (memOpOf i = some .storeAInc → i = .storeAInc i.slot) ∧
      (memOpOf i = some .fetchPInc → i = .fetchPInc i.slot) ∧ (memOpOf i = some .storePInc → i = .storePInc i.slot) := by
  cases i <;> simp [memOpOf, Instr.slot]

/-- The memory opcodes have values $08 to $0F (R105). -/
theorem opcode_of_memOpOf {i : Instr} {op : MemOp} (h : memOpOf i = some op) :
    8 ≤ i.opcode.toNat ∧ ∀ sl, i ≠ .nop sl := by
  cases i with
  | fetchPInc | fetchAInc | fetchB | fetchA | storePInc | storeAInc | storeB | storeA =>
    exact ⟨by simp [Instr.opcode], fun _ => nofun⟩
  | _ => cases h

/-- A store is an opcode's. -/
theorem opcode_of_store {c : NodeState} {op : MemOp} (h : c.pending = some op) (hstore : op.isStore = true) :
    ∃ i, opcodeOf c = some i ∧ memOpOf i = some op := by
  rcases pending_cases h with ⟨-, rfl⟩ | hi
  · cases hstore
  · exact hi

theorem MemOp.finish_a_cases (op : MemOp) (sl : Slot) (v : Word) (c : NodeState) :
    (op.finish sl v c).a = c.a ∨ op = .fetchAInc ∨ op = .storeAInc := by
  cases op <;> simp [MemOp.finish, NodeState.afterMemory]

theorem MemOp.finish_p_cases (op : MemOp) (sl : Slot) (v : Word) (c : NodeState) :
    (op.finish sl v c).p = c.p ∨ op = .instr ∨ op = .fetchPInc ∨ op = .storePInc := by
  cases op <;> simp [MemOp.finish, NodeState.afterMemory]

theorem MemOp.finish_i_cases (op : MemOp) (sl : Slot) (v : Word) (c : NodeState) :
    (op.finish sl v c).i = c.i ∨ op = .instr := by
  cases op <;> simp [MemOp.finish, NodeState.afterMemory]

/-- R73, R160 to R168: what an access writes when it completes. -/
theorem coreWritten_finish {c : NodeState} {op : MemOp} (h : c.pending = some op) (sl : Slot) (v : Word) (ram : Ram)
    (iocsw dev : Word) (link : Bool) (x : Option Addr) (ext : Ext) :
    CoreWritten c (op.finish sl v
      { c with ram := ram, iocsw := iocsw, dev := dev, linkReady := link, disarmedBy := x, ext := ext }) := by
  have hopcode (hne : op ≠ .instr) : ∃ i, opcodeOf c = some i ∧ memOpOf i = some op :=
    (pending_cases h).resolve_left fun hf => hne hf.2
  have hfetching (he : op = .instr) : c.fetching = true := by
    rcases pending_cases h with hf | ⟨i, -, hm⟩
    · exact hf.1
    · rw [he] at hm
      cases i <;> cases hm
  constructor
  case b => exact fun hne => absurd (MemOp.finish_b ..) hne
  case carry => exact fun hne => absurd (MemOp.finish_carry ..) hne
  case r => exact fun hne => absurd (by rw [MemOp.finish_r, MemOp.finish_rs, MemOp.finish_rp]) hne
  case i => exact fun hne => hfetching ((MemOp.finish_i_cases ..).resolve_left hne)
  case a =>
    intro hne
    rcases (MemOp.finish_a_cases ..).resolve_left hne with rfl | rfl
    all_goals obtain ⟨i, hi, hm⟩ := hopcode nofun
    · exact ⟨i.slot, .inr (.inl ((instr_of_memOpOf i).1 hm ▸ hi))⟩
    · exact ⟨i.slot, .inr (.inr (.inl ((instr_of_memOpOf i).2.1 hm ▸ hi)))⟩
  case p =>
    intro hne
    rcases (MemOp.finish_p_cases ..).resolve_left hne with he | rfl | rfl
    · exact .inl (hfetching he)
    all_goals obtain ⟨i, hi, hm⟩ := hopcode nofun
    · exact .inr (.inl ⟨i.slot, .inl ((instr_of_memOpOf i).2.2.1 hm ▸ hi)⟩)
    · exact .inr (.inl ⟨i.slot, .inr ((instr_of_memOpOf i).2.2.2 hm ▸ hi)⟩)
  case t =>
    intro hne
    have hdata : op ≠ .instr := by
      rintro rfl
      exact hne rfl
    obtain ⟨i, hi, hm⟩ := hopcode hdata
    exact ⟨i, hi, opcode_of_memOpOf hm⟩

/-! ### The other opcodes -/

/-- R43: what the opcodes that make no access write, register by register. -/
theorem exec_core_writes {i : Instr} {s t : State} (hm : memOpOf i = none) (h : exec i s = .next t) :
    (t.core.b = s.core.b ∨ ∃ sl, i = .bStore sl) ∧
    (t.core.carry = s.core.carry ∨ s.core.p.getLsbD 9 = true ∧ ∃ sl, i = .plus sl) ∧
    (t.core.a = s.core.a ∨ ∃ sl, i = .aStore sl ∨ i = .plusStar sl) ∧
    ((t.core.r, t.core.rs, t.core.rp) = (s.core.r, s.core.rs, s.core.rp) ∨ (∃ f, i = .call f ∨ i = .next f) ∨
      ∃ sl, i = .ret sl ∨ i = .coroutine sl ∨ i = .unext sl ∨ i = .push sl ∨ i = .pop sl) ∧
    ((t.core.t, t.core.s, t.core.ds, t.core.dp) = (s.core.t, s.core.s, s.core.ds, s.core.dp) ∨
      8 ≤ i.opcode.toNat ∧ ∀ sl, i ≠ .nop sl) := by
  cases i with
  | fetchPInc | fetchAInc | fetchB | fetchA | storePInc | storeAInc | storeB | storeA => cases hm
  | unext | next | ifZero | minusIf =>
    injection h with h
    rw [← h, State.core_setCore]
    dsimp only
    split <;> simp
  | plus sl =>
    injection h with h
    rw [← h, State.core_setCore]
    cases hmode : s.core.extended with
    | false => simp [hmode, Instr.opcode]
    | true =>
      have hp9 : s.core.p.getLsbD 9 = true := hmode
      simp [hp9, Instr.opcode]
  | _ =>
    injection h with h
    rw [← h, State.core_setCore]
    simp [Instr.opcode]

/-- The same of the core that runs the opcode. -/
theorem coreWritten_opcode {i : Instr} {s t : State} (hrunning : opcodeOf s.core = some i) (hm : memOpOf i = none)
    (h : exec i s = .next t) : CoreWritten s.core t.core := by
  obtain ⟨hb, hcarry, ha, hr, ht⟩ := exec_core_writes hm h
  constructor
  case b =>
    intro hne
    obtain ⟨sl, rfl⟩ := hb.resolve_left hne
    exact ⟨sl, hrunning⟩
  case carry =>
    intro hne
    obtain ⟨hmode, sl, rfl⟩ := hcarry.resolve_left hne
    exact ⟨hmode, sl, hrunning⟩
  case a =>
    intro hne
    obtain ⟨sl, rfl | rfl⟩ := ha.resolve_left hne
    · exact ⟨sl, .inl hrunning⟩
    · exact ⟨sl, .inr (.inr (.inr hrunning))⟩
  case r =>
    intro hne
    simp only [hrunning, Option.some.injEq]
    exact hr.resolve_left hne
  case i => exact fun hne => absurd (exec_core_keeps hm h).2.2.2.1 hne
  case p =>
    intro hne
    refine .inr (.inr ⟨i, hrunning, ?_⟩)
    by_contra htransfer
    exact hne (exec_core_p hm htransfer h)
  case t => exact fun hne => ⟨i, hrunning, ht.resolve_left hne⟩

/-! ### Steps -/

/-- R43: the core registers after a step that is no reset. -/
theorem coreWritten_step {s t : State} (hs : s.SleepsInItsAccess) (hreset : s.turn ≠ .event .reset)
    (hstep : step s = .next t) (n : Node) : CoreWritten (s.node n) (t.node n) := by
  cases step_node hstep n with
  | access op sl turn pending runs =>
    rw [← core_of_access runs]
    rcases State.access_self runs with ⟨-, -, x, y, he, -⟩ | ⟨v, ram, iocsw, dev, link, x, he, -⟩
    · rw [he]
      exact .of_same rfl rfl rfl rfl rfl rfl rfl
    · rw [he]
      exact coreWritten_finish pending sl v ram iocsw dev link x _
  | opcode i turn running notMemory runs =>
    rw [← core_of_exec notMemory runs]
    exact coreWritten_opcode (s := s.onTurn n) running notMemory runs
  | reset turn => exact absurd turn hreset
  | keeps turn result =>
    obtain ⟨ext, dev, link, x, he⟩ := result
    rw [he]
    exact .of_same rfl rfl rfl rfl rfl rfl rfl
  | wakes turn result =>
    obtain ⟨op, v, ext, dev, x, hb, -, he, -⟩ := result
    rw [he]
    exact coreWritten_finish (hs n op hb) _ v _ _ dev false x ext
  | partner k op other v d turn pending blocked selected selectedBack link matching result =>
    rw [result]
    exact coreWritten_finish (hs n other blocked) _ v _ _ _ _ _ _

/-- R43: RAM and the IOCS latch change by a store of the node's own. -/
theorem stored_step {s t : State} (hreset : s.turn ≠ .event .reset) (hstep : step s = .next t) (n : Node) :
    ((t.node n).ram ≠ (s.node n).ram → ∃ i op k, opcodeOf (s.node n) = some i ∧ memOpOf i = some op ∧
      op.isStore = true ∧ place n (op.addr (s.node n)) = .ram k) ∧
    ((t.node n).iocsw ≠ (s.node n).iocsw → ∃ i op, opcodeOf (s.node n) = some i ∧ memOpOf i = some op ∧
      op.isStore = true ∧ op.addr (s.node n) = 0x15D#9) := by
  cases step_node hstep n with
  | access op sl turn pending runs =>
    rw [← core_of_access runs]
    rcases State.access_self runs with ⟨-, -, x, y, he, -⟩ | ⟨v, ram, iocsw, dev, link, x, he, hram, hiocs, -⟩
    · rw [he]
      exact ⟨absurd rfl, absurd rfl⟩
    · rw [he, MemOp.finish_ram, MemOp.finish_iocsw]
      refine ⟨fun hne => ?_, fun hne => ?_⟩
      · obtain ⟨hstore, k, hplace⟩ := hram hne
        obtain ⟨i, hi, hm⟩ := opcode_of_store pending hstore
        exact ⟨i, op, k, hi, hm, hstore, hplace⟩
      · obtain ⟨hstore, haddr⟩ := hiocs hne
        obtain ⟨i, hi, hm⟩ := opcode_of_store pending hstore
        exact ⟨i, op, hi, hm, hstore, haddr⟩
  | opcode i turn running notMemory runs =>
    obtain ⟨hram, hiocs, -⟩ := exec_core_keeps notMemory runs
    rw [← core_of_exec notMemory runs]
    exact ⟨absurd hram, absurd hiocs⟩
  | reset turn => exact absurd turn hreset
  | keeps turn result =>
    obtain ⟨ext, dev, link, x, he⟩ := result
    rw [he]
    exact ⟨absurd rfl, absurd rfl⟩
  | wakes turn result =>
    obtain ⟨op, v, ext, dev, x, -, -, he, -⟩ := result
    rw [he, MemOp.finish_ram, MemOp.finish_iocsw]
    exact ⟨absurd rfl, absurd rfl⟩
  | partner k op other v d turn pending blocked selected selectedBack link matching result =>
    rw [result, MemOp.finish_ram, MemOp.finish_iocsw]
    exact ⟨absurd rfl, absurd rfl⟩

/-! ### Devices -/

/-- R325: on the buses and the serdes nodes the pin direction is UP. -/
theorem selects_up_of_waitsForPin {n : Node} {a : Addr} (hdev : OnBus n ∨ OnSerdes n) (h : waitsForPin n a = true) :
    selects a .up = true := by
  have hleft : n ∉ ([10, 19, 20, 29, 39] : List Node) := by
    clear h
    revert n
    decide
  rcases (pinSelected_iff n a).2 h with ⟨-, hn⟩ | ⟨hup, -⟩
  · exact absurd hn hleft
  · exact hup

/-- The access that changes the device register of node n, which is `c` (R43): in its own step where `own` holds. -/
def DeviceAccess (n : Node) (c : NodeState) (own : Prop) (op : MemOp) : Prop :=
  (own ∧ op.isStore = true ∧ op.addr c = 0x15D#9 ∧ OnBus n) ∨
    (own ∧ op.isStore = true ∧ op.addr c = 0x141#9 ∧ (OnBus n ∨ OnSerdes n)) ∨
    ((own ∨ c.blocked = some op) ∧ selects (op.addr c) .up = true ∧ (OnBus n ∨ OnSerdes n))

/-- The access that changes the readiness of its link. -/
def LinkAccess (n : Node) (c : NodeState) (own : Prop) (op : MemOp) : Prop :=
  (own ∧ op.isStore = true ∧ (op.addr c = 0x15D#9 ∨ op.addr c = 0x141#9) ∧ OnSerdes n) ∨
    ((own ∨ c.blocked = some op) ∧ PinSelected n (op.addr c))

/-- A node that its pin or device wakes. -/
theorem NodeState.WokenTo.device {n : Node} {c e : NodeState} (h : c.WokenTo n e) (own : Prop) :
    (e.dev ≠ c.dev → ∃ op, c.blocked = some op ∧ DeviceAccess n c own op) ∧
      ∃ op, c.blocked = some op ∧ LinkAccess n c own op := by
  obtain ⟨op, v, ext, dev, x, hb, hw, he, hdev⟩ := h
  refine ⟨fun hne => ?_, op, hb, .inr ⟨.inr hb, (pinSelected_iff _ _).2 hw⟩⟩
  rw [he, MemOp.finish_dev] at hne
  have hn : OnBus n ∨ OnSerdes n := (hdev hne).imp (deviceOf_bus n).1 (deviceOf_serdes n).1
  exact ⟨op, hb, .inr (.inr ⟨.inr hb, selects_up_of_waitsForPin hn hw, hn⟩)⟩

/-- The node that makes the access. -/
theorem State.access_device {s t : State} {op : MemOp} {sl : Slot} (h : s.access op sl = .next t) {own : Prop}
    (hown : own) :
    (t.core.dev ≠ s.core.dev → DeviceAccess s.cur s.core own op) ∧
      (t.core.linkReady ≠ s.core.linkReady → LinkAccess s.cur s.core own op) := by
  rcases State.access_self h with ⟨-, -, x, y, he, hy⟩ | ⟨v, ram, iocsw, dev, link, x, he, -, -, hdev, hlink⟩
  · rw [he]
    refine ⟨fun hne => ?_, absurd rfl⟩
    obtain ⟨-, hbus, hup⟩ := hy hne
    exact .inr (.inr ⟨.inl hown, hup, .inl ((deviceOf_bus _).1 hbus)⟩)
  · rw [he, MemOp.finish_dev, MemOp.finish_linkReady]
    refine ⟨fun hne => ?_, fun hne => ?_⟩
    · rcases hdev hne with ⟨hstore, haddr, hbus⟩ | ⟨hstore, haddr, hn⟩ | ⟨-, hbus, hup⟩ | ⟨hw, hn⟩
      · exact .inl ⟨hown, hstore, haddr, (deviceOf_bus _).1 hbus⟩
      · exact .inr (.inl ⟨hown, hstore, haddr, hn.imp (deviceOf_bus _).1 (deviceOf_serdes _).1⟩)
      · exact .inr (.inr ⟨.inl hown, hup, .inl ((deviceOf_bus _).1 hbus)⟩)
      · have hn' := hn.imp (deviceOf_bus _).1 (deviceOf_serdes _).1
        exact .inr (.inr ⟨.inl hown, selects_up_of_waitsForPin hn' hw, hn'⟩)
    · rcases hlink hne with ⟨hstore, hserdes, haddr⟩ | hw
      · exact .inl ⟨hown, hstore, haddr, (deviceOf_serdes _).1 hserdes⟩
      · exact .inr ⟨.inl hown, (pinSelected_iff _ _).2 hw⟩

/-- R43: the device register and the readiness of the link change by the environment's events for the device, or by an
access of the node. -/
theorem device_step {s t : State} (hs : s.SleepsInItsAccess) (hreset : s.turn ≠ .event .reset) (hstep : step s = .next t)
    (n : Node) :
    ((t.node n).dev ≠ (s.node n).dev →
      (∃ levels, s.turn = .event (.busPins n levels)) ∨ (∃ k, s.turn = .event (.vco n k)) ∨
      (∃ bit, s.turn = .event (.serdesClock n bit)) ∨ (∃ w, s.turn = .event (.serdesWord n w)) ∨
      ∃ op, (s.node n).pending = some op ∧ DeviceAccess n (s.node n) (s.turn = .node n) op) ∧
    ((t.node n).linkReady ≠ (s.node n).linkReady →
      (∃ w, s.turn = .event (.serdesWord n w)) ∨ s.turn = .event (.serdesSent n) ∨
      ∃ op, (s.node n).pending = some op ∧ LinkAccess n (s.node n) (s.turn = .node n) op) := by
  have hwoken (h : (s.node n).WokenTo n (t.node n)) :
      ((t.node n).dev ≠ (s.node n).dev →
        ∃ op, (s.node n).pending = some op ∧ DeviceAccess n (s.node n) (s.turn = .node n) op) ∧
      ∃ op, (s.node n).pending = some op ∧ LinkAccess n (s.node n) (s.turn = .node n) op := by
    obtain ⟨hdev, op, hb, hlink⟩ := h.device (s.turn = .node n)
    refine ⟨fun hne => ?_, op, hs n op hb, hlink⟩
    obtain ⟨op', hb', hdev'⟩ := hdev hne
    exact ⟨op', hs n op' hb', hdev'⟩
  rcases step_cases hstep with ⟨k, op, hturn, hpending, sl, hrun⟩ | ⟨k, i, hturn, hfetch, hi, hmem, hrun⟩ | ⟨e, hturn, rfl⟩
  · by_cases hk : n = k
    · subst hk
      have hacc := State.access_device hrun hturn
      rw [core_of_access hrun] at hacc
      exact ⟨fun hne => .inr (.inr (.inr (.inr ⟨op, hpending, hacc.1 hne⟩))),
        fun hne => .inr (.inr ⟨op, hpending, hacc.2 hne⟩)⟩
    · rcases State.access_other hrun (n := n) hk with ⟨x, hx, -⟩ | ⟨other, v, d, -, -, -, -, -, he⟩ | hw
      · rw [hx]
        exact ⟨absurd rfl, absurd rfl⟩
      · rw [he, MemOp.finish_dev, MemOp.finish_linkReady]
        exact ⟨absurd rfl, absurd rfl⟩
      · exact ⟨fun hne => .inr (.inr (.inr (.inr ((hwoken hw).1 hne)))), fun _ => .inr (.inr (hwoken hw).2)⟩
  · by_cases hk : n = k
    · subst hk
      obtain ⟨-, -, hdev, -, hlink, -⟩ := exec_core_keeps hmem hrun
      rw [core_of_exec hmem hrun] at hdev hlink
      exact ⟨absurd hdev, absurd hlink⟩
    · rw [exec_core_other hmem hrun hk]
      exact ⟨absurd rfl, absurd rfl⟩
  · have he : e ≠ .reset := fun h => hreset (h ▸ hturn)
    refine ⟨fun hne => ?_, fun hne => ?_⟩
    · rcases s.taken.applyEvent_dev he n hne with ⟨x, rfl⟩ | ⟨x, rfl⟩ | ⟨x, rfl⟩ | ⟨x, rfl⟩ | hw
      · exact .inl ⟨x, hturn⟩
      · exact .inr (.inl ⟨x, hturn⟩)
      · exact .inr (.inr (.inl ⟨x, hturn⟩))
      · exact .inr (.inr (.inr (.inl ⟨x, hturn⟩)))
      · exact .inr (.inr (.inr (.inr ((hwoken hw).1 hne))))
    · rcases s.taken.applyEvent_linkReady he n hne with ⟨x, rfl⟩ | rfl | hw
      · exact .inl ⟨x, hturn⟩
      · exact .inr (.inl hturn)
      · exact .inr (.inr (hwoken hw).2)

/-- Settles O55, the core registers first. -/
theorem registerWriters : Obligations.RegisterWriters := by
  intro s t n hs hreset hstep
  obtain ⟨hb, hcarry, ha, hr, hi, hp, ht⟩ := coreWritten_step hs hreset hstep n
  obtain ⟨hram, hiocs⟩ := stored_step hreset hstep n
  obtain ⟨hdev, hlink⟩ := device_step hs hreset hstep n
  exact ⟨hb, hcarry, ha, hr, hi, hp, ht, hram, hiocs, hdev, hlink⟩

end Sys2Proof.Machine
